-- ==== Sys2Proof/Word.lean ====
section
/-! DEFINITION. The byte, and the number type `NUM` of samples and of the loop arithmetic. -/

namespace Sys2Proof

/-- One byte: a packed byte, a byte of the frame buffer, a byte of a trace, a Reed–Solomon symbol
(10_state.md R25, R44; 30_encoding.md R86, R90; 43_gf256.md R160). Bit 7 is the most significant (R10). -/
abbrev Byte := BitVec 8

/-- `NUM`, the type of samples, soft symbols and loop registers. 00_scope.md R12: exact rationals unless a
model instantiates it otherwise; this model does not (DESIGN CHOICE, assumption 2). -/
abbrev NUM := Rat

end Sys2Proof
end

