-- ==== Sys2Proof/Config.lean ====
section
/-! DEFINITION. The parameters of the block (00_scope.md R7): the record of what an implementation fixes. The
sizes derived from it, what makes it well formed (R8) and its default values are in Machine/Layout.lean. -/

namespace Sys2Proof

/-- `CW_ORDER`: which end of a codeword is the high-degree end (44_fec.md R184, decision D22). -/
inductive CwOrder where
  | ascending
  | descending
  deriving DecidableEq, Repr

/-- The record of parameters of R7. They are protocol constants and capacities, no state: nothing changes them
while the block exists (10_state.md R22). `TAPS_FN` is plain data here: a table for each phase count listed in
`taps`, and the linear interpolator for every other (DESIGN CHOICE, assumption 4). -/
structure Params where
  /-- `RS_N`, codeword length in symbols. -/
  rsN : Nat
  /-- `RS_K`, message length in symbols. -/
  rsK : Nat
  /-- `RS_T`, correctable symbols per codeword. -/
  rsT : Nat
  /-- `RS_DEPTH`, interleaving depth: codewords per frame. -/
  rsDepth : Nat
  /-- `RS_FIELD_POLY`, the field polynomial as a 9-bit number. -/
  rsFieldPoly : BitVec 9
  /-- `RS_FCR`, exponent index of the first root. -/
  rsFcr : Nat
  /-- `RS_SKIP`, step between consecutive root exponents. -/
  rsSkip : Nat
  /-- `CW_ORDER`. -/
  cwOrder : CwOrder
  /-- `DATA_LEN`, data region length in bytes. -/
  dataLen : Nat
  /-- `EXT_LEN`, extension region length in bytes. -/
  extLen : Nat
  /-- `EXT_FLAG_MASK`. -/
  extFlagMask : Byte
  /-- `EXT_FLAG_MATCH`. -/
  extFlagMatch : Byte
  /-- `PRN_PERIOD`. -/
  prnPeriod : Nat
  /-- `PRN[0 .. PRN_PERIOD−1]`. -/
  prn : List Byte
  /-- `TAPS_FN` at the phase counts listed: `(L, rows)`. -/
  taps : List (Nat × List (List NUM))
  /-- `DEPTH_IN`, capacity of `CH_IN` in items. -/
  depthIn : Nat
  /-- `DEPTH_SYM`, capacity of `CH_SYM` in items. -/
  depthSym : Nat
  /-- `DEPTH_BYTE`, capacity of `CH_BYTE` in items. -/
  depthByte : Nat
  deriving DecidableEq, Repr

/-- `ginv(0)`, which 43_gf256.md R164 does not define and no rule asks for: a free value (DEDUCED, assumption 13). -/
opaque Config.ginvZero : Byte

/-- `LOG[0]`, which does not exist (43_gf256.md R163) and no rule asks for: a free value (DEDUCED, assumption 13). -/
opaque Config.glogZero : Nat

end Sys2Proof
end

