-- ==== Sys2Proof/Machine/Field.lean ====
section
/-! DEFINITION. Arithmetic of the symbol field GF(2^8) (43_gf256.md section 1), for any degree-8 field
polynomial, and polynomials over it (section 2). -/

namespace Sys2Proof.Machine

/-- R161. Addition, which is subtraction too, is the bitwise exclusive or. -/
def gadd (a b : Byte) : Byte := a ^^^ b

/-- R162, first loop, one turn: `a << i` if `b[i] = 1`, else 0. -/
def shiftedIfBit (a b i : Nat) : Nat := (b >>> i) % 2 * (a <<< i)

/-- R162, first loop: the carry-less product, up to degree 14. -/
def carryless (a b : Nat) : Nat :=
  shiftedIfBit a b 0 ^^^ shiftedIfBit a b 1 ^^^ shiftedIfBit a b 2 ^^^ shiftedIfBit a b 3 ^^^
    shiftedIfBit a b 4 ^^^ shiftedIfBit a b 5 ^^^ shiftedIfBit a b 6 ^^^ shiftedIfBit a b 7

/-- R162, second loop, one turn: if bit `i` of `r` is 1, exclusive or with the field polynomial shifted by
`i − 8`. -/
def reduceBit (poly i r : Nat) : Nat := r ^^^ (r >>> i) % 2 * (poly <<< (i - 8))

/-- R162, second loop: `i` from 14 down to 8. -/
def reduceBy (poly r : Nat) : Nat :=
  reduceBit poly 8 (reduceBit poly 9 (reduceBit poly 10 (reduceBit poly 11
    (reduceBit poly 12 (reduceBit poly 13 (reduceBit poly 14 r))))))

/-- R162. The product of two field elements, `r[7:0]`. -/
def gmul (poly : BitVec 9) (a b : Byte) : Byte :=
  BitVec.ofNat 8 (reduceBy poly.toNat (carryless a.toNat b.toNat))

/-- R162, last sentence: multiplying by `α = 0x02` is a shift left by one place and, if bit 7 was set, an
exclusive or with the field polynomial (whose bit 8 cancels the bit shifted out). -/
def xtime (poly : BitVec 9) (a : Byte) : Byte :=
  BitVec.ofNat 8 (a.toNat <<< 1 ^^^ (a.toNat >>> 7) % 2 * poly.toNat)

/-- `EXP[e]`, that is `α^e`, by `e` multiplications by `α` (R163). -/
def gexp (poly : BitVec 9) : Nat → Byte
  | 0 => 1
  | e + 1 => xtime poly (gexp poly e)

/-- R163. `gpow(e) = EXP[e mod 255]` for any integer `e`, the remainder taken into 0 … 254. -/
def gpow (poly : BitVec 9) (e : Int) : Byte := gexp poly (e % 255).toNat

/-- The search behind `glog`: the first of the powers `v, α·v, α²·v, …` equal to `a`, counted from `e`. -/
def glogFrom (poly : BitVec 9) (a : Byte) : Nat → Byte → Nat → Nat
  | 0, _, e => e
  | n + 1, v, e => if v = a then e else glogFrom poly a n (xtime poly v) (e + 1)

/-- R163. `LOG[a]` for `a ≠ 0`. `LOG[0]` does not exist; no rule asks for it (DEDUCED, assumption 13). -/
def glog (poly : BitVec 9) (a : Byte) : Nat := if a = 0 then Config.glogZero else glogFrom poly a 255 1 0

/-- R164. `ginv(a) = EXP[(255 − LOG[a]) mod 255]` for `a ≠ 0`. `ginv(0)` is not defined and no rule asks for
it (DEDUCED, assumption 13). -/
def ginv (poly : BitVec 9) (a : Byte) : Byte :=
  if a = 0 then Config.ginvZero else gexp poly ((255 - glog poly a) % 255)

/-- The powers of `α` from `v` on reach 1 for the first time at the last of `n` multiplications. -/
def firstReturn (poly : BitVec 9) : Nat → Byte → Bool
  | 0, _ => false
  | 1, v => xtime poly v == 1
  | n + 2, v => xtime poly v != 1 && firstReturn poly (n + 1) (xtime poly v)

/-- The field polynomial is a primitive polynomial of degree 8 (R8, R165): its degree is 8 and `α = 0x02` has
order 255, so that its powers are all the non-zero bytes. -/
def isPrimitive (poly : BitVec 9) : Bool := poly.getLsbD 8 && firstReturn poly 255 1

/-! ### Polynomials over the field: the coefficient of `x^d` at index `d` (R168) -/

/-- R168. `peval(p, v) = p[0] + p[1]·v + … + p[n]·v^n`, by Horner's rule. -/
def peval (poly : BitVec 9) (p : List Byte) (v : Byte) : Byte :=
  p.foldr (fun c r => gadd c (gmul poly v r)) 0

/-- Sum of two polynomials, coefficient by coefficient. -/
def padd : List Byte → List Byte → List Byte
  | [], q => q
  | p, [] => p
  | a :: p, b :: q => gadd a b :: padd p q

/-- A field element times a polynomial. -/
def pscale (poly : BitVec 9) (k : Byte) (p : List Byte) : List Byte := p.map (gmul poly k)

/-- `x^m · p`. -/
def pshift (m : Nat) (p : List Byte) : List Byte := List.replicate m 0 ++ p

/-- Product of two polynomials. -/
def pmul (poly : BitVec 9) : List Byte → List Byte → List Byte
  | [], _ => []
  | a :: p, q => padd (pscale poly a q) (0 :: pmul poly p q)

/-- R168. The formal derivative: `p'[d−1] = p[d]` for odd `d`, 0 for even `d`. -/
def pderiv (p : List Byte) : List Byte :=
  (List.range (p.length - 1)).map (fun i => if i % 2 = 0 then p.getD (i + 1) 0 else 0)

/-- The degree of a polynomial, 0 for the zero polynomial: the greatest index of a non-zero coefficient. -/
def pdegree : List Byte → Nat
  | [] => 0
  | _ :: p => if p.all (· == 0) then 0 else pdegree p + 1

end Sys2Proof.Machine
end

