-- ==== Sys2Proof/Machine/Layout.lean ====
section
/-! DEFINITION. What follows from the record of parameters: the derived sizes (00_scope.md R8) and offsets
(30_encoding.md R83), the tap tables (40_timing_recovery.md R114), what makes a record well formed (R8), and the
default record (R7). -/

namespace Sys2Proof

open Sys2Proof.Machine

/-! ### Derived sizes (R8) and offsets (30_encoding.md R83) -/

/-- `PAR_PER_CW`. -/
def Params.parPerCw (P : Params) : Nat := 2 * P.rsT

/-- `PAR_LEN`. -/
def Params.parLen (P : Params) : Nat := 2 * P.rsT * P.rsDepth

/-- `MSG_LEN_STD`. -/
def Params.msgLenStd (P : Params) : Nat := (1 + P.dataLen) / P.rsDepth

/-- `MSG_LEN_EXT`. -/
def Params.msgLenExt (P : Params) : Nat := (1 + P.dataLen + P.extLen) / P.rsDepth

/-- `FRAME_LEN_STD`. -/
def Params.frameLenStd (P : Params) : Nat := 1 + P.dataLen + P.parLen

/-- `FRAME_LEN_EXT`. -/
def Params.frameLenExt (P : Params) : Nat := 1 + P.dataLen + P.extLen + P.parLen

/-- `FRAME_LEN_MAX`, the size of the frame buffer and of every frame block (R82). -/
def Params.frameLenMax (P : Params) : Nat := P.frameLenExt

/-- `PAR_OFF_STD`. -/
def Params.parOffStd (P : Params) : Nat := 1 + P.dataLen

/-- `EXT_OFF`. -/
def Params.extOff (P : Params) : Nat := 1 + P.dataLen

/-- `PAR_OFF_EXT`. -/
def Params.parOffExt (P : Params) : Nat := 1 + P.dataLen + P.extLen

/-! ### The taps (40_timing_recovery.md R114) -/

/-- The default `TAPS_FN`, the linear interpolator: `TR_TAPS[p] = [p / L, 1 − p / L]` for `0 ≤ p < L`. -/
def linearTaps (L : Nat) : List (List NUM) :=
  (List.range L).map (fun p => [(p : NUM) / (L : NUM), 1 - (p : NUM) / (L : NUM)])

/-- `TAPS_FN(L)`: the rows listed for `L`, else the linear interpolator. -/
def Params.tapsFn (P : Params) (L : Nat) : List (List NUM) :=
  match P.taps.find? (fun e => e.1 == L) with
  | some e => e.2
  | none => linearTaps L

/-- The common row length `TR_M` of a tap table. -/
def tapsWidth (rows : List (List NUM)) : Nat := (rows.headD []).length

/-- What R114 asks of a table `TAPS_FN` returns for `L`: `L` rows of one common length, at least 1. -/
abbrev TapsOk (L : Nat) (rows : List (List NUM)) : Prop :=
  1 ≤ L ∧ rows.length = L ∧ 1 ≤ tapsWidth rows ∧ ∀ row ∈ rows, row.length = tapsWidth rows

/-! ### Well-formed parameters -/

/-- R8, with R28's bounds on the capacities that do not depend on `TR_L` and R114's on the taps. -/
abbrev Params.Wf (P : Params) : Prop :=
  P.rsN = 255 ∧ P.rsN = P.rsK + 2 * P.rsT ∧ 1 ≤ P.rsT ∧ 1 ≤ P.rsDepth ∧
  P.rsDepth ∣ 1 + P.dataLen ∧ P.rsDepth ∣ 1 + P.dataLen + P.extLen ∧
  P.msgLenStd ≤ P.rsK ∧ P.msgLenExt ≤ P.rsK ∧
  isPrimitive P.rsFieldPoly = true ∧ Nat.gcd P.rsSkip 255 = 1 ∧
  1 ≤ P.prnPeriod ∧ P.prn.length = P.prnPeriod ∧
  (∀ e ∈ P.taps, TapsOk e.1 e.2) ∧
  1 ≤ P.depthIn ∧ 1 ≤ P.depthSym ∧ 1 ≤ P.depthByte

/-- A well-formed record of parameters: the only kind a state can hold, so that a record that fails R8 is
refused before there is a machine (R8, "A model refuses a parameter record that fails one of these"). -/
abbrev Parameters := { P : Params // P.Wf }

/-- A record of parameters as a model takes it: refused (`none`) exactly if it is not well formed (R8). -/
def Params.accept (P : Params) : Option Parameters := if h : P.Wf then some ⟨P, h⟩ else none

/-! ### The default record -/

/-- The default descrambling sequence (42_descrambler.md R153), row by row. -/
def defaultPrn : List Byte :=
  [0x96, 0x83, 0x3E, 0x51, 0xB1, 0x49, 0x08, 0x98] ++
  [0x32, 0x05, 0x59, 0x0E, 0xF9, 0x44, 0xC6, 0x26] ++
  [0x21, 0x60, 0xC2, 0xEA, 0x79, 0x5D, 0x6D, 0xA1] ++
  [0x54, 0x69, 0x47, 0x0C, 0xDC, 0xE8, 0x5C, 0xF1] ++
  [0xF7, 0x76, 0x82, 0x7F, 0x07, 0x99, 0xA2, 0x2C] ++
  [0x93, 0x7C, 0x30, 0x63, 0xF5, 0x10, 0x2E, 0x61] ++
  [0xD0, 0xBC, 0xB4, 0xB6, 0x06, 0xAA, 0xF4, 0x23] ++
  [0x78, 0x6E, 0x3B, 0xAE, 0xBF, 0x7B, 0x4C, 0xC1]

/-- The defaults of R7. The three capacities have none: DESIGN CHOICE 2^31 items each, which meets R28's bound
for every `TR_L` that the operands of a `TR.CFG` can give (DESIGN CHOICE, assumption 3). -/
def Params.rs41 : Params where
  rsN := 255
  rsK := 231
  rsT := 12
  rsDepth := 2
  rsFieldPoly := 0x11D
  rsFcr := 0
  rsSkip := 1
  cwOrder := .ascending
  dataLen := 263
  extLen := 198
  extFlagMask := 0xFF
  extFlagMatch := 0xF0
  prnPeriod := 64
  prn := defaultPrn
  taps := []
  depthIn := 2147483648
  depthSym := 2147483648
  depthByte := 2147483648

theorem Params.rs41_wf : Params.rs41.Wf := by decide +kernel

/-- The parameters the machine is built with when nothing else is said: the defaults of R7. -/
def Config.parameters : Parameters := ⟨Params.rs41, Params.rs41_wf⟩

end Sys2Proof
end

