-- ==== Sys2Proof/Machine/State.lean ====
section
/-! DEFINITION. The architectural state (10_state.md), the reasons a step can stop, and the state after reset. -/

namespace Sys2Proof.Machine

/-- The states of `TR_FSM` (R36). -/
inductive TrFsm where
  | advance
  | strobe
  deriving DecidableEq, Repr

/-- The values of `FB_STATE` (R45): who owns the frame buffer. -/
inductive FbState where
  | empty
  | loaded
  | descrambled
  | corrected
  deriving DecidableEq, Repr

/-- The configuration registers of TR (R31), as an accepted `TR.CFG` leaves them. -/
structure TrConfig where
  /-- `TR_RNOM`. -/
  rNom : NUM
  /-- `TR_DAMP`. -/
  damp : NUM
  /-- `TR_BW`. -/
  bw : NUM
  /-- `TR_MAXDEV`. -/
  maxDev : NUM
  /-- `TR_OSTARGET`. -/
  osTarget : NUM
  /-- `TR_L`, timeslots per input sample. -/
  l : Nat
  /-- `TR_M`, taps per phase. -/
  m : Nat
  /-- `TR_TAPS[p][k]`. -/
  taps : List (List NUM)
  /-- `TR_FREQ_NOM`. -/
  freqNom : NUM
  /-- `TR_DEV`. -/
  dev : NUM
  /-- `TR_ALPHA`. -/
  alpha : NUM
  /-- `TR_BETA`. -/
  beta : NUM
  deriving DecidableEq, Repr

/-- The registers of TR that hold no value before a `TR.CFG` is accepted, and none after one is rejected: the
configuration registers (R31) and `TR_FREQ` (R34). 70_reset_and_hazards.md R261: such state "holds no value: a
model must not pick zero for it and must make it unreadable"; 93_implementation_defined.md I8 asks for this
"unconfigured" constructor. `TR_CFG_VALID` is which of the two constructors stands (DEDUCED, assumption 5). -/
inductive TrBank where
  | unconfigured
  | configured (cfg : TrConfig) (freq : NUM)
  deriving DecidableEq, Repr

/-- The contents of a memory: a list of (address, byte) pairs with strictly rising addresses. An address that is
not listed holds no value (20_memory.md R60; 10_state.md R44; DEDUCED, assumption 6). -/
abbrev Memory := List Host.Cell

/-- What a host command gives back (45_control.md R215, R219, R221). -/
inductive Result where
  /-- `ST.READ`: the `STATUS` view. -/
  | status (w : BitVec 16)
  /-- `BYTE.POP`: the oldest byte of `CH_BYTE`. -/
  | byte (b : Byte)
  /-- `FR.READ`: the frame buffer, `FEC_MODE`, and `FEC_INVALID[j]` for each `j`. -/
  | frame (bytes : List Byte) (mode : Bool) (invalid : List Bool)
  deriving DecidableEq, Repr

/-- The state. The first three fields are the model's own (DESIGN CHOICE, assumptions 1, 7, 8); every other is a piece
of state of 10_state.md. `FEC_CW` (R46) is a local value of `FEC.RUN`, as the rule allows (DEDUCED, assumption 9). -/
structure State where
  /-- The model's own: the parameters the block is built with (00_scope.md R7). No step changes them (R22). -/
  params : Parameters
  /-- The model's own: the bytes of the trace (30_encoding.md R90) whose operations have not happened yet. -/
  trace : List Byte
  /-- The model's own: what the host's commands gave back, oldest first (45_control.md R225). -/
  results : List Result
  /-- `CH_IN`, input samples, oldest first (R25). -/
  chIn : List NUM
  /-- `CH_SYM`, soft symbols, oldest first (R25). -/
  chSym : List NUM
  /-- `CH_BYTE`, bytes, oldest first (R25). -/
  chByte : List Byte
  /-- `CTRL`, one run bit per stage (R54). -/
  ctrl : BitVec 4
  /-- `TR_CFG_VALID`, the configuration registers (R31) and `TR_FREQ` (R34). -/
  tr : TrBank
  /-- `TR_DL[k]`, the delay line, newest sample first (R32). -/
  trDl : List NUM
  /-- `TR_PHASE` (R33). -/
  trPhase : NUM
  /-- `TR_Y_PREV` (R35). -/
  trYPrev : NUM
  /-- `TR_Y_EARLY` (R35). -/
  trYEarly : NUM
  /-- `TR_Y_ONTIME` (R35). -/
  trYOntime : NUM
  /-- `TR_FSM` (R36). -/
  trFsm : TrFsm
  /-- `TR_ERR` (R37). -/
  trErr : NUM
  /-- `SL_SHREG` (R40). -/
  slShreg : BitVec 8
  /-- `SL_BITCNT` (R41). -/
  slBitcnt : BitVec 3
  /-- `FB`, the frame buffer (R44). -/
  fb : Memory
  /-- `FB_STATE` (R45). -/
  fbState : FbState
  /-- `FEC_INVALID[j]`, `0 ≤ j < RS_DEPTH` (R50). -/
  fecInvalid : List Bool
  /-- `FEC_MODE` (R51). -/
  fecMode : Bool
  deriving DecidableEq, Repr

/-- Why the machine can stop with a fault. The block itself raises no exception (60_exceptions.md R240): a fault
marks a state that no run from reset reaches. -/
inductive Fault where
  /-- Raised by `DS.RUN`, `FEC.RUN` and `FR.READ` when the frame buffer does not hold exactly one value for each
  of its addresses. 10_state.md R44 makes this impossible while `FB_STATE ≠ EMPTY`. Safe. -/
  | frameBufferUnwritten
  deriving DecidableEq, Repr

/-- Why an operation can have no step. -/
inductive Refusal where
  /-- Raised by no arm: every operation has its meaning. Safe. -/
  | notModelled (mnemonic : String)
  /-- Raised by an operation whose `require` does not hold in the state it meets: it has no step there, and a
  model refuses the trace (45_control.md R211; 93_implementation_defined.md I10). Safe. -/
  | notEnabled (mnemonic : String)
  /-- Raised by the step when the bytes of the trace are not the encoding of a sequence of operations: the trace
  is refused as a whole (30_encoding.md R98). Safe. -/
  | invalidTrace
  /-- Raised by `TR.CFG`, `IN.SAMPLE` and `SYM.PUSH` on a term with a zero denominator, which the decoder never
  gives (30_encoding.md R95, R96). Safe. -/
  | zeroDenominator
  /-- Raised by `FR.LOAD` on a term whose block has not `FRAME_LEN_MAX` bytes, which the decoder never gives
  (30_encoding.md R82, R91). Safe. -/
  | blockLength
  deriving DecidableEq, Repr

/-- The power-on state of a block with the parameters `p` (R58; 70_reset_and_hazards.md R260). -/
def State.powerOn (p : Parameters) : State where
  params := p
  trace := []
  results := []
  chIn := []
  chSym := []
  chByte := []
  ctrl := 0
  tr := .unconfigured
  trDl := []
  trPhase := 0
  trYPrev := 0
  trYEarly := 0
  trYOntime := 0
  trFsm := .advance
  trErr := 0
  slShreg := 0
  slBitcnt := 0
  fb := []
  fbState := .empty
  fecInvalid := List.replicate p.val.rsDepth false
  fecMode := false

/-- The machine right after reset, with the default parameters (R58). -/
def State.reset : State := State.powerOn Config.parameters

end Sys2Proof.Machine
end

