-- ==== Sys2Proof/Syntax.lean ====
section
/-! DEFINITION. The operations of the block (30_encoding.md R88): what the checklist calls an instruction is one
firing of one stage or one command of the host (00_scope.md R3). One constructor per row of the operation list. -/

namespace Sys2Proof

/-- A stage of the block (00_scope.md R5), the operand `stage` of R97. -/
inductive Stage where
  | tr
  | sl
  | ds
  | fec
  deriving DecidableEq, Repr

/-- A `RAT` operand (R95): an unsigned 16-bit numerator and an unsigned 16-bit denominator. It need not be in
lowest terms: `2/4` and `1/2` are two operands of one value. -/
structure Ratio where
  num : BitVec 16
  den : BitVec 16
  deriving DecidableEq, Repr

/-- An `SRAT` operand (R96): a two's-complement signed 16-bit numerator and an unsigned 16-bit denominator. -/
structure SRatio where
  num : BitVec 16
  den : BitVec 16
  deriving DecidableEq, Repr

/-- The complete list of operations (R88). -/
inductive Instr where
  /-- 0x00 `RESET` (45_control.md R212). -/
  | reset
  /-- 0x01 `STAGE.START stage` (45_control.md R213). -/
  | stageStart (stage : Stage)
  /-- 0x02 `STAGE.STOP stage` (45_control.md R214). -/
  | stageStop (stage : Stage)
  /-- 0x03 `ST.READ` (45_control.md R215). -/
  | stRead
  /-- 0x10 `TR.CFG r_nom, damp, bw, maxdev, os_target` (40_timing_recovery.md R115). -/
  | trCfg (rNom damp bw maxDev osTarget : Ratio)
  /-- 0x11 `IN.SAMPLE v` (45_control.md R217). -/
  | inSample (v : SRatio)
  /-- 0x12 `TR.STEP` (40_timing_recovery.md R116). -/
  | trStep
  /-- 0x20 `SYM.PUSH v` (45_control.md R218). -/
  | symPush (v : SRatio)
  /-- 0x21 `SL.STEP` (41_slicer.md R141). -/
  | slStep
  /-- 0x22 `BYTE.POP` (45_control.md R219). -/
  | bytePop
  /-- 0x30 `FR.LOAD blk` (45_control.md R220). -/
  | frLoad (blk : List Byte)
  /-- 0x31 `DS.RUN` (42_descrambler.md R152). -/
  | dsRun
  /-- 0x32 `FEC.RUN` (44_fec.md R186). -/
  | fecRun
  /-- 0x33 `FR.READ` (45_control.md R221). -/
  | frRead
  deriving DecidableEq, Repr

end Sys2Proof
end

