-- ==== Sys2Proof/Machine/Ops.lean ====
section
/-! DEFINITION. The shared operations: the frame buffer's memory, the channels, the run bits, the results given
back to the host, and `require`. There is no operation that takes an exception and none that returns from one,
because the block has neither (60_exceptions.md R240, R244, R246). -/

namespace Sys2Proof.Machine

/-- What a step or a meaning answers. -/
abbrev Out := Host.Outcome State Fault Refusal

/-! ### Memory (20_memory.md) -/

/-- The value of the byte at an address, `none` where it holds no value (00_scope.md R11, `FB[i]`). -/
def Memory.read : Memory → Nat → Option Byte
  | [], _ => none
  | (x, b) :: m, a => if x = a then some b else Memory.read m a

/-- The memory whose bytes from address `base` on are `bytes`, and that holds no other value. -/
def Memory.ofBytes : Nat → List Byte → Memory
  | _, [] => []
  | base, b :: bytes => (base, b) :: Memory.ofBytes (base + 1) bytes

/-- All bytes of a memory whose addresses are `0 … n − 1`, in address order; `none` unless each of these addresses
holds a value and no other does. -/
def Memory.bytes (n : Nat) (m : Memory) : Option (List Byte) :=
  if m.map Prod.fst = List.range n then some (m.map Prod.snd) else none

/-- The canonical form of a memory: its addresses rise strictly. No entry can equal what an unlisted address reads
as, since that is no value. -/
abbrev Memory.wf (m : Memory) : Prop := (m.map Prod.fst).Pairwise (· < ·)

/-! ### Channels (10_state.md R25 to R28) -/

/-- R28: the channel has at least `need` free places. -/
def hasRoom {α : Type} (ch : List α) (depth need : Nat) : Bool := decide (ch.length + need ≤ depth)

/-- R11, `push CH, v`: append `v` as the newest item. -/
def push {α : Type} (ch : List α) (v : α) : List α := ch ++ [v]

/-! ### Run bits (R54) -/

/-- The bit of `CTRL` that belongs to a stage (R54), which is the stage's number in R97 too. -/
def stageBit : Stage → Nat
  | .tr => 0
  | .sl => 1
  | .ds => 2
  | .fec => 3

/-- The run bit of a stage. -/
def State.running (s : State) (st : Stage) : Bool := s.ctrl.getLsbD (stageBit st)

/-- `CTRL` with the run bit of a stage set. -/
def setRun (ctrl : BitVec 4) (st : Stage) : BitVec 4 := ctrl ||| ((1 : BitVec 4) <<< stageBit st)

/-- `CTRL` with the run bit of a stage cleared. -/
def clearRun (ctrl : BitVec 4) (st : Stage) : BitVec 4 := ctrl &&& ~~~((1 : BitVec 4) <<< stageBit st)

/-! ### Parameters, enabledness, results -/

/-- The parameters of the block, as plain data. -/
def State.P (s : State) : Params := s.params.val

/-- R11 and 45_control.md R211, `require c`: the operation has a step only where `c` holds; elsewhere it has none,
and a model refuses the trace that lists it. -/
def require (mnemonic : String) (c : Bool) (k : Out) : Out :=
  if c then k else .refused (.notEnabled mnemonic)

/-- The host is given a result (R225). -/
def State.returning (s : State) (r : Result) : State := { s with results := s.results ++ [r] }

end Sys2Proof.Machine
end

