-- ==== Sys2Proof/Machine/Flags.lean ====
section
/-! DEFINITION. The flags (10_state.md section 7) and the `STATUS` view assembled from them (R55). -/

namespace Sys2Proof.Machine

/-- `TR_CFG_VALID` (R31): 1 iff the last `TR.CFG` was accepted. -/
def TrBank.valid : TrBank → Bool
  | .unconfigured => false
  | .configured _ _ => true

/-- `TR_FSM` as a bit (R36). -/
def TrFsm.bit : TrFsm → Bool
  | .advance => false
  | .strobe => true

/-- `FB_STATE` as two bits (R45). -/
def FbState.code : FbState → BitVec 2
  | .empty => 0
  | .loaded => 1
  | .descrambled => 2
  | .corrected => 3

/-- `FRAME_INVALID` (R55): the OR of every `FEC_INVALID[j]`. -/
def State.frameInvalid (s : State) : Bool := s.fecInvalid.any id

/-- `FEC_INVALID[j]`, 0 for a `j` that is no codeword of the frame (R55: bit 11 reads 0 with `RS_DEPTH = 1`). -/
def State.invalid (s : State) (j : Nat) : Bool := s.fecInvalid.getD j false

/-- The `STATUS` view (R55), from bit 15 down to bit 0. -/
def State.status (s : State) : BitVec 16 :=
  0#1 ++ s.slBitcnt ++ BitVec.ofBool (s.invalid 1) ++ BitVec.ofBool (s.invalid 0) ++
    BitVec.ofBool s.frameInvalid ++ BitVec.ofBool s.fecMode ++ s.fbState.code ++
    BitVec.ofBool s.trFsm.bit ++ BitVec.ofBool s.tr.valid ++ s.ctrl

end Sys2Proof.Machine
end

