-- ==== Sys2Proof/Machine/Control.lean ====
section
/-! DEFINITION. `RESET`, `STAGE.START`, `STAGE.STOP` and `ST.READ` (45_control.md section 2). -/

namespace Sys2Proof.Machine

/-- R212: every piece of state takes its value of 10_state.md R58. The parameters are not state and are not
affected; the rest of the trace is still to happen, and the host keeps what it was given (DESIGN CHOICE, assumptions
7, 8). -/
def execReset (s : State) : Out :=
  .next { State.powerOn s.params with trace := s.trace, results := s.results }

/-- R213: `CTRL` bit `st` becomes 1. Enabled in every state. -/
def execStageStart (st : Stage) (s : State) : Out := .next { s with ctrl := setRun s.ctrl st }

/-- R214: `CTRL` bit `st` becomes 0. Enabled in every state. -/
def execStageStop (st : Stage) (s : State) : Out := .next { s with ctrl := clearRun s.ctrl st }

/-- R215: return the `STATUS` view. Enabled in every state. -/
def execStRead (s : State) : Out := .next (s.returning (.status s.status))

end Sys2Proof.Machine
end

