-- ==== Sys2Proof/Machine/Descrambler.lean ====
section
/-! DEFINITION. The frame descrambler, `DS.RUN` (42_descrambler.md), and the host's two ends of the back path,
`FR.LOAD` and `FR.READ` (45_control.md section 4). -/

namespace Sys2Proof.Machine

/-- R151: bit `j` of the result is bit `7 − j` of `b`. -/
def bitrev8 (b : Byte) : Byte :=
  (List.range 8).foldl (fun r j => if b.getLsbD (7 - j) then r ||| ((1 : Byte) <<< j) else r) 0

/-- The byte of the descrambling sequence that belongs to position `i` of a block (R152). -/
def prnByte (P : Params) (i : Nat) : Byte := P.prn.getD (i % P.prnPeriod) 0

/-- R152: the byte `b` at position `i`, descrambled: reversed, then exclusive or with the all-ones byte and with the
sequence. -/
def descrambleByte (P : Params) (i : Nat) (b : Byte) : Byte := bitrev8 b ^^^ 0xFF ^^^ prnByte P i

/-- R152: a whole block descrambled. -/
def descramble (P : Params) (block : List Byte) : List Byte :=
  block.mapIdx (fun i b => descrambleByte P i b)

/-- R155: the transmitter's scrambling. No operation of the block computes it. -/
def scramble (P : Params) (plain : List Byte) : List Byte :=
  plain.mapIdx (fun i b => bitrev8 (b ^^^ 0xFF ^^^ prnByte P i))

/-- The bytes of the frame buffer, given to `k`; a fault where the buffer does not hold one value for each of its
addresses, which R44 excludes in every state whose `FB_STATE` is not `EMPTY`. -/
def State.withFrame (s : State) (k : List Byte → Out) : Out :=
  match s.fb.bytes s.P.frameLenMax with
  | some bytes => k bytes
  | none => .fault .frameBufferUnwritten

/-- `DS.RUN` (R152): descramble the frame block in place. -/
def execDsRun (s : State) : Out :=
  require "DS.RUN" (s.running .ds && s.fbState == .loaded) <|
    s.withFrame fun bytes =>
      .next { s with fb := Memory.ofBytes 0 (descramble s.P bytes), fbState := .descrambled }

/-- `FR.LOAD blk` (45_control.md R220): give the back path one frame block. -/
def execFrLoad (blk : List Byte) (s : State) : Out :=
  if blk.length = s.P.frameLenMax then
    require "FR.LOAD" (s.fbState == .empty) <|
      .next { s with
        fb := Memory.ofBytes 0 blk
        fecInvalid := List.replicate s.P.rsDepth false
        fecMode := false
        fbState := .loaded }
  else .refused .blockLength

/-- `FR.READ` (45_control.md R221): take the processed frame out. -/
def execFrRead (s : State) : Out :=
  require "FR.READ" (s.fbState == .corrected) <|
    s.withFrame fun bytes =>
      .next ({ s with fbState := .empty }.returning (.frame bytes s.fecMode s.fecInvalid))

end Sys2Proof.Machine
end

