-- ==== Sys2Proof/Machine/ReedSolomon.lean ====
section
/-! DEFINITION. The Reed–Solomon code (43_gf256.md section 3; 44_fec.md R184) and the decoder of one codeword
(44_fec.md R187, by the procedure of R192), with the encoder that test vectors are built with (R193).

A word is the list of its `RS_N` coefficients, the coefficient of `x^d` at index `d`. -/

namespace Sys2Proof.Machine

/-- R169: the root `ρ_r = α^(RS_SKIP · (RS_FCR + r))`. -/
def root (P : Params) (r : Nat) : Byte := gpow P.rsFieldPoly ((P.rsSkip * (P.rsFcr + r) : Nat) : Int)

/-- R169: the locator `X_d = α^(RS_SKIP · d)` of the coefficient index `d`. -/
def locator (P : Params) (d : Nat) : Byte := gpow P.rsFieldPoly ((P.rsSkip * d : Nat) : Int)

/-- R170: the code generator `g(x)`, the product of `x + ρ_r` over the `2·RS_T` roots. -/
def generator (P : Params) : List Byte :=
  (List.range P.parPerCw).foldl (fun g r => pmul P.rsFieldPoly [root P r, 1] g) [1]

/-- R192: the syndromes `S[r] = peval(c, ρ_r)`. -/
def syndromes (P : Params) (c : List Byte) : List Byte :=
  (List.range P.parPerCw).map (fun r => peval P.rsFieldPoly c (root P r))

/-! ### Berlekamp–Massey (R192) -/

/-- The variables of the loop: `Λ`, `B`, `L`, `m` and `b`. -/
structure Bm where
  lam : List Byte
  bold : List Byte
  len : Nat
  m : Nat
  b : Byte
  deriving DecidableEq, Repr

/-- `δ = S[n] + Σ_{i=1..L} Λ[i]·S[n−i]`; with `Λ[0] = 1` this is the sum from `i = 0`. -/
def discrepancy (P : Params) (S lam : List Byte) (len n : Nat) : Byte :=
  (List.range len).foldl
    (fun acc i => gadd acc (gmul P.rsFieldPoly (lam.getD (i + 1) 0) (S.getD (n - (i + 1)) 0))) (S.getD n 0)

/-- `Λ + (δ·ginv(b))·x^m·B`. -/
def bmCorrect (P : Params) (t : Bm) (delta : Byte) : List Byte :=
  padd t.lam (pshift t.m (pscale P.rsFieldPoly (gmul P.rsFieldPoly delta (ginv P.rsFieldPoly t.b)) t.bold))

/-- One iteration of the loop. -/
def bmStep (P : Params) (S : List Byte) (t : Bm) (n : Nat) : Bm :=
  let delta := discrepancy P S t.lam t.len n
  if delta = 0 then { t with m := t.m + 1 }
  else if 2 * t.len ≤ n then
    { lam := bmCorrect P t delta, bold := t.lam, len := n + 1 - t.len, m := 1, b := delta }
  else { t with lam := bmCorrect P t delta, m := t.m + 1 }

/-- The loop, for `n = 0 … 2T − 1`. -/
def berlekampMassey (P : Params) (S : List Byte) : Bm :=
  (List.range P.parPerCw).foldl (bmStep P S) { lam := [1], bold := [1], len := 0, m := 1, b := 1 }

/-! ### Chien search and Forney's formula (R192) -/

/-- The coefficient indices `d` with `Λ(X_d⁻¹) = 0`. -/
def errorPositions (P : Params) (lam : List Byte) : List Nat :=
  (List.range P.rsN).filter
    (fun d => peval P.rsFieldPoly lam (ginv P.rsFieldPoly (locator P d)) == 0)

/-- `Ω = (S(x)·Λ(x)) mod x^(2T)`. -/
def errorEvaluator (P : Params) (S lam : List Byte) : List Byte :=
  (pmul P.rsFieldPoly S lam).take P.parPerCw

/-- The error value at the coefficient index `d`, given `Ω` and `Λ'`; `none` if `Λ'(X_d⁻¹) = 0`. -/
def errorValue (P : Params) (omega dlam : List Byte) (d : Nat) : Option Byte :=
  let xinv := ginv P.rsFieldPoly (locator P d)
  let den := peval P.rsFieldPoly dlam xinv
  if den = 0 then none
  else some (gmul P.rsFieldPoly
    (gpow P.rsFieldPoly ((P.rsSkip * d : Nat) * (1 - (P.rsFcr : Int))))
    (gmul P.rsFieldPoly (peval P.rsFieldPoly omega xinv) (ginv P.rsFieldPoly den)))

/-- The word with the error value of each position added; `none` as soon as one has no value. -/
def correctAt (P : Params) (omega dlam : List Byte) : List Nat → List Byte → Option (List Byte)
  | [], c => some c
  | d :: rest, c =>
    match errorValue P omega dlam d with
    | some e => correctAt P omega dlam rest (c.set d (gadd (c.getD d 0) e))
    | none => none

/-- R187, `RS_DECODE(c)`, computed by the procedure of R192: `some c'` for `(ok, c')`, `none` for `(fail, c)`. -/
def rsDecode (P : Params) (c : List Byte) : Option (List Byte) :=
  let S := syndromes P c
  if S.all (· == 0) then some c
  else
    let t := berlekampMassey P S
    let nu := pdegree t.lam
    if nu ≠ t.len ∨ P.rsT < nu then none
    else
      let E := errorPositions P t.lam
      if E.length ≠ nu then none
      else
        match correctAt P (errorEvaluator P S t.lam) (pderiv t.lam) E c with
        | some c' => if (syndromes P c').all (· == 0) then some c' else none
        | none => none

/-! ### The encoder (R193): no operation of the block computes it -/

/-- One step of the division by `g(x)`: the remainder register takes in the next coefficient, highest degree
first. -/
def divideStep (P : Params) (g rem : List Byte) (a : Byte) : List Byte :=
  let q := gadd a (rem.getD (P.parPerCw - 1) 0)
  (padd (0 :: rem) (pscale P.rsFieldPoly q g)).take P.parPerCw

/-- R193: the coefficients of `(Σ_i M[i]·x^(2·RS_T+i)) mod g(x)`, for a message given lowest degree first. -/
def remainderByGenerator (P : Params) (msg : List Byte) : List Byte :=
  msg.reverse.foldl (divideStep P (generator P)) (List.replicate P.parPerCw 0)

end Sys2Proof.Machine
end

