-- ==== Sys2Proof/Machine/Fec.lean ====
section
/-! DEFINITION. The interleaved Reed–Solomon stage, `FEC.RUN` (44_fec.md). -/

namespace Sys2Proof.Machine

/-- R84: a descrambled frame is extended iff its flag byte matches. -/
def isExtended (P : Params) (flag : Byte) : Bool := (flag &&& P.extFlagMask) == P.extFlagMatch

/-- R182: `msg_len` of the mode. -/
def msgLen (P : Params) (ext : Bool) : Nat := if ext then P.msgLenExt else P.msgLenStd

/-- R182: `par_off` of the mode. -/
def parOff (P : Params) (ext : Bool) : Nat := if ext then P.parOffExt else P.parOffStd

/-- R185: the message symbols of block `j`, with the zero padding. Every index is within the frame (20_memory.md
R60). -/
def gatherMessage (P : Params) (ext : Bool) (frame : List Byte) (j : Nat) : List Byte :=
  (List.range (msgLen P ext)).map (fun i => frame.getD (P.rsDepth * i + j) 0) ++
    List.replicate (P.rsK - msgLen P ext) 0

/-- R185: the parity symbols of block `j`. -/
def gatherParity (P : Params) (ext : Bool) (frame : List Byte) (j : Nat) : List Byte :=
  (List.range P.parPerCw).map (fun i => frame.getD (parOff P ext + P.parPerCw * j + i) 0)

/-- R184: the coefficients of the block's polynomial, from its parity and its message symbols. -/
def coefficients (P : Params) (par msg : List Byte) : List Byte :=
  match P.cwOrder with
  | .ascending => par ++ msg
  | .descending => par.reverse ++ msg.reverse

/-- R184: the message symbols of a word given by its coefficients. -/
def messageOf (P : Params) (c : List Byte) : List Byte :=
  match P.cwOrder with
  | .ascending => c.drop P.parPerCw
  | .descending => (c.drop P.parPerCw).reverse

/-- R184, R185: the word of block `j` as it stands in the frame. -/
def gatherBlock (P : Params) (ext : Bool) (frame : List Byte) (j : Nat) : List Byte :=
  coefficients P (gatherParity P ext frame j) (gatherMessage P ext frame j)

/-- R187 and R189: the message symbols of block `j`, corrected; `none` if the block is a failure, because no
codeword lies within `RS_T` or because the one that does is not zero in the padding. -/
def decodeBlock (P : Params) (ext : Bool) (frame : List Byte) (j : Nat) : Option (List Byte) :=
  match rsDecode P (gatherBlock P ext frame j) with
  | some c =>
    if ((messageOf P c).drop (msgLen P ext)).all (· == 0) then some (messageOf P c) else none
  | none => none

/-- R190: the `msg_len` message symbols of block `j` written where they were gathered from. -/
def writeBack (P : Params) (ext : Bool) (j : Nat) (msg frame : List Byte) : List Byte :=
  (List.range (msgLen P ext)).foldl (fun f i => f.set (P.rsDepth * i + j) (msg.getD i 0)) frame

/-- R186: one turn of the loop over the blocks: the frame and the flags so far, and then those with block `j`
processed. -/
def fecBlock (P : Params) (ext : Bool) (t : List Byte × List Bool) (j : Nat) : List Byte × List Bool :=
  match decodeBlock P ext t.1 j with
  | some msg => (writeBack P ext j msg t.1, t.2 ++ [false])
  | none => (t.1, t.2 ++ [true])

/-- R186: the blocks `j = 0, 1, …, RS_DEPTH − 1` of a frame, in this order: the frame afterwards, and
`FEC_INVALID`. -/
def fecBlocks (P : Params) (ext : Bool) (frame : List Byte) : List Byte × List Bool :=
  (List.range P.rsDepth).foldl (fecBlock P ext) (frame, [])

/-- R182: the mode of a frame, from its flag byte as received. -/
def frameMode (P : Params) (frame : List Byte) : Bool := isExtended P (frame.getD 0 0)

/-- `FEC.RUN` (R186): decode every block of the descrambled frame in place and flag the blocks that fail. -/
def execFecRun (s : State) : Out :=
  require "FEC.RUN" (s.running .fec && s.fbState == .descrambled) <|
    s.withFrame fun frame =>
      let ext := frameMode s.P frame
      let t := fecBlocks s.P ext frame
      .next { s with
        fb := Memory.ofBytes 0 t.1
        fecMode := ext
        fecInvalid := t.2
        fbState := .corrected }

/-- 45_control.md R223: the payload of a frame that `FR.READ` has returned, as the parser after the block takes it: the
data region and, in an extended frame, the extension region. No operation of the block computes it. -/
def framePayload (P : Params) (ext : Bool) (bytes : List Byte) : List Byte :=
  (bytes.drop 1).take (if ext then P.dataLen + P.extLen else P.dataLen)

/-- R193: a frame with the parity of each of its blocks stored by R185. No operation of the block computes it. -/
def encodeFrame (P : Params) (ext : Bool) (frame : List Byte) : List Byte :=
  (List.range P.rsDepth).foldl
    (fun f j =>
      let msg := gatherMessage P ext f j
      let par := match P.cwOrder with
        | .ascending => remainderByGenerator P msg
        | .descending => (remainderByGenerator P msg.reverse).reverse
      (List.range P.parPerCw).foldl
        (fun f i => f.set (parOff P ext + P.parPerCw * j + i) (par.getD i 0)) f)
    frame

end Sys2Proof.Machine
end

