-- ==== Sys2Proof/Machine/Operands.lean ====
section
/-! DEFINITION. The value of each operand form (30_encoding.md R95, R96). A `stage` operand is its own value, and a
frame block is its own value. -/

namespace Sys2Proof.Machine

/-- R95: the value of a `RAT` is the rational `num / den`. -/
def ratioValue (r : Ratio) : NUM := (r.num.toNat : NUM) / (r.den.toNat : NUM)

/-- R96: the value of an `SRAT` is `num / den`, the numerator in two's complement. -/
def sratioValue (r : SRatio) : NUM := (r.num.toInt : NUM) / (r.den.toNat : NUM)

/-- Run `k` on the value of an operand; a zero denominator is not a value, and the operation is refused (R95). -/
def withRatio (r : Ratio) (k : NUM → Out) : Out :=
  if r.den = 0 then .refused .zeroDenominator else k (ratioValue r)

/-- As `withRatio`, for a signed operand (R96). -/
def withSRatio (r : SRatio) (k : NUM → Out) : Out :=
  if r.den = 0 then .refused .zeroDenominator else k (sratioValue r)

end Sys2Proof.Machine
end

