-- ==== Sys2Proof/Machine/Slicer.lean ====
section
/-! DEFINITION. The front path but for TR: `IN.SAMPLE`, `SYM.PUSH`, `SL.STEP` and `BYTE.POP` (41_slicer.md;
45_control.md section 3). -/

namespace Sys2Proof.Machine

/-- `IN.SAMPLE` on a `NUM` operand (45_control.md R217). -/
def inSampleNum (v : NUM) (s : State) : Out :=
  require "IN.SAMPLE" (hasRoom s.chIn s.P.depthIn 1) (.next { s with chIn := push s.chIn v })

/-- `IN.SAMPLE v` (45_control.md R217). -/
def execInSample (v : SRatio) (s : State) : Out := withSRatio v fun x => inSampleNum x s

/-- `SYM.PUSH` on a `NUM` operand (45_control.md R218): only while TR is stopped. -/
def symPushNum (v : NUM) (s : State) : Out :=
  require "SYM.PUSH" (!s.running .tr && hasRoom s.chSym s.P.depthSym 1)
    (.next { s with chSym := push s.chSym v })

/-- `SYM.PUSH v` (45_control.md R218). -/
def execSymPush (v : SRatio) (s : State) : Out := withSRatio v fun x => symPushNum x s

/-- R142: the hard bit of a soft symbol, 1 iff it is not negative. -/
def hardBit (v : NUM) : Bool := decide (0 ≤ v)

/-- R141: the shift register after one more bit, the newest in bit 0. -/
def shiftBit (shreg : BitVec 8) (b : Bool) : BitVec 8 := (shreg <<< 1) ||| (BitVec.ofBool b).setWidth 8

/-- R141, after the `require` lines: the state one firing leads to from the soft symbol `v`, `rest` being the
symbols that stay in `CH_SYM`. -/
def State.afterSlStep (s : State) (v : NUM) (rest : List NUM) : State :=
  let shreg := shiftBit s.slShreg (hardBit v)
  { s with
    chSym := rest
    slShreg := shreg
    chByte := if s.slBitcnt = 7 then push s.chByte shreg else s.chByte
    slBitcnt := if s.slBitcnt = 7 then 0 else s.slBitcnt + 1 }

/-- `SL.STEP` (R141): consume one soft symbol, shift its hard bit in, emit the byte when it is full. -/
def execSlStep (s : State) : Out :=
  match s.chSym with
  | v :: rest =>
    require "SL.STEP" (s.running .sl && hasRoom s.chByte s.P.depthByte 1) (.next (s.afterSlStep v rest))
  | [] => .refused (.notEnabled "SL.STEP")

/-- `BYTE.POP` (45_control.md R219): return the oldest byte of `CH_BYTE`. -/
def execBytePop (s : State) : Out :=
  match s.chByte with
  | b :: rest => .next ({ s with chByte := rest }.returning (.byte b))
  | [] => .refused (.notEnabled "BYTE.POP")

end Sys2Proof.Machine
end

