-- ==== Sys2Proof/Machine/Timing.lean ====
section
/-! DEFINITION. Timing recovery: `TR.CFG` and `TR.STEP` (40_timing_recovery.md). -/

namespace Sys2Proof.Machine

/-! ### Configuration (R111 to R115) -/

/-- R111: `TR_L = max(1, ceil(os_target · r_nom))`. -/
def trPhases (rNom osTarget : NUM) : Nat := max 1 (osTarget * rNom).ceil.toNat

/-- R113: the denominator `d` of the loop gains. -/
def trGainDen (damp bw : NUM) : NUM := 1 + 2 * damp * bw + bw * bw

/-- R113: `TR_ALPHA`. -/
def trAlpha (damp bw : NUM) : NUM := 4 * damp * bw / trGainDen damp bw

/-- R113: `TR_BETA`. -/
def trBeta (damp bw : NUM) : NUM := 4 * bw * bw / trGainDen damp bw

/-- R115: the operands are acceptable. -/
def trCfgOk (rNom damp bw maxDev osTarget : NUM) : Bool :=
  let L : NUM := (trPhases rNom osTarget : Nat)
  decide (0 < rNom ∧ 0 ≤ damp ∧ 0 ≤ bw ∧ 0 ≤ maxDev ∧ 0 < osTarget ∧
    0 < rNom / L - maxDev / L ∧ rNom / L + maxDev / L ≤ 1 / 2)

/-- R111 to R115: the configuration registers an accepted `TR.CFG` writes. -/
def trConfigOf (P : Params) (rNom damp bw maxDev osTarget : NUM) : TrConfig :=
  let L := trPhases rNom osTarget
  { rNom, damp, bw, maxDev, osTarget
    l := L
    m := tapsWidth (P.tapsFn L)
    taps := P.tapsFn L
    freqNom := rNom / (L : NUM)
    dev := maxDev / (L : NUM)
    alpha := trAlpha damp bw
    beta := trBeta damp bw }

/-- R115: the loop restarted under a configuration: delay line and loop registers 0, `ADVANCE`, and the rate
estimate at its nominal value. -/
def State.configureTr (s : State) (cfg : TrConfig) : State :=
  { s with
    tr := .configured cfg cfg.freqNom
    trDl := List.replicate cfg.m 0
    trPhase := 0
    trYPrev := 0
    trYEarly := 0
    trYOntime := 0
    trFsm := .advance
    trErr := 0 }

/-- `TR.CFG` on `NUM` operands (R115). Rejected operands leave TR without a configuration and write nothing else
(DEDUCED, assumption 10). -/
def trCfgNum (rNom damp bw maxDev osTarget : NUM) (s : State) : Out :=
  require "TR.CFG" (!s.running .tr) <|
    if trCfgOk rNom damp bw maxDev osTarget then
      .next (s.configureTr (trConfigOf s.P rNom damp bw maxDev osTarget))
    else .next { s with tr := .unconfigured }

/-- `TR.CFG r_nom, damp, bw, maxdev, os_target` (R115), on operands of the trace encoding (30_encoding.md R95). -/
def execTrCfg (rNom damp bw maxDev osTarget : Ratio) (s : State) : Out :=
  withRatio rNom fun r => withRatio damp fun d => withRatio bw fun w =>
    withRatio maxDev fun v => withRatio osTarget fun o => trCfgNum r d w v o s

/-! ### One timeslot (R116 to R122) -/

/-- The registers a timeslot reads and writes, and the soft symbols pushed so far by this firing. -/
structure TrLoop where
  phase : NUM
  freq : NUM
  fsm : TrFsm
  yPrev : NUM
  yEarly : NUM
  yOntime : NUM
  err : NUM
  pushed : List NUM
  deriving DecidableEq, Repr

/-- R117: the interpolant, the dot product of one row of taps and the delay line. -/
def interpolant (row dl : List NUM) : NUM := (List.zipWith (· * ·) row dl).sum

/-- R11: `clamp(v, lo, hi) = min(max(v, lo), hi)`. -/
def clamp (v lo hi : NUM) : NUM := min (max v lo) hi

/-- R120: the timing-error statistic, `abs(early) − abs(late)`. -/
def timingError (early late : NUM) : NUM := |early| - |late|

/-- One iteration of R116's loop, for the interpolant `y` of its timeslot (R121 for the order in `STROBE`). -/
def timeslot (cfg : TrConfig) (y : NUM) (t : TrLoop) : TrLoop :=
  let phase := t.phase + t.freq
  match t.fsm with
  | .advance =>
    if 1 ≤ phase then
      { t with phase := phase - 1, yEarly := t.yPrev, yOntime := y, fsm := .strobe, yPrev := y }
    else { t with phase := phase, yPrev := y }
  | .strobe =>
    let e := timingError t.yEarly y
    { t with
      freq := clamp (t.freq + cfg.beta * e) (cfg.freqNom - cfg.dev) (cfg.freqNom + cfg.dev)
      phase := phase + cfg.alpha * e
      err := e
      pushed := push t.pushed t.yOntime
      fsm := .advance
      yPrev := y }

/-- R116: the timeslots `p = 0, 1, …, TR_L − 1` of one input sample, in this order. -/
def timeslots (cfg : TrConfig) (dl : List NUM) (t : TrLoop) : TrLoop :=
  (List.range cfg.l).foldl (fun t p => timeslot cfg (interpolant (cfg.taps.getD p []) dl) t) t

/-- R116: the delay line with a new sample shifted in. -/
def shiftIn (m : Nat) (x : NUM) (dl : List NUM) : List NUM := (x :: dl).take m

/-- The loop registers of a state, at the start of a firing. -/
def State.trLoop (s : State) (freq : NUM) : TrLoop :=
  { phase := s.trPhase, freq := freq, fsm := s.trFsm, yPrev := s.trYPrev, yEarly := s.trYEarly
    yOntime := s.trYOntime, err := s.trErr, pushed := [] }

/-- R118, R28: the most soft symbols one firing can push, `ceil(TR_L / 2)`. -/
def maxPush (l : Nat) : Nat := (l + 1) / 2

/-- R116, after the `require` lines: the state one firing leads to from the sample `x`, `rest` being the samples
that stay in `CH_IN`. -/
def State.afterTrStep (s : State) (cfg : TrConfig) (freq x : NUM) (rest : List NUM) : State :=
  let dl := shiftIn cfg.m x s.trDl
  let t := timeslots cfg dl (s.trLoop freq)
  { s with
    chIn := rest
    chSym := s.chSym ++ t.pushed
    tr := .configured cfg t.freq
    trDl := dl
    trPhase := t.phase
    trYPrev := t.yPrev
    trYEarly := t.yEarly
    trYOntime := t.yOntime
    trFsm := t.fsm
    trErr := t.err }

/-- `TR.STEP` (R116): consume one input sample, run `TR_L` timeslots, emit a soft symbol for each strobe. -/
def execTrStep (s : State) : Out :=
  match s.tr, s.chIn with
  | .configured cfg freq, x :: rest =>
    require "TR.STEP" (s.running .tr && hasRoom s.chSym s.P.depthSym (maxPush cfg.l))
      (.next (s.afterTrStep cfg freq x rest))
  | _, _ => .refused (.notEnabled "TR.STEP")

end Sys2Proof.Machine
end

