-- ==== Sys2Proof/Machine/Dispatch.lean ====
section
/-! DEFINITION. The meaning of every operation, one arm per constructor of `Instr` (30_encoding.md R88). -/

namespace Sys2Proof.Machine

def exec (i : Instr) (s : State) : Host.Outcome State Fault Refusal :=
  match i with
  | .reset => Sys2Proof.Machine.execReset s
  | .stageStart st => Sys2Proof.Machine.execStageStart st s
  | .stageStop st => Sys2Proof.Machine.execStageStop st s
  | .stRead => Sys2Proof.Machine.execStRead s
  | .trCfg rNom damp bw maxDev osTarget => Sys2Proof.Machine.execTrCfg rNom damp bw maxDev osTarget s
  | .inSample v => Sys2Proof.Machine.execInSample v s
  | .trStep => Sys2Proof.Machine.execTrStep s
  | .symPush v => Sys2Proof.Machine.execSymPush v s
  | .slStep => Sys2Proof.Machine.execSlStep s
  | .bytePop => Sys2Proof.Machine.execBytePop s
  | .frLoad blk => Sys2Proof.Machine.execFrLoad blk s
  | .dsRun => Sys2Proof.Machine.execDsRun s
  | .fecRun => Sys2Proof.Machine.execFecRun s
  | .frRead => Sys2Proof.Machine.execFrRead s

end Sys2Proof.Machine
end

