-- ==== Sys2Proof/WellFormed.lean ====
section
/-! DEFINITION. Which operation terms are operations: a denominator is not zero (30_encoding.md R95, R96) and a
frame block has `FRAME_LEN_MAX` bytes (R82, R91). A `stage` above 3 (R97) is no term at all. -/

namespace Sys2Proof

/-- R95: `den = 0` is not a value. -/
def Ratio.wellFormed (r : Ratio) : Bool := r.den != 0

/-- R96: `den = 0` is refused. -/
def SRatio.wellFormed (r : SRatio) : Bool := r.den != 0

/-- R82, R91: a frame block is `FRAME_LEN_MAX` bytes. -/
def blockWellFormed (P : Params) (blk : List Byte) : Bool := blk.length == P.frameLenMax

/-- The operations that have an encoding under the parameters `P`. -/
def Instr.wellFormed (P : Params) : Instr → Bool
  | .reset => true
  | .stageStart _ => true
  | .stageStop _ => true
  | .stRead => true
  | .trCfg rNom damp bw maxDev osTarget =>
    rNom.wellFormed && damp.wellFormed && bw.wellFormed && maxDev.wellFormed && osTarget.wellFormed
  | .inSample v => v.wellFormed
  | .trStep => true
  | .symPush v => v.wellFormed
  | .slStep => true
  | .bytePop => true
  | .frLoad blk => blockWellFormed P blk
  | .dsRun => true
  | .fecRun => true
  | .frRead => true

end Sys2Proof
end

