-- ==== Sys2Proof/Decode.lean ====
section
/-! DEFINITION. The trace encoding of operations (30_encoding.md sections 4 and 5): the decoder, total on any bytes,
and after it the encoder. -/

namespace Sys2Proof

/-- The names of the operations, without operands (R88). -/
inductive Op where
  | reset
  | stageStart
  | stageStop
  | stRead
  | trCfg
  | inSample
  | trStep
  | symPush
  | slStep
  | bytePop
  | frLoad
  | dsRun
  | fecRun
  | frRead
  deriving DecidableEq, Repr

/-- R88, column "op". -/
def Op.code : Op → Byte
  | .reset => 0x00
  | .stageStart => 0x01
  | .stageStop => 0x02
  | .stRead => 0x03
  | .trCfg => 0x10
  | .inSample => 0x11
  | .trStep => 0x12
  | .symPush => 0x20
  | .slStep => 0x21
  | .bytePop => 0x22
  | .frLoad => 0x30
  | .dsRun => 0x31
  | .fecRun => 0x32
  | .frRead => 0x33

/-- R88, the rows of the list in their order. -/
def Op.all : List Op :=
  [.reset, .stageStart, .stageStop, .stRead, .trCfg, .inSample, .trStep, .symPush, .slStep, .bytePop, .frLoad,
    .dsRun, .fecRun, .frRead]

/-- R98: the operation of an op code; every op code not in R88 is reserved. -/
def Op.ofCode (b : Byte) : Option Op := Op.all.find? (fun o => o.code == b)

/-- R91: the number of bytes after the op code, from the op code alone. -/
def Op.operandBytes (P : Params) : Op → Nat
  | .reset => 0
  | .stageStart => 1
  | .stageStop => 1
  | .stRead => 0
  | .trCfg => 20
  | .inSample => 4
  | .trStep => 0
  | .symPush => 4
  | .slStep => 0
  | .bytePop => 0
  | .frLoad => P.frameLenMax
  | .dsRun => 0
  | .fecRun => 0
  | .frRead => 0

/-- R91: the total length in bytes. -/
def Op.length (P : Params) (o : Op) : Nat := 1 + o.operandBytes P

/-! ### Decoding operands -/

/-- R68: a 16-bit operand, most significant byte first. -/
def word16 (hi lo : Byte) : BitVec 16 := hi ++ lo

/-- R95: a `RAT`; `den = 0` is refused. -/
def ratioOf (b0 b1 b2 b3 : Byte) : Option Ratio :=
  if word16 b2 b3 = 0 then none else some ⟨word16 b0 b1, word16 b2 b3⟩

/-- R96: an `SRAT`; `den = 0` is refused. -/
def sratioOf (b0 b1 b2 b3 : Byte) : Option SRatio :=
  if word16 b2 b3 = 0 then none else some ⟨word16 b0 b1, word16 b2 b3⟩

/-- R97: a `stage`; the values 4 to 255 are not a stage. -/
def stageOf (b : Byte) : Option Stage :=
  if b = 0 then some .tr else if b = 1 then some .sl else if b = 2 then some .ds
  else if b = 3 then some .fec else none

/-- Format S of R91. -/
def stageOperand : List Byte → Option Stage
  | [b] => stageOf b
  | _ => none

/-- Format V of R91. -/
def sampleOperand : List Byte → Option SRatio
  | [b0, b1, b2, b3] => sratioOf b0 b1 b2 b3
  | _ => none

/-- One `RAT` from the front of the operand bytes, with the bytes after it. -/
def takeRatio : List Byte → Option (Ratio × List Byte)
  | b0 :: b1 :: b2 :: b3 :: rest => (ratioOf b0 b1 b2 b3).map (·, rest)
  | _ => none

/-- Format C of R91: five `RAT` operands and nothing after them. -/
def configOperands (bs : List Byte) : Option Instr := do
  let (rNom, bs) ← takeRatio bs
  let (damp, bs) ← takeRatio bs
  let (bw, bs) ← takeRatio bs
  let (maxDev, bs) ← takeRatio bs
  let (osTarget, bs) ← takeRatio bs
  if bs.isEmpty then some (.trCfg rNom damp bw maxDev osTarget) else none

/-- The operation with the operand bytes given, whose number is that of the format. -/
def operands : Op → List Byte → Option Instr
  | .reset, _ => some .reset
  | .stageStart, bs => (stageOperand bs).map .stageStart
  | .stageStop, bs => (stageOperand bs).map .stageStop
  | .stRead, _ => some .stRead
  | .trCfg, bs => configOperands bs
  | .inSample, bs => (sampleOperand bs).map .inSample
  | .trStep, _ => some .trStep
  | .symPush, bs => (sampleOperand bs).map .symPush
  | .slStep, _ => some .slStep
  | .bytePop, _ => some .bytePop
  | .frLoad, bs => some (.frLoad bs)
  | .dsRun, _ => some .dsRun
  | .fecRun, _ => some .fecRun
  | .frRead, _ => some .frRead

/-! ### Decoding a trace -/

/-- The first operation of a byte string and the bytes after it; `none` (R98's `invalid`) on a reserved op code, an
operand that is refused, or a string that ends inside the operation. -/
def decodeFirst (P : Params) : List Byte → Option (Instr × List Byte)
  | [] => none
  | b :: bs =>
    match Op.ofCode b with
    | some o =>
      if bs.length < o.operandBytes P then none
      else (operands o (bs.take (o.operandBytes P))).map (·, bs.drop (o.operandBytes P))
    | none => none

/-- The operations of a byte string, for a number of them that is at most `fuel`. -/
def decodeUpTo (P : Params) : Nat → List Byte → Option (List Instr)
  | _, [] => some []
  | 0, _ :: _ => none
  | fuel + 1, b :: bs =>
    match decodeFirst P (b :: bs) with
    | some (i, rest) => (decodeUpTo P fuel rest).map (i :: ·)
    | none => none

/-- R90, R98: the operations of a trace, `none` if it is invalid. Every operation has at least one byte, so that a
trace has no more operations than bytes. -/
def decodeTrace (P : Params) (bs : List Byte) : Option (List Instr) := decodeUpTo P bs.length bs

/-! ### Encoding -/

/-- The name of an operation. -/
def Instr.op : Instr → Op
  | .reset => .reset
  | .stageStart _ => .stageStart
  | .stageStop _ => .stageStop
  | .stRead => .stRead
  | .trCfg _ _ _ _ _ => .trCfg
  | .inSample _ => .inSample
  | .trStep => .trStep
  | .symPush _ => .symPush
  | .slStep => .slStep
  | .bytePop => .bytePop
  | .frLoad _ => .frLoad
  | .dsRun => .dsRun
  | .fecRun => .fecRun
  | .frRead => .frRead

/-- R97. -/
def encodeStage : Stage → Byte
  | .tr => 0
  | .sl => 1
  | .ds => 2
  | .fec => 3

/-- R68: most significant byte first. -/
def encodeWord16 (w : BitVec 16) : List Byte := [w.extractLsb' 8 8, w.extractLsb' 0 8]

/-- R95. -/
def encodeRatio (r : Ratio) : List Byte := encodeWord16 r.num ++ encodeWord16 r.den

/-- R96. -/
def encodeSRatio (r : SRatio) : List Byte := encodeWord16 r.num ++ encodeWord16 r.den

/-- The operand bytes of an operation (R91). -/
def encodeOperands : Instr → List Byte
  | .reset => []
  | .stageStart st => [encodeStage st]
  | .stageStop st => [encodeStage st]
  | .stRead => []
  | .trCfg rNom damp bw maxDev osTarget =>
    encodeRatio rNom ++ encodeRatio damp ++ encodeRatio bw ++ encodeRatio maxDev ++ encodeRatio osTarget
  | .inSample v => encodeSRatio v
  | .trStep => []
  | .symPush v => encodeSRatio v
  | .slStep => []
  | .bytePop => []
  | .frLoad blk => blk
  | .dsRun => []
  | .fecRun => []
  | .frRead => []

/-- The bytes of an operation (R90, R91). -/
def encode (i : Instr) : List Byte := i.op.code :: encodeOperands i

/-- The bytes of a trace (R90). -/
def encodeTrace (is : List Instr) : List Byte := is.flatMap encode

/-! ### The host's words -/

/-- The longest operation, in bytes: `FR.LOAD` (R91), or `TR.CFG` where frames are shorter than 20 bytes. -/
def longestOp (P : Params) : Nat := 1 + max P.frameLenMax 20

/-- Byte `0, 1, …, n − 1` of a word whose bit 0 is the least significant bit of the first byte. -/
def wordBytes (n w : Nat) : List Byte := (List.range n).map (fun k => BitVec.ofNat 8 (w >>> (8 * k)))

/-- The bytes of the operation whose first `nbits` bits are `w`, every bit above them 0: as many bytes as its op
code says (R91), and one byte where that is reserved. -/
def tableBytes (P : Params) (nbits w : Nat) : List Byte :=
  let bytes := wordBytes (longestOp P) (w % 2 ^ nbits)
  match bytes with
  | [] => []
  | b :: _ =>
    match Op.ofCode b with
    | some o => bytes.take (o.length P)
    | none => [b]

/-- The operation the decoder reads from a word of the opcode table, under the default parameters. -/
def decodeTableWord (nbits w : Nat) : Option Instr :=
  match decodeFirst Config.parameters.val (tableBytes Config.parameters.val nbits w) with
  | some (i, []) => some i
  | some (_, _ :: _) => none
  | none => none

end Sys2Proof
end

