-- ==== Sys2Proof/Machine/Fetch.lean ====
section
/-! DEFINITION. Taking the next operation from the trace (30_encoding.md R90, R98), and placing one there. -/

namespace Sys2Proof.Machine

/-- What the trace says happens next. -/
inductive Next where
  /-- The trace lists no operation: nothing happens. -/
  | idle
  /-- The trace is not the encoding of a sequence of operations (R98). -/
  | invalid
  /-- The next operation, and the bytes of those after it. -/
  | op (i : Instr) (rest : List Byte)
  deriving DecidableEq, Repr

/-- R90, R98: the next operation of a trace. A trace is invalid as a whole: its first operation is not given unless
the bytes after it are a trace too. -/
def nextOp (P : Params) (trace : List Byte) : Next :=
  match trace with
  | [] => .idle
  | b :: bs =>
    match decodeFirst P (b :: bs) with
    | some (i, rest) => if (decodeTrace P rest).isSome then .op i rest else .invalid
    | none => .invalid

/-- A state whose trace is the given bytes: the host's schedule, written down (R90). -/
def State.withTrace (s : State) (bytes : List Byte) : State := { s with trace := bytes }

end Sys2Proof.Machine
end

