-- ==== Sys2Proof/Machine/Step.lean ====
section
/-! DEFINITION. One step of the machine: the next operation of the trace happens. -/

namespace Sys2Proof.Machine

/-- One step. The trace says which agent's operation happens next (30_encoding.md R90; 20_memory.md R74). With no
operation listed nothing happens: every agent waits (45_control.md R211; DESIGN CHOICE, assumption 7). An invalid
trace is refused before any of its operations happens (30_encoding.md R98). -/
def step (s : State) : Host.Outcome State Fault Refusal :=
  match nextOp s.P s.trace with
  | .idle => .next s
  | .invalid => .refused .invalidTrace
  | .op i rest => exec i (s.withTrace rest)

/-- `s` with the operation of a word of the opcode table as its whole trace. -/
def State.withFetchWord (s : State) (nbits w : Nat) : State := s.withTrace (tableBytes s.P nbits w)

end Sys2Proof.Machine
end

