-- ==== Sys2Proof/Machine/Pseudo.lean ====
section
/-! DEFINITION. The pseudo-operations (30_encoding.md R101): each abbreviates a sequence of operations, and an
encoded trace holds that sequence. -/

namespace Sys2Proof.Machine

/-- R101, first column. -/
inductive Pseudo where
  /-- `FRAME.PROCESS blk`. -/
  | frameProcess (blk : List Byte)
  /-- `START.ALL`. -/
  | startAll
  /-- `STOP.ALL`. -/
  | stopAll
  /-- `FEED v`. -/
  | feed (v : SRatio)
  /-- `DRAIN.SL`. -/
  | drainSl
  deriving DecidableEq, Repr

/-- `SL.STEP` repeated while `CH_SYM` is not empty and `SL.STEP` is enabled, at most `fuel` times. -/
def drainSteps : Nat → State → List Instr
  | 0, _ => []
  | fuel + 1, s =>
    match execSlStep s with
    | .next t => .slStep :: drainSteps fuel t
    | .fault _ => []
    | .refused _ => []

/-- R101, second column. `DRAIN.SL` has a state-dependent length: the state is the one it is met in. -/
def Pseudo.expand (s : State) : Pseudo → List Instr
  | .frameProcess blk => [.frLoad blk, .dsRun, .fecRun, .frRead]
  | .startAll => [.stageStart .tr, .stageStart .sl, .stageStart .ds, .stageStart .fec]
  | .stopAll => [.stageStop .tr, .stageStop .sl, .stageStop .ds, .stageStop .fec]
  | .feed v => [.inSample v, .trStep]
  | .drainSl => drainSteps s.chSym.length s

end Sys2Proof.Machine
end

