-- ==== Sys2Proof/Safety.lean ====
section
/-! DEFINITION. The terms that claims are stated in: when an operation is enabled (45_control.md R211), quiescence
(70_reset_and_hazards.md R270), the invariant of the reachable states, and a schedule of operations. -/

namespace Sys2Proof.Machine

/-- TR is configured and `CH_SYM` has the `ceil(TR_L / 2)` free places of R28. -/
def State.trReady (s : State) : Bool :=
  match s.tr with
  | .configured cfg _ => hasRoom s.chSym s.P.depthSym (maxPush cfg.l)
  | .unconfigured => false

/-- The `require` lines of each operation (R212 to R221, R115, R116, R141, R152, R186). -/
def enabled (i : Instr) (s : State) : Bool :=
  match i with
  | .reset => true
  | .stageStart _ => true
  | .stageStop _ => true
  | .stRead => true
  | .trCfg _ _ _ _ _ => !s.running .tr
  | .inSample _ => hasRoom s.chIn s.P.depthIn 1
  | .trStep => s.running .tr && s.trReady && !s.chIn.isEmpty
  | .symPush _ => !s.running .tr && hasRoom s.chSym s.P.depthSym 1
  | .slStep => s.running .sl && !s.chSym.isEmpty && hasRoom s.chByte s.P.depthByte 1
  | .bytePop => !s.chByte.isEmpty
  | .frLoad _ => s.fbState == .empty
  | .dsRun => s.running .ds && s.fbState == .loaded
  | .fecRun => s.running .fec && s.fbState == .descrambled
  | .frRead => s.fbState == .corrected

/-- The mnemonic of an operation (30_encoding.md R88). -/
def mnemonic (i : Instr) : String :=
  match i with
  | .reset => "RESET"
  | .stageStart _ => "STAGE.START"
  | .stageStop _ => "STAGE.STOP"
  | .stRead => "ST.READ"
  | .trCfg _ _ _ _ _ => "TR.CFG"
  | .inSample _ => "IN.SAMPLE"
  | .trStep => "TR.STEP"
  | .symPush _ => "SYM.PUSH"
  | .slStep => "SL.STEP"
  | .bytePop => "BYTE.POP"
  | .frLoad _ => "FR.LOAD"
  | .dsRun => "DS.RUN"
  | .fecRun => "FEC.RUN"
  | .frRead => "FR.READ"

/-- The four firings (30_encoding.md R89), each of its own stage. -/
def firings : List Instr := [.trStep, .slStep, .dsRun, .fecRun]

/-- R270: no stage firing is enabled. -/
def quiescent (s : State) : Bool := firings.all (fun i => !enabled i s)

/-! ### The invariant -/

/-- The frame buffer holds one value for each of its addresses and no other (10_state.md R44). -/
abbrev State.FrameWritten (s : State) : Prop := s.fb.map Prod.fst = List.range s.P.frameLenMax

/-- The registers of TR, once configured, are those R111 to R115 derive from the five operands, which were
accepted; the rate estimate is within its clamp (R34, R119); the delay line has `TR_M` samples (R32). -/
def State.TrInv (s : State) : Prop :=
  match s.tr with
  | .unconfigured => True
  | .configured cfg freq =>
    trCfgOk cfg.rNom cfg.damp cfg.bw cfg.maxDev cfg.osTarget = true ∧
      cfg = trConfigOf s.P cfg.rNom cfg.damp cfg.bw cfg.maxDev cfg.osTarget ∧
      cfg.freqNom - cfg.dev ≤ freq ∧ freq ≤ cfg.freqNom + cfg.dev ∧ s.trDl.length = cfg.m

/-- What holds in every reachable state. -/
structure State.Inv (s : State) : Prop where
  /-- R28: no channel holds more than its capacity. -/
  chIn_le : s.chIn.length ≤ s.P.depthIn
  chSym_le : s.chSym.length ≤ s.P.depthSym
  chByte_le : s.chByte.length ≤ s.P.depthByte
  /-- R31, R32, R34, R119. -/
  tr : s.TrInv
  /-- The frame buffer's memory is in canonical form, and no address at or above `FRAME_LEN_MAX` exists (R60). -/
  fb_wf : s.fb.wf
  fb_bound : ∀ a b, s.fb.read a = some b → a < s.P.frameLenMax
  /-- R44: every reader finds the frame buffer written. -/
  fb_written : s.fbState ≠ .empty → s.FrameWritten
  /-- R50: one flag per codeword. -/
  fecInvalid_length : s.fecInvalid.length = s.P.rsDepth
  /-- R50, R51: the flags are clear from `FR.LOAD` until `FEC.RUN`. -/
  fec_clear : s.fbState = .loaded ∨ s.fbState = .descrambled →
    s.fecInvalid = List.replicate s.P.rsDepth false ∧ s.fecMode = false

/-! ### Reset -/

/-- The values of 10_state.md R58. What R58 calls unspecified holds no value: TR is unconfigured, and no address of
the frame buffer is listed. -/
structure State.AtReset (s : State) : Prop where
  chIn : s.chIn = []
  chSym : s.chSym = []
  chByte : s.chByte = []
  ctrl : s.ctrl = 0
  tr : s.tr = .unconfigured
  trDl : ∀ x ∈ s.trDl, x = 0
  trPhase : s.trPhase = 0
  trYPrev : s.trYPrev = 0
  trYEarly : s.trYEarly = 0
  trYOntime : s.trYOntime = 0
  trErr : s.trErr = 0
  trFsm : s.trFsm = .advance
  slShreg : s.slShreg = 0
  slBitcnt : s.slBitcnt = 0
  fb : ∀ a, s.fb.read a = none
  fbState : s.fbState = .empty
  fecInvalid_length : s.fecInvalid.length = s.P.rsDepth
  fecInvalid : ∀ j, s.invalid j = false
  fecMode : s.fecMode = false

/-! ### The two data paths (10_state.md R21) -/

/-- The operations of the front path: those that move samples, soft symbols and bytes, and the one that configures
TR. -/
def isFront : Instr → Bool
  | .trCfg _ _ _ _ _ => true
  | .inSample _ => true
  | .trStep => true
  | .symPush _ => true
  | .slStep => true
  | .bytePop => true
  | .reset | .stageStart _ | .stageStop _ | .stRead | .frLoad _ | .dsRun | .fecRun | .frRead => false

/-- The operations of the back path: those that move and change frame blocks. -/
def isBack : Instr → Bool
  | .frLoad _ => true
  | .dsRun => true
  | .fecRun => true
  | .frRead => true
  | .reset | .stageStart _ | .stageStop _ | .stRead | .trCfg _ _ _ _ _ | .inSample _ | .trStep
  | .symPush _ | .slStep | .bytePop => false

/-- `s` with the back path's state of `b`. -/
def State.withBack (s b : State) : State :=
  { s with fb := b.fb, fbState := b.fbState, fecInvalid := b.fecInvalid, fecMode := b.fecMode }

/-- `s` with the front path's state of `f`. -/
def State.withFront (s f : State) : State :=
  { s with
    chIn := f.chIn, chSym := f.chSym, chByte := f.chByte, tr := f.tr, trDl := f.trDl, trPhase := f.trPhase
    trYPrev := f.trYPrev, trYEarly := f.trYEarly, trYOntime := f.trYOntime, trFsm := f.trFsm
    trErr := f.trErr, slShreg := f.slShreg, slBitcnt := f.slBitcnt }

/-- An outcome with its next state changed. -/
def mapNext (f : State → State) : Out → Out
  | .next t => .next (f t)
  | .fault r => .fault r
  | .refused r => .refused r

/-! ### The code (44_fec.md section 2) -/

/-- R184: a word is a codeword iff its polynomial is zero at every root. -/
abbrev Codeword (P : Params) (c : List Byte) : Prop :=
  c.length = P.rsN ∧ ∀ r < 2 * P.rsT, peval P.rsFieldPoly c (root P r) = 0

/-- R187: the number of coefficient positions at which two words differ. -/
def symbolErrors (c c' : List Byte) : Nat := (List.zip c c').countP (fun e => e.1 != e.2)

/-- R187, R189: block `j` of a frame can be corrected, and `msg` are its corrected message symbols: a codeword within
`RS_T` symbol errors that is zero in the padding. -/
def Corrects (P : Params) (ext : Bool) (frame : List Byte) (j : Nat) (msg : List Byte) : Prop :=
  ∃ c, Codeword P c ∧ symbolErrors (gatherBlock P ext frame j) c ≤ P.rsT ∧ msg = messageOf P c ∧
    ∀ i, msgLen P ext ≤ i → i < P.rsK → msg.getD i 0 = 0

/-! ### Invalid traces (30_encoding.md R98) -/

/-- Bytes that no operation begins: a reserved op code, a `stage` above 3, a zero denominator, or an operation cut
off. -/
def BadStart (P : Params) (bs : List Byte) : Prop :=
  (∃ b r, bs = b :: r ∧ (0x04 ≤ b.toNat ∧ b.toNat ≤ 0x0F ∨ 0x13 ≤ b.toNat ∧ b.toNat ≤ 0x1F ∨
    0x23 ≤ b.toNat ∧ b.toNat ≤ 0x2F ∨ 0x34 ≤ b.toNat)) ∨
  (∃ o b r, bs = o :: b :: r ∧ (o = 0x01 ∨ o = 0x02) ∧ 4 ≤ b.toNat) ∨
  (∃ o b0 b1 r, bs = o :: b0 :: b1 :: 0 :: 0 :: r ∧ (o = 0x11 ∨ o = 0x20)) ∨
  (∃ before b0 b1 r, bs = 0x10 :: (before ++ b0 :: b1 :: 0 :: 0 :: r) ∧
    ∃ k < 5, before.length = 4 * k) ∨
  (∃ o r n, bs = o :: r ∧ r.length < n ∧
    (o = 0x01 ∧ n = 1 ∨ o = 0x02 ∧ n = 1 ∨ o = 0x10 ∧ n = 20 ∨ o = 0x11 ∧ n = 4 ∨ o = 0x20 ∧ n = 4 ∨
      o = 0x30 ∧ n = P.frameLenMax))

/-! ### Schedules -/

/-- The operations of a schedule, one after the other, as long as each has a step. -/
def execAll : List Instr → State → Out
  | [], s => .next s
  | i :: is, s =>
    match exec i s with
    | .next t => execAll is t
    | .fault f => .fault f
    | .refused r => .refused r

end Sys2Proof.Machine
end

