-- ==== Sys2Proof/Certificates/Slice0/Obligations.lean ====
section
/-! DEFINITION. What the model is claimed to do: the statements to be proved. -/

open Sys2Proof Sys2Proof.Machine

/-! ## The trace encoding -/

/-- 30_encoding.md R91, with R88 for the op codes: the bytes of every operation, one by one. A 16-bit operand is its
high byte, then its low byte. -/
def Obligations.EncodingBytes : Prop :=
  let hi (w : BitVec 16) : Byte := BitVec.ofNat 8 (w.toNat / 256)
  let lo (w : BitVec 16) : Byte := BitVec.ofNat 8 (w.toNat % 256)
  let rat (r : Ratio) : List Byte := [hi r.num, lo r.num, hi r.den, lo r.den]
  let srat (r : SRatio) : List Byte := [hi r.num, lo r.num, hi r.den, lo r.den]
  encode .reset = [0x00] ∧ encode .stRead = [0x03] ∧ encode .trStep = [0x12] ∧ encode .slStep = [0x21] ∧
  encode .bytePop = [0x22] ∧ encode .dsRun = [0x31] ∧ encode .fecRun = [0x32] ∧ encode .frRead = [0x33] ∧
  encode (.stageStart .tr) = [0x01, 0] ∧ encode (.stageStart .sl) = [0x01, 1] ∧
  encode (.stageStart .ds) = [0x01, 2] ∧ encode (.stageStart .fec) = [0x01, 3] ∧
  encode (.stageStop .tr) = [0x02, 0] ∧ encode (.stageStop .sl) = [0x02, 1] ∧
  encode (.stageStop .ds) = [0x02, 2] ∧ encode (.stageStop .fec) = [0x02, 3] ∧
  (∀ v, encode (.inSample v) = 0x11 :: srat v) ∧ (∀ v, encode (.symPush v) = 0x20 :: srat v) ∧
  (∀ r d w v o, encode (.trCfg r d w v o) = 0x10 :: (rat r ++ rat d ++ rat w ++ rat v ++ rat o)) ∧
  (∀ blk, encode (.frLoad blk) = 0x30 :: blk)

/-- 30_encoding.md R95, R96: the value of an operand is `num / den`, the numerator of an `SRAT` in two's complement;
equal fractions are equal values, whatever their terms. -/
def Obligations.OperandValues : Prop :=
  (∀ r : Ratio, r.den ≠ 0 → ratioValue r * (r.den.toNat : NUM) = (r.num.toNat : NUM)) ∧
  (∀ r : SRatio, r.den ≠ 0 → sratioValue r * (r.den.toNat : NUM) =
    ((if r.num.toNat < 32768 then (r.num.toNat : Int) else (r.num.toNat : Int) - 65536) : Int))

/-- Decode and encode agree: the first operation of a string that begins with the encoding of a well-formed operation
is that operation, and what follows is what followed. -/
def Obligations.DecodeOfEncode : Prop :=
  ∀ (P : Params) (i : Instr) (rest : List Byte), i.wellFormed P = true →
    decodeFirst P (encode i ++ rest) = some (i, rest)

/-- Every operation decoded is well formed, and the bytes it was decoded from are its encoding: no two byte strings
are encodings of one operation. -/
def Obligations.EncodeOfDecode : Prop :=
  ∀ (P : Params) (bs rest : List Byte) (i : Instr), decodeFirst P bs = some (i, rest) →
    i.wellFormed P = true ∧ bs = encode i ++ rest

/-- 30_encoding.md R90: a byte string is the trace of a sequence of operations iff it is their encodings in order. -/
def Obligations.TraceIsOperationsInOrder : Prop :=
  ∀ (P : Params) (bs : List Byte) (is : List Instr),
    decodeTrace P bs = some is ↔ (bs = is.flatMap encode ∧ ∀ i ∈ is, i.wellFormed P = true)

/-- 30_encoding.md R98: a reserved op code, a `stage` above 3, a zero denominator or an operation cut off makes a
trace invalid wherever it stands, and a step refuses the trace as a whole, the operations before it included. -/
def Obligations.InvalidTraceRefused : Prop :=
  (∀ (P : Params) (is : List Instr) (bs : List Byte), (∀ i ∈ is, i.wellFormed P = true) → BadStart P bs →
    decodeTrace P (is.flatMap encode ++ bs) = none) ∧
  (∀ s : State, decodeTrace s.P s.trace = none → step s = .refused .invalidTrace)

/-- Words written out from the spec (95_test_vectors.md 2.6): a sanity check of the decoder. -/
def Obligations.KnownWordsDecode : Prop :=
  decodeTableWord 8 0x12 = some .trStep ∧
  decodeTableWord 16 0x0302 = some (.stageStop .fec) ∧
  decodeTableWord 40 0x0400030020 = some (.symPush ⟨3, 4⟩) ∧
  decodeTableWord 40 0x0200FFFF11 = some (.inSample ⟨0xFFFF, 2⟩) ∧
  decodeTableWord 40 0x0000010011 = none ∧
  decodeTableWord 8 0x04 = none

/-! ## The step -/

/-- A step runs the decoded operation: if the trace begins with a well-formed operation `i` and the bytes after it are
a trace too, the step is `exec i` with those bytes as the trace; with no operation listed nothing happens (the model's
choice, assumption 7). -/
def Obligations.StepRunsDecodedOperation : Prop :=
  (∀ (s : State) (i : Instr) (rest : List Byte), i.wellFormed s.P = true → s.trace = encode i ++ rest →
    (decodeTrace s.P rest).isSome = true → step s = exec i { s with trace := rest }) ∧
  (∀ s : State, s.trace = [] → step s = .next s)

/-- A run over the trace of a schedule is the schedule: each operation in turn, and the first one that has no step
refuses the run (45_control.md R211). -/
def Obligations.RunOfTraceIsSchedule : Prop :=
  ∀ (s : State) (is : List Instr), (∀ i ∈ is, i.wellFormed s.P = true) →
    Host.Core.run Sys2Proof.core is.length { s with trace := is.flatMap encode } =
      execAll is { s with trace := [] }

/-- 45_control.md R211: an operation has a step exactly where its `require` lines hold. That a model refuses it
elsewhere, by its mnemonic, is 93_implementation_defined.md I10. -/
def Obligations.EnabledExactly : Prop :=
  ∀ (s : State) (i : Instr), i.wellFormed s.P = true → (s.fbState ≠ .empty → s.FrameWritten) →
    (enabled i s = true → ∃ t, exec i s = .next t) ∧
    (enabled i s = false → exec i s = .refused (.notEnabled (mnemonic i)))

/-! ## Reset, start, stop, status -/

/-- 70_reset_and_hazards.md R260: the state after power-on is the one the command `RESET` leads to, but for the trace
and the results, which are the model's own (assumptions 7, 8). `State.reset` is it, with the record of parameters that
the model chose: the defaults of R7 where it gives one (assumption 12) and the capacities of the channels, for which
R7 and R28 give none (assumption 3). That what R58 calls unspecified holds no value is assumptions 5, 6 and 11. -/
def Obligations.PowerOnState : Prop :=
  (∀ s : State, exec .reset s = .next { State.powerOn s.params with trace := s.trace, results := s.results }) ∧
  State.reset.AtReset ∧ State.reset.P = Params.rs41 ∧ State.reset.trace = [] ∧ State.reset.results = []

/-- 10_state.md R58, 45_control.md R212: after `RESET`, which happens in every state, and after power-on, every piece of
state has the value of R58, and the parameters are not affected. That TR is unconfigured, that the frame buffer lists
no address, and that the delay line has no element before `TR_M` has a value is how the model holds what R58 calls
unspecified (assumptions 5, 6, 11); that `RESET` keeps the trace and the results is the model's choice (assumptions 7,
8). -/
def Obligations.ResetOperation : Prop :=
  (∀ p : Parameters, (State.powerOn p).AtReset) ∧ encode .reset = [0x00] ∧
  ∀ s : State, ∃ t, exec .reset s = .next t ∧ t.AtReset ∧ t.params = s.params ∧ t.trace = s.trace ∧
    t.results = s.results

/-- 45_control.md R213: `STAGE.START st` happens in every state; it sets the run bit of `st` and changes nothing
else. -/
def Obligations.StageStartSetsRunBit : Prop :=
  ∀ (s : State) (st : Stage),
    let n : Nat := match st with | .tr => 0 | .sl => 1 | .ds => 2 | .fec => 3
    encode (.stageStart st) = [0x01, BitVec.ofNat 8 n] ∧
    ∃ c : BitVec 4, exec (.stageStart st) s = .next { s with ctrl := c } ∧
      ∀ k < 4, c.getLsbD k = (decide (k = n) || s.ctrl.getLsbD k)

/-- 45_control.md R214: `STAGE.STOP st` happens in every state; it clears the run bit of `st` and changes nothing
else. -/
def Obligations.StageStopClearsRunBit : Prop :=
  ∀ (s : State) (st : Stage),
    let n : Nat := match st with | .tr => 0 | .sl => 1 | .ds => 2 | .fec => 3
    encode (.stageStop st) = [0x02, BitVec.ofNat 8 n] ∧
    ∃ c : BitVec 4, exec (.stageStop st) s = .next { s with ctrl := c } ∧
      ∀ k < 4, c.getLsbD k = (!decide (k = n) && s.ctrl.getLsbD k)

/-- 45_control.md R215 and 10_state.md R55: `ST.READ` happens in every state, returns the `STATUS` view, bit by bit,
and changes no state. -/
def Obligations.StatusView : Prop :=
  encode .stRead = [0x03] ∧
  ∀ s : State, ∃ w : BitVec 16, exec .stRead s = .next { s with results := s.results ++ [.status w] } ∧
    w.getLsbD 0 = s.running .tr ∧ w.getLsbD 1 = s.running .sl ∧ w.getLsbD 2 = s.running .ds ∧
    w.getLsbD 3 = s.running .fec ∧
    (w.getLsbD 4 = true ↔ ∃ cfg freq, s.tr = .configured cfg freq) ∧
    w.getLsbD 5 = decide (s.trFsm = .strobe) ∧
    w.extractLsb' 6 2 = (match s.fbState with | .empty => 0 | .loaded => 1 | .descrambled => 2 | .corrected => 3) ∧
    w.getLsbD 8 = s.fecMode ∧ (w.getLsbD 9 = true ↔ true ∈ s.fecInvalid) ∧
    w.getLsbD 10 = s.fecInvalid.getD 0 false ∧ w.getLsbD 11 = s.fecInvalid.getD 1 false ∧
    w.extractLsb' 12 3 = s.slBitcnt ∧ w.getLsbD 15 = false

/-! ## Timing recovery -/

/-- 40_timing_recovery.md R111: `TR_L` is the fewest phases, at least one, that reach the oversampling target. -/
def Obligations.PhasesAreFewest : Prop :=
  ∀ r o : NUM, 1 ≤ trPhases r o ∧ o * r ≤ (trPhases r o : NUM) ∧
    ∀ n : Nat, 1 ≤ n → o * r ≤ (n : NUM) → trPhases r o ≤ n

/-- 40_timing_recovery.md R115, with R111 to R114: an acceptable `TR.CFG` with TR stopped writes the operands, the
registers derived from them and the restarted loop, and nothing else. -/
def Obligations.TrCfgAccepted : Prop :=
  ∀ (s : State) (r d w v o : Ratio), r.den ≠ 0 → d.den ≠ 0 → w.den ≠ 0 → v.den ≠ 0 → o.den ≠ 0 →
    s.running .tr = false →
    let rn := ratioValue r; let ze := ratioValue d; let bw := ratioValue w
    let mx := ratioValue v; let os := ratioValue o
    let L : Nat := max 1 (os * rn).ceil.toNat
    0 < rn → 0 ≤ ze → 0 ≤ bw → 0 ≤ mx → 0 < os →
    0 < rn / (L : NUM) - mx / (L : NUM) → rn / (L : NUM) + mx / (L : NUM) ≤ 1 / 2 →
    exec (.trCfg r d w v o) s = .next { s with
      tr := .configured
        { rNom := rn, damp := ze, bw := bw, maxDev := mx, osTarget := os, l := L
          m := tapsWidth (s.P.tapsFn L), taps := s.P.tapsFn L
          freqNom := rn / (L : NUM), dev := mx / (L : NUM)
          alpha := 4 * ze * bw / (1 + 2 * ze * bw + bw * bw)
          beta := 4 * bw * bw / (1 + 2 * ze * bw + bw * bw) } (rn / (L : NUM))
      trDl := List.replicate (tapsWidth (s.P.tapsFn L)) 0
      trPhase := 0, trFsm := .advance, trYPrev := 0, trYEarly := 0, trYOntime := 0, trErr := 0 }

/-- 40_timing_recovery.md R115: operands that fail the test leave TR unconfigured. That the loop registers, `TR_FSM`
among them, keep their values is the model's reading (assumption 10). -/
def Obligations.TrCfgRejected : Prop :=
  ∀ (s : State) (r d w v o : Ratio), r.den ≠ 0 → d.den ≠ 0 → w.den ≠ 0 → v.den ≠ 0 → o.den ≠ 0 →
    s.running .tr = false →
    let rn := ratioValue r; let ze := ratioValue d; let bw := ratioValue w
    let mx := ratioValue v; let os := ratioValue o
    let L : Nat := max 1 (os * rn).ceil.toNat
    ¬ (0 < rn ∧ 0 ≤ ze ∧ 0 ≤ bw ∧ 0 ≤ mx ∧ 0 < os ∧
      0 < rn / (L : NUM) - mx / (L : NUM) ∧ rn / (L : NUM) + mx / (L : NUM) ≤ 1 / 2) →
    exec (.trCfg r d w v o) s = .next { s with tr := .unconfigured }

/-- 40_timing_recovery.md R116: where it is enabled, `TR.STEP` consumes the oldest sample, runs the timeslots
`0 … TR_L − 1` from the loop registers as they stand, pushes the soft symbols of their strobes, and changes nothing
else. -/
def Obligations.TrStepResult : Prop :=
  ∀ (s : State) (cfg : TrConfig) (freq x : NUM) (rest : List NUM), s.running .tr = true →
    s.tr = .configured cfg freq → s.chIn = x :: rest → s.chSym.length + (cfg.l + 1) / 2 ≤ s.P.depthSym →
    let dl := (x :: s.trDl).take cfg.m
    let u := (List.range cfg.l).foldl (fun t p => timeslot cfg (interpolant (cfg.taps.getD p []) dl) t)
      { phase := s.trPhase, freq := freq, fsm := s.trFsm, yPrev := s.trYPrev, yEarly := s.trYEarly
        yOntime := s.trYOntime, err := s.trErr, pushed := [] }
    exec .trStep s = .next { s with
      chIn := rest, chSym := s.chSym ++ u.pushed, tr := .configured cfg u.freq, trDl := dl
      trPhase := u.phase, trYPrev := u.yPrev, trYEarly := u.yEarly, trYOntime := u.yOntime
      trFsm := u.fsm, trErr := u.err }

/-- 40_timing_recovery.md R116, R120, R121: the three cases of one timeslot. -/
def Obligations.TimeslotCases : Prop :=
  ∀ (cfg : TrConfig) (y : NUM) (t : TrLoop),
    let e := |t.yEarly| - |y|
    (t.fsm = .advance → t.phase + t.freq < 1 →
      timeslot cfg y t = { t with phase := t.phase + t.freq, yPrev := y }) ∧
    (t.fsm = .advance → 1 ≤ t.phase + t.freq →
      timeslot cfg y t = { t with
        phase := t.phase + t.freq - 1, yEarly := t.yPrev, yOntime := y, fsm := .strobe, yPrev := y }) ∧
    (t.fsm = .strobe →
      timeslot cfg y t = { t with
        freq := min (max (t.freq + cfg.beta * e) (cfg.freqNom - cfg.dev)) (cfg.freqNom + cfg.dev)
        phase := t.phase + t.freq + cfg.alpha * e, err := e, pushed := t.pushed ++ [t.yOntime]
        fsm := .advance, yPrev := y })

/-- 40_timing_recovery.md R117: the interpolant is the sum of tap times sample, and with the default taps it is the
straight line between two samples, reproducing the older one in timeslot 0. -/
def Obligations.InterpolantIsStraightLine : Prop :=
  (∀ (m : Nat) (row dl : List NUM), row.length = m → dl.length = m →
    interpolant row dl = ∑ k ∈ Finset.range m, row.getD k 0 * dl.getD k 0) ∧
  (∀ (L p : Nat) (x0 x1 : NUM), p < L →
    interpolant ((linearTaps L).getD p []) [x0, x1] = (p : NUM) / L * x0 + (1 - (p : NUM) / L) * x1) ∧
  (∀ (L : Nat) (x0 x1 : NUM), 0 < L → interpolant ((linearTaps L).getD 0 []) [x0, x1] = x1)

/-- 40_timing_recovery.md R122: the timeslot after a boundary pushes the interpolant latched at the boundary,
unchanged, and no other timeslot pushes anything. -/
def Obligations.BoundaryEmitsOnTimeSample : Prop :=
  ∀ (cfg : TrConfig) (y z : NUM) (t : TrLoop), t.fsm = .advance →
    (1 ≤ t.phase + t.freq →
      (timeslot cfg y t).pushed = t.pushed ∧
      (timeslot cfg z (timeslot cfg y t)).pushed = t.pushed ++ [y] ∧
      (timeslot cfg z (timeslot cfg y t)).fsm = .advance) ∧
    (t.phase + t.freq < 1 → (timeslot cfg y t).pushed = t.pushed ∧ (timeslot cfg y t).fsm = .advance)

/-- 40_timing_recovery.md R118: one `TR.STEP` pushes at most `ceil(TR_L / 2)` soft symbols, so that `CH_SYM` never
holds more than its capacity. -/
def Obligations.TrStepPushBound : Prop :=
  ∀ (s t : State) (cfg : TrConfig) (freq : NUM), s.tr = .configured cfg freq → exec .trStep s = .next t →
    (∃ new, t.chSym = s.chSym ++ new ∧ 2 * new.length ≤ cfg.l + 1) ∧ t.chSym.length ≤ s.P.depthSym

/-- 40_timing_recovery.md R119: after a `TR.CFG` and after every `TR.STEP` the rate estimate is within its clamp, also
in the host's units. The premise is the invariant of TR, which `StepKeepsInvariant` states to be kept. -/
def Obligations.RateStaysClamped : Prop :=
  ∀ (s t : State) (i : Instr), s.TrInv → (i = .trStep ∨ ∃ r d w v o, i = .trCfg r d w v o) →
    exec i s = .next t → ∀ cfg freq, t.tr = .configured cfg freq →
      cfg.freqNom - cfg.dev ≤ freq ∧ freq ≤ cfg.freqNom + cfg.dev ∧
      |freq * (cfg.l : NUM) - cfg.rNom| ≤ cfg.maxDev

/-! ## The front path: channels and slicer -/

/-- 45_control.md R217: where `CH_IN` has a free place, `IN.SAMPLE` appends the value of its operand and changes
nothing else, whether or not TR runs; where it has none, `IN.SAMPLE` has no step. -/
def Obligations.InSampleAppends : Prop :=
  ∀ (s : State) (v : SRatio), v.den ≠ 0 →
    encode (.inSample v) = [0x11, BitVec.ofNat 8 (v.num.toNat / 256), BitVec.ofNat 8 (v.num.toNat % 256),
      BitVec.ofNat 8 (v.den.toNat / 256), BitVec.ofNat 8 (v.den.toNat % 256)] ∧
    (s.chIn.length < s.P.depthIn →
      exec (.inSample v) s = .next { s with chIn := s.chIn ++ [(v.num.toInt : NUM) / (v.den.toNat : NUM)] }) ∧
    (s.P.depthIn ≤ s.chIn.length → ∀ t, exec (.inSample v) s ≠ .next t)

/-- 45_control.md R218: with TR stopped and a free place in `CH_SYM`, `SYM.PUSH` appends the value of its operand and
changes nothing else; with TR running or no free place it has no step. -/
def Obligations.SymPushAppends : Prop :=
  ∀ (s : State) (v : SRatio), v.den ≠ 0 →
    encode (.symPush v) = [0x20, BitVec.ofNat 8 (v.num.toNat / 256), BitVec.ofNat 8 (v.num.toNat % 256),
      BitVec.ofNat 8 (v.den.toNat / 256), BitVec.ofNat 8 (v.den.toNat % 256)] ∧
    (s.running .tr = false → s.chSym.length < s.P.depthSym →
      exec (.symPush v) s = .next { s with chSym := s.chSym ++ [(v.num.toInt : NUM) / (v.den.toNat : NUM)] }) ∧
    (s.running .tr = true ∨ s.P.depthSym ≤ s.chSym.length → ∀ t, exec (.symPush v) s ≠ .next t)

/-- 41_slicer.md R141, R142: where it is enabled, `SL.STEP` shifts the sign of the oldest soft symbol in, pushes the
byte if it is the eighth bit, and changes nothing else; elsewhere it has no step. -/
def Obligations.SlStepResult : Prop :=
  encode .slStep = [0x21] ∧
  (∀ s : State, s.running .sl = false ∨ s.chSym = [] ∨ s.P.depthByte ≤ s.chByte.length →
    ∀ t, exec .slStep s ≠ .next t) ∧
  ∀ (s : State) (v : NUM) (rest : List NUM), s.running .sl = true → s.chSym = v :: rest →
    s.chByte.length < s.P.depthByte →
    ∃ r : BitVec 8, r.toNat = (2 * s.slShreg.toNat + if 0 ≤ v then 1 else 0) % 256 ∧
      (s.slBitcnt = 7 → exec .slStep s = .next { s with
        chSym := rest, slShreg := r, chByte := s.chByte ++ [r], slBitcnt := 0 }) ∧
      (s.slBitcnt ≠ 7 → exec .slStep s = .next { s with
        chSym := rest, slShreg := r, slBitcnt := s.slBitcnt + 1 })

/-- 30_encoding.md R86: eight soft symbols sliced from a byte boundary make one byte, the earliest bit its bit 7. -/
def Obligations.EightSymbolsMakeAByte : Prop :=
  ∀ (s : State) (v0 v1 v2 v3 v4 v5 v6 v7 : NUM) (rest : List NUM), s.running .sl = true → s.slBitcnt = 0 →
    s.chSym = v0 :: v1 :: v2 :: v3 :: v4 :: v5 :: v6 :: v7 :: rest → s.chByte.length < s.P.depthByte →
    let b (v : NUM) : Nat := if 0 ≤ v then 1 else 0
    let byte : Byte := BitVec.ofNat 8 (b v0 * 128 + b v1 * 64 + b v2 * 32 + b v3 * 16 + b v4 * 8 + b v5 * 4 +
      b v6 * 2 + b v7)
    execAll (List.replicate 8 .slStep) s = .next { s with
      chSym := rest, chByte := s.chByte ++ [byte], slShreg := byte, slBitcnt := 0 }

/-- 41_slicer.md R143: over any schedule from reset, one byte is pushed for every eight soft symbols consumed. The
bytes pushed are those in `CH_BYTE` and those popped. -/
def Obligations.SlicerCounts : Prop :=
  ∀ (is : List Instr) (s t : State), s.AtReset → Instr.reset ∉ is → execAll is s = .next t →
    t.chByte.length + is.count .bytePop = is.count .slStep / 8 ∧
    t.slBitcnt.toNat = is.count .slStep % 8

/-- 45_control.md R219: where `CH_BYTE` is not empty, `BYTE.POP` returns its oldest byte and changes nothing else; where
it is empty, `BYTE.POP` has no step. -/
def Obligations.BytePopReturnsOldest : Prop :=
  encode .bytePop = [0x22] ∧ (∀ s : State, s.chByte = [] → ∀ t, exec .bytePop s ≠ .next t) ∧
  ∀ (s : State) (b : Byte) (rest : List Byte), s.chByte = b :: rest →
    exec .bytePop s = .next { s with chByte := rest, results := s.results ++ [.byte b] }

/-- 10_state.md R27, R26: every operation but `RESET` leaves each channel a suffix of what it held followed by what
was pushed; only the consumer pops, one item, and only a producer pushes. -/
def Obligations.ChannelsAreLossless : Prop :=
  ∀ (s t : State) (i : Instr), i ≠ .reset → exec i s = .next t →
    (∃ new, s.chIn.drop (if i = .trStep then 1 else 0) ++ new = t.chIn ∧
      ((∀ v, i ≠ .inSample v) → new = []) ∧ (i = .trStep → s.chIn ≠ [])) ∧
    (∃ new, s.chSym.drop (if i = .slStep then 1 else 0) ++ new = t.chSym ∧
      (i ≠ .trStep → (∀ v, i ≠ .symPush v) → new = []) ∧ (i = .slStep → s.chSym ≠ [])) ∧
    (∃ new, s.chByte.drop (if i = .bytePop then 1 else 0) ++ new = t.chByte ∧
      (i ≠ .slStep → new = []) ∧ (i = .bytePop → s.chByte ≠ []))

/-! ## The back path: frame buffer and descrambler -/

/-- 45_control.md R220: with the frame buffer empty, `FR.LOAD` writes every byte of it, clears the flags of the
decoder, and changes nothing else; with a frame in the buffer it has no step. -/
def Obligations.FrLoadWritesBlock : Prop :=
  ∀ (s : State) (blk : List Byte), blk.length = s.P.frameLenMax →
    encode (.frLoad blk) = 0x30 :: blk ∧
    (s.fbState = .empty → ∃ m inv, exec (.frLoad blk) s = .next { s with
        fb := m, fecInvalid := inv, fecMode := false, fbState := .loaded } ∧
      m.wf ∧ (∀ a, m.read a = blk[a]?) ∧ inv.length = s.P.rsDepth ∧ ∀ b ∈ inv, b = false) ∧
    (s.fbState ≠ .empty → ∀ t, exec (.frLoad blk) s ≠ .next t)

/-- 42_descrambler.md R152: with DS running and a frame loaded, `DS.RUN` replaces every byte of the frame buffer by its
reversal, exclusive or with 0xFF and with the sequence byte of its position, and changes nothing else; elsewhere it
has no step. -/
def Obligations.DsRunDescrambles : Prop :=
  encode .dsRun = [0x31] ∧
  (∀ s : State, s.running .ds = false ∨ s.fbState ≠ .loaded → ∀ t, exec .dsRun s ≠ .next t) ∧
  ∀ s : State, s.running .ds = true → s.fbState = .loaded → s.FrameWritten →
    ∃ m, exec .dsRun s = .next { s with fb := m, fbState := .descrambled } ∧ m.wf ∧
      (∀ a < s.P.frameLenMax, ∃ b, s.fb.read a = some b ∧
        m.read a = some (bitrev8 b ^^^ 0xFF ^^^ s.P.prn.getD (a % s.P.prnPeriod) 0)) ∧
      ∀ a, s.P.frameLenMax ≤ a → m.read a = none

/-- 42_descrambler.md R151: bit `j` of the reversal is bit `7 − j`; the reversal is a bijection and its own inverse; its
fixed points and the examples. -/
def Obligations.BitReversal : Prop :=
  (∀ b : Byte, (∀ j < 8, (bitrev8 b).getLsbD j = b.getLsbD (7 - j)) ∧
    (bitrev8 b).toNat = ∑ j ∈ Finset.range 8, (b.getLsbD (7 - j)).toNat * 2 ^ j ∧ bitrev8 (bitrev8 b) = b ∧
    (bitrev8 b = b ↔ b ∈ [0x00, 0x18, 0x24, 0x3C, 0x42, 0x5A, 0x66, 0x7E, 0x81, 0x99, 0xA5, 0xBD, 0xC3, 0xDB, 0xE7,
      0xFF])) ∧
  Function.Bijective bitrev8 ∧
  bitrev8 0x01 = 0x80 ∧ bitrev8 0x10 = 0x08 ∧ bitrev8 0xB6 = 0x6D ∧ bitrev8 0xCA = 0x53

/-- 42_descrambler.md R155: `DS.RUN` applied to the scrambling of a plain frame returns the plain frame. -/
def Obligations.DsRunUndoesScrambling : Prop :=
  ∀ (s : State) (plain blk : List Byte), plain.length = s.P.frameLenMax → blk.length = s.P.frameLenMax →
    (∀ a < s.P.frameLenMax, blk.getD a 0 =
      bitrev8 (plain.getD a 0 ^^^ 0xFF ^^^ s.P.prn.getD (a % s.P.prnPeriod) 0)) →
    s.running .ds = true → s.fbState = .empty →
    ∃ t, execAll [.frLoad blk, .dsRun] s = .next t ∧ t.fbState = .descrambled ∧
      ∀ a, t.fb.read a = plain[a]?

/-- 42_descrambler.md R154: descrambling is a bijection on blocks; done twice it gives `b xor bitrev8(m) xor m`; a
flipped bit flips the mirrored bit; and a byte depends on the byte at its own position alone. -/
def Obligations.DescramblerProperties : Prop :=
  ∀ P : Params,
    (∀ x y : List Byte, descramble P x = descramble P y → x = y) ∧
    (∀ y : List Byte, ∃ x, x.length = y.length ∧ descramble P x = y) ∧
    (∀ (i : Nat) (b : Byte), let m := 0xFF ^^^ P.prn.getD (i % P.prnPeriod) 0
      descrambleByte P i (descrambleByte P i b) = b ^^^ bitrev8 m ^^^ m ∧
        (descrambleByte P i (descrambleByte P i b) = b ↔ bitrev8 m = m)) ∧
    (∀ (i : Nat) (b : Byte), ∀ j < 8,
      descrambleByte P i (b ^^^ (1 <<< j)) = descrambleByte P i b ^^^ (1 <<< (7 - j))) ∧
    (∀ (x : List Byte) (i k : Nat) (b : Byte), k ≠ i →
      (descramble P (x.set i b))[k]? = (descramble P x)[k]?)

/-- 45_control.md R221: with a corrected frame in the buffer, `FR.READ` returns every byte of it with the mode and the
flags, gives the buffer back to the host, and changes nothing else: the bytes and the flags stay; without one it has no
step. -/
def Obligations.FrReadReturnsFrame : Prop :=
  encode .frRead = [0x33] ∧ (∀ s : State, s.fbState ≠ .corrected → ∀ t, exec .frRead s ≠ .next t) ∧
  ∀ s : State, s.fbState = .corrected → s.FrameWritten →
    ∃ bytes, bytes.length = s.P.frameLenMax ∧ (∀ a, bytes[a]? = s.fb.read a) ∧
      exec .frRead s = .next { s with
        fbState := .empty, results := s.results ++ [.frame bytes s.fecMode s.fecInvalid] }

/-- 10_state.md R45: the only transitions of `FB_STATE`, each by its own operation. -/
def Obligations.FbStateTransitions : Prop :=
  ∀ (s t : State) (i : Instr), exec i s = .next t →
    (t.fbState = s.fbState ∧ i ≠ .dsRun ∧ i ≠ .fecRun ∧ i ≠ .frRead ∧ ∀ blk, i ≠ .frLoad blk) ∨
    (s.fbState = .empty ∧ t.fbState = .loaded ∧ ∃ blk, i = .frLoad blk) ∨
    (s.fbState = .loaded ∧ t.fbState = .descrambled ∧ i = .dsRun) ∨
    (s.fbState = .descrambled ∧ t.fbState = .corrected ∧ i = .fecRun) ∨
    (s.fbState = .corrected ∧ t.fbState = .empty ∧ i = .frRead) ∨
    (t.fbState = .empty ∧ i = .reset)

/-! ## The symbol field and the code -/

/-- 43_gf256.md R162: for every field polynomial a record of parameters can have, the product is commutative and
associative, distributes over the sum, has 0x01 as its one and 0x00 as its zero; multiplying by 0x02 is the shift. -/
def Obligations.FieldProductLaws : Prop :=
  ∀ p : BitVec 9, isPrimitive p = true → ∀ a b c : Byte,
    gmul p a b = gmul p b a ∧ gmul p (gmul p a b) c = gmul p a (gmul p b c) ∧
    gmul p a (b ^^^ c) = gmul p a b ^^^ gmul p a c ∧ gmul p a 1 = a ∧ gmul p a 0 = 0 ∧
    gmul p 2 a = (if a.getLsbD 7 then (a <<< 1) ^^^ p.setWidth 8 else a <<< 1) ∧ xtime p a = gmul p 2 a

/-- 43_gf256.md R163, R164: every non-zero byte is `α^e` for exactly one `e` in 0 … 254, products are sums of
logarithms, and `ginv` gives the only inverse. -/
def Obligations.LogarithmsAndInverses : Prop :=
  ∀ p : BitVec 9, isPrimitive p = true →
    (∀ a : Byte, a ≠ 0 → glog p a < 255 ∧ gpow p (glog p a) = a ∧
      ∀ e : Nat, e < 255 → gpow p e = a → e = glog p a) ∧
    (∀ a b : Byte, a ≠ 0 → b ≠ 0 → gmul p a b = gpow p ((glog p a + glog p b : Nat) : Int)) ∧
    (∀ a : Byte, a ≠ 0 → gmul p a (ginv p a) = 1 ∧ ∀ b, gmul p a b = 1 → b = ginv p a)

/-- 43_gf256.md R169: the 255 position locators are all different, and none is 0. -/
def Obligations.LocatorsDiffer : Prop :=
  ∀ P : Parameters, ∀ d < 255, locator P.val d ≠ 0 ∧
    ∀ d' < 255, locator P.val d = locator P.val d' → d = d'

/-- 43_gf256.md R170: the generator is monic of degree `2·RS_T` and zero at each of the roots of the code. -/
def Obligations.GeneratorHasTheRoots : Prop :=
  ∀ P : Parameters, (generator P.val).length = 2 * P.val.rsT + 1 ∧ (generator P.val).getLast? = some 1 ∧
    ∀ r < 2 * P.val.rsT, peval P.val.rsFieldPoly (generator P.val) (root P.val r) = 0

/-- 44_fec.md R188: two different codewords differ in at least `2·RS_T + 1` positions, so that at most one lies within
`RS_T` of any word, and a codeword is decoded to itself. -/
def Obligations.CodewordsFarApart : Prop :=
  ∀ P : Parameters,
    (∀ c c' : List Byte, Codeword P.val c → Codeword P.val c' → c ≠ c' → 2 * P.val.rsT + 1 ≤ symbolErrors c c') ∧
    (∀ w c c' : List Byte, w.length = P.val.rsN → Codeword P.val c → Codeword P.val c' →
      symbolErrors w c ≤ P.val.rsT → symbolErrors w c' ≤ P.val.rsT → c = c') ∧
    ∀ c : List Byte, Codeword P.val c → rsDecode P.val c = some c

/-- The sound half of 44_fec.md R187: a word the decoder answers is a codeword within `RS_T` symbol errors. -/
def Obligations.DecoderIsSound : Prop :=
  ∀ (P : Parameters) (c c' : List Byte), c.length = P.val.rsN → rsDecode P.val c = some c' →
    Codeword P.val c' ∧ symbolErrors c c' ≤ P.val.rsT

/-- 44_fec.md R187: the procedure of R192 computes `RS_DECODE`: it answers `(ok, c')` exactly for the codeword within
`RS_T` symbol errors, and failure exactly where there is none. -/
def Obligations.DecoderFindsNearestCodeword : Prop :=
  ∀ (P : Parameters) (c : List Byte), c.length = P.val.rsN →
    (∀ c', Codeword P.val c' → symbolErrors c c' ≤ P.val.rsT → rsDecode P.val c = some c') ∧
    ((¬ ∃ c', Codeword P.val c' ∧ symbolErrors c c' ≤ P.val.rsT) → rsDecode P.val c = none)

/-- 44_fec.md R193: a message with the remainder as its parity is a codeword. -/
def Obligations.EncoderGivesCodewords : Prop :=
  ∀ (P : Parameters) (msg : List Byte), msg.length = P.val.rsK →
    Codeword P.val (remainderByGenerator P.val msg ++ msg)

/-! ## The interleaved decoder -/

/-- 44_fec.md R182 to R185, 20_memory.md R60: the symbols of block `j` are the frame's bytes, by their positions. The
message symbols are every `RS_DEPTH`-th byte from byte `j` on and then zeros, the parity symbols one run of `2·RS_T`
bytes, and `CW_ORDER` says which coefficient of the word each of them is; a corrected word gives its message symbols
back in the same order. Every index is within the frame, and the protected region ends where the parity begins. -/
def Obligations.DecoderIndicesInRange : Prop :=
  ∀ (P : Parameters) (ext : Bool),
    let K := P.val.rsK; let N := P.val.rsN; let T := P.val.rsT; let D := P.val.rsDepth
    let len := msgLen P.val ext
    let off := parOff P.val ext
    off = (if ext then 1 + P.val.dataLen + P.val.extLen else 1 + P.val.dataLen) ∧ D * len = off ∧ len ≤ K ∧
    (∀ j < D, (∀ i < len, D * i + j < off) ∧
      ∀ i < 2 * T, off ≤ off + 2 * T * j + i ∧ off + 2 * T * j + i < P.val.frameLenMax) ∧
    (∀ frame : List Byte, frame.length = P.val.frameLenMax → ∀ j < D,
      let msg := gatherMessage P.val ext frame j
      let par := gatherParity P.val ext frame j
      let w := gatherBlock P.val ext frame j
      msg.length = K ∧ (∀ i < len, msg[i]? = frame[D * i + j]?) ∧ (∀ i, len ≤ i → i < K → msg[i]? = some 0) ∧
      par.length = 2 * T ∧ (∀ i < 2 * T, par[i]? = frame[off + 2 * T * j + i]?) ∧
      w.length = N ∧
      (P.val.cwOrder = .ascending → (∀ i < 2 * T, w[i]? = par[i]?) ∧ ∀ i < K, w[2 * T + i]? = msg[i]?) ∧
      (P.val.cwOrder = .descending →
        (∀ i < 2 * T, w[2 * T - 1 - i]? = par[i]?) ∧ ∀ i < K, w[N - 1 - i]? = msg[i]?)) ∧
    ∀ w : List Byte, w.length = N →
      (messageOf P.val w).length = K ∧
      (P.val.cwOrder = .ascending → ∀ i < K, (messageOf P.val w)[i]? = w[2 * T + i]?) ∧
      (P.val.cwOrder = .descending → ∀ i < K, (messageOf P.val w)[i]? = w[N - 1 - i]?)

/-- 44_fec.md R186, 30_encoding.md R84: with FEC running and a descrambled frame, `FEC.RUN` always completes and hands
the buffer on; it latches the mode of the received flag byte, writes one flag for each block, writes no byte beyond
the protected region, and changes nothing else. -/
def Obligations.FecRunCompletes : Prop :=
  ∀ s : State, s.running .fec = true → s.fbState = .descrambled → s.FrameWritten →
    ∃ m inv flag, s.fb.read 0 = some flag ∧
      let ext := decide (flag &&& s.P.extFlagMask = s.P.extFlagMatch)
      exec .fecRun s = .next { s with fb := m, fecMode := ext, fecInvalid := inv, fbState := .corrected } ∧
      m.wf ∧ inv.length = s.P.rsDepth ∧ (∀ a < s.P.frameLenMax, ∃ b, m.read a = some b) ∧
      ∀ a, s.P.rsDepth * (if ext then s.P.msgLenExt else s.P.msgLenStd) ≤ a → m.read a = s.fb.read a

/-- 44_fec.md R190, R191, R195: the outcome of a block is that of the block decoded alone in the frame as received,
whatever happens to the others. On success its message symbols stand where they were gathered from; on failure its
bytes are as they were. -/
def Obligations.BlocksAreIndependent : Prop :=
  ∀ (P : Parameters) (ext : Bool) (frame : List Byte), frame.length = P.val.frameLenMax →
    ∀ j < P.val.rsDepth,
      (fecBlocks P.val ext frame).2[j]? = some (decodeBlock P.val ext frame j).isNone ∧
      ∀ i < msgLen P.val ext, (fecBlocks P.val ext frame).1[P.val.rsDepth * i + j]? =
        match decodeBlock P.val ext frame j with
        | some msg => msg[i]?
        | none => frame[P.val.rsDepth * i + j]?

/-- 10_state.md R50, 44_fec.md R187, R189 to R191: after `FEC.RUN`, `FEC_INVALID[j]` is 1 exactly if block `j` of the
frame as received has no codeword of the (shortened) code within `RS_T` symbol errors; if it has one, its message
symbols stand in the frame, and if not, the block's bytes are unchanged. No parity byte and no byte after it is
written. -/
def Obligations.FecRunDecodesEveryBlock : Prop :=
  ∀ (s t : State) (frame : List Byte), s.fb.bytes s.P.frameLenMax = some frame → exec .fecRun s = .next t →
    (∀ a, parOff s.P t.fecMode ≤ a → t.fb.read a = s.fb.read a) ∧ ∀ j < s.P.rsDepth,
      (t.fecInvalid[j]? = some true ↔ ¬ ∃ msg, Corrects s.P t.fecMode frame j msg) ∧
      (∀ msg, Corrects s.P t.fecMode frame j msg → t.fecInvalid[j]? = some false ∧
        ∀ i < msgLen s.P t.fecMode, t.fb.read (s.P.rsDepth * i + j) = msg[i]?) ∧
      ((¬ ∃ msg, Corrects s.P t.fecMode frame j msg) →
        ∀ i < msgLen s.P t.fecMode, t.fb.read (s.P.rsDepth * i + j) = s.fb.read (s.P.rsDepth * i + j))

/-- The purpose of the stage (44_fec.md R180, R187, R190): if the received frame has the mode of a plain frame whose
blocks are codewords, and no block of it has more than `RS_T` symbol errors, `FEC.RUN` restores the whole protected
region, leaves every byte after it as received, and flags no block. -/
def Obligations.FecRunRestoresPlainFrame : Prop :=
  ∀ (s : State) (plain frame : List Byte), s.running .fec = true → s.fbState = .descrambled →
    s.fb.bytes s.P.frameLenMax = some frame → plain.length = s.P.frameLenMax →
    frameMode s.P frame = frameMode s.P plain →
    (∀ j < s.P.rsDepth, Codeword s.P (gatherBlock s.P (frameMode s.P plain) plain j) ∧
      symbolErrors (gatherBlock s.P (frameMode s.P plain) frame j)
        (gatherBlock s.P (frameMode s.P plain) plain j) ≤ s.P.rsT) →
    ∃ t, exec .fecRun s = .next t ∧ t.fecInvalid = List.replicate s.P.rsDepth false ∧
      t.fecMode = frameMode s.P plain ∧
      (∀ a < parOff s.P (frameMode s.P plain), t.fb.read a = plain[a]?) ∧
      ∀ a, parOff s.P (frameMode s.P plain) ≤ a → t.fb.read a = s.fb.read a

/-- 30_encoding.md R101 and 90_conflicts.md C7: with DS and FEC running and the buffer empty, `FRAME.PROCESS` completes
whatever the block holds: one frame is delivered, as the stages left it in the buffer and with its flags, and the
buffer is the host's again. -/
def Obligations.FrameProcessDelivers : Prop :=
  ∀ (s : State) (blk : List Byte), blk.length = s.P.frameLenMax → s.running .ds = true → s.running .fec = true →
    s.fbState = .empty →
    ∃ t bytes, execAll (Pseudo.expand s (.frameProcess blk)) s = .next t ∧ t.fbState = .empty ∧
      bytes.length = s.P.frameLenMax ∧ (∀ a, bytes[a]? = t.fb.read a) ∧ t.fecInvalid.length = s.P.rsDepth ∧
      t.results = s.results ++ [.frame bytes t.fecMode t.fecInvalid]

/-- 30_encoding.md R101: `DRAIN.SL` is `SL.STEP` repeated and nothing else; it happens as a whole, and after it `CH_SYM`
is empty or `SL.STEP` is not enabled. -/
def Obligations.DrainSlDrains : Prop :=
  ∀ s : State, (∃ n, Pseudo.expand s .drainSl = List.replicate n .slStep) ∧ ∃ t, execAll (Pseudo.expand s .drainSl) s = .next t ∧ enabled .slStep t = false

/-! ## The whole machine -/

/-- 10_state.md R22, R26, R31 to R37, R40, R41, R44, R45, R50, R51, R54, the columns "written by", "producer",
"consumer" and "set by": which operations can change each piece of state. That no operation changes the trace, and that
only the three that return something change the results, not `RESET`, is the model's choice (assumptions 7, 8). -/
def Obligations.WritersOfState : Prop :=
  ∀ (s t : State) (i : Instr), exec i s = .next t →
    t.params = s.params ∧ t.trace = s.trace ∧
    (i ≠ .stRead → i ≠ .bytePop → i ≠ .frRead → t.results = s.results) ∧
    (i = .reset ∨
      (((∀ st, i ≠ .stageStart st) → (∀ st, i ≠ .stageStop st) → t.ctrl = s.ctrl) ∧
      (i ≠ .slStep → t.slShreg = s.slShreg ∧ t.slBitcnt = s.slBitcnt) ∧
      ((∀ r d w v o, i ≠ .trCfg r d w v o) →
        (∀ cfg freq, t.tr = .configured cfg freq → ∃ f, s.tr = .configured cfg f) ∧
        (t.tr = .unconfigured → s.tr = .unconfigured) ∧
        (i ≠ .trStep → t.tr = s.tr ∧ t.trDl = s.trDl ∧ t.trPhase = s.trPhase ∧ t.trYPrev = s.trYPrev ∧
          t.trYEarly = s.trYEarly ∧ t.trYOntime = s.trYOntime ∧ t.trFsm = s.trFsm ∧ t.trErr = s.trErr)) ∧
      ((∀ blk, i ≠ .frLoad blk) →
        (i ≠ .fecRun → t.fecInvalid = s.fecInvalid ∧ t.fecMode = s.fecMode) ∧
        (i ≠ .dsRun → i ≠ .fecRun → t.fb = s.fb) ∧
        (i ≠ .dsRun → i ≠ .fecRun → i ≠ .frRead → t.fbState = s.fbState)) ∧
      ((∀ v, i ≠ .inSample v) → i ≠ .trStep → t.chIn = s.chIn) ∧
      ((∀ v, i ≠ .symPush v) → i ≠ .trStep → i ≠ .slStep → t.chSym = s.chSym) ∧
      (i ≠ .slStep → i ≠ .bytePop → t.chByte = s.chByte)))

/-- The invariant holds after reset, whatever the parameters. -/
def Obligations.ResetMeetsInvariant : Prop := ∀ p : Parameters, (State.powerOn p).Inv

/-- Every step keeps the invariant: capacities (R28), the derived registers of TR and its clamp (R31, R34, R119), the
canonical form of the frame buffer's memory, that it is written wherever it can be read (R44), and the flags of the
decoder (R50, R51). -/
def Obligations.StepKeepsInvariant : Prop := ∀ s t : State, s.Inv → step s = .next t → t.Inv

/-- 60_exceptions.md R240, R245: from a state that meets the invariant no step faults. -/
def Obligations.NoStepFaults : Prop := ∀ (s : State) (f : Fault), s.Inv → step s ≠ .fault f

/-- 10_state.md R21: the two data paths do not touch each other. An operation of the front path does the same whatever
the back path holds, and leaves it as it is; and the other way round. -/
def Obligations.PathsDoNotTouch : Prop :=
  ∀ (s u : State) (i : Instr),
    (isFront i = true → exec i (s.withBack u) = mapNext (fun t => t.withBack u) (exec i s)) ∧
    (isBack i = true → exec i (s.withFront u) = mapNext (fun t => t.withFront u) (exec i s))

/-- 20_memory.md R74, R76: the schedule changes nothing. A firing and another enabled operation that moves data can
happen in either order: each stays enabled after the other, and the state they lead to is the same. -/
def Obligations.FiringsCommute : Prop :=
  ∀ (s sa sb : State) (a b : Instr), a ∈ firings → isFront b = true ∨ isBack b = true → a ≠ b →
    exec a s = .next sa → exec b s = .next sb →
    ∃ t, exec b sa = .next t ∧ exec a sb = .next t

/-- 20_memory.md R76: the capacities of the channels change nothing but whether an operation can happen. -/
def Obligations.CapacitiesDoNotMatter : Prop :=
  ∀ (s t t' : State) (i : Instr) (p : Parameters),
    p.val = { s.P with depthIn := p.val.depthIn, depthSym := p.val.depthSym, depthByte := p.val.depthByte } →
    exec i s = .next t → exec i { s with params := p } = .next t' → t' = { t with params := p }
end

