-- ==== Sys2Proof/Laws/State.lean ====
section
/-! SUPPORT. One lemma per field of the state per named update of it, each true by `rfl`. -/

namespace Sys2Proof.Machine

/-! ### The trace placed -/

section

variable (s : State) (bytes : List Byte)

@[simp] theorem State.withTrace_params : (s.withTrace bytes).params = s.params := rfl
@[simp] theorem State.withTrace_trace : (s.withTrace bytes).trace = bytes := rfl
@[simp] theorem State.withTrace_results : (s.withTrace bytes).results = s.results := rfl
@[simp] theorem State.withTrace_chIn : (s.withTrace bytes).chIn = s.chIn := rfl
@[simp] theorem State.withTrace_chSym : (s.withTrace bytes).chSym = s.chSym := rfl
@[simp] theorem State.withTrace_chByte : (s.withTrace bytes).chByte = s.chByte := rfl
@[simp] theorem State.withTrace_ctrl : (s.withTrace bytes).ctrl = s.ctrl := rfl
@[simp] theorem State.withTrace_tr : (s.withTrace bytes).tr = s.tr := rfl
@[simp] theorem State.withTrace_trDl : (s.withTrace bytes).trDl = s.trDl := rfl
@[simp] theorem State.withTrace_trPhase : (s.withTrace bytes).trPhase = s.trPhase := rfl
@[simp] theorem State.withTrace_trYPrev : (s.withTrace bytes).trYPrev = s.trYPrev := rfl
@[simp] theorem State.withTrace_trYEarly : (s.withTrace bytes).trYEarly = s.trYEarly := rfl
@[simp] theorem State.withTrace_trYOntime : (s.withTrace bytes).trYOntime = s.trYOntime := rfl
@[simp] theorem State.withTrace_trFsm : (s.withTrace bytes).trFsm = s.trFsm := rfl
@[simp] theorem State.withTrace_trErr : (s.withTrace bytes).trErr = s.trErr := rfl
@[simp] theorem State.withTrace_slShreg : (s.withTrace bytes).slShreg = s.slShreg := rfl
@[simp] theorem State.withTrace_slBitcnt : (s.withTrace bytes).slBitcnt = s.slBitcnt := rfl
@[simp] theorem State.withTrace_fb : (s.withTrace bytes).fb = s.fb := rfl
@[simp] theorem State.withTrace_fbState : (s.withTrace bytes).fbState = s.fbState := rfl
@[simp] theorem State.withTrace_fecInvalid : (s.withTrace bytes).fecInvalid = s.fecInvalid := rfl
@[simp] theorem State.withTrace_fecMode : (s.withTrace bytes).fecMode = s.fecMode := rfl

end

/-! ### A result given to the host -/

section

variable (s : State) (r : Result)

@[simp] theorem State.returning_params : (s.returning r).params = s.params := rfl
@[simp] theorem State.returning_trace : (s.returning r).trace = s.trace := rfl
@[simp] theorem State.returning_results : (s.returning r).results = s.results ++ [r] := rfl
@[simp] theorem State.returning_chIn : (s.returning r).chIn = s.chIn := rfl
@[simp] theorem State.returning_chSym : (s.returning r).chSym = s.chSym := rfl
@[simp] theorem State.returning_chByte : (s.returning r).chByte = s.chByte := rfl
@[simp] theorem State.returning_ctrl : (s.returning r).ctrl = s.ctrl := rfl
@[simp] theorem State.returning_tr : (s.returning r).tr = s.tr := rfl
@[simp] theorem State.returning_trDl : (s.returning r).trDl = s.trDl := rfl
@[simp] theorem State.returning_trPhase : (s.returning r).trPhase = s.trPhase := rfl
@[simp] theorem State.returning_trYPrev : (s.returning r).trYPrev = s.trYPrev := rfl
@[simp] theorem State.returning_trYEarly : (s.returning r).trYEarly = s.trYEarly := rfl
@[simp] theorem State.returning_trYOntime : (s.returning r).trYOntime = s.trYOntime := rfl
@[simp] theorem State.returning_trFsm : (s.returning r).trFsm = s.trFsm := rfl
@[simp] theorem State.returning_trErr : (s.returning r).trErr = s.trErr := rfl
@[simp] theorem State.returning_slShreg : (s.returning r).slShreg = s.slShreg := rfl
@[simp] theorem State.returning_slBitcnt : (s.returning r).slBitcnt = s.slBitcnt := rfl
@[simp] theorem State.returning_fb : (s.returning r).fb = s.fb := rfl
@[simp] theorem State.returning_fbState : (s.returning r).fbState = s.fbState := rfl
@[simp] theorem State.returning_fecInvalid : (s.returning r).fecInvalid = s.fecInvalid := rfl
@[simp] theorem State.returning_fecMode : (s.returning r).fecMode = s.fecMode := rfl

end

/-! ### TR configured -/

section

variable (s : State) (cfg : TrConfig)

@[simp] theorem State.configureTr_params : (s.configureTr cfg).params = s.params := rfl
@[simp] theorem State.configureTr_trace : (s.configureTr cfg).trace = s.trace := rfl
@[simp] theorem State.configureTr_results : (s.configureTr cfg).results = s.results := rfl
@[simp] theorem State.configureTr_chIn : (s.configureTr cfg).chIn = s.chIn := rfl
@[simp] theorem State.configureTr_chSym : (s.configureTr cfg).chSym = s.chSym := rfl
@[simp] theorem State.configureTr_chByte : (s.configureTr cfg).chByte = s.chByte := rfl
@[simp] theorem State.configureTr_ctrl : (s.configureTr cfg).ctrl = s.ctrl := rfl
@[simp] theorem State.configureTr_tr : (s.configureTr cfg).tr = .configured cfg cfg.freqNom := rfl
@[simp] theorem State.configureTr_trDl : (s.configureTr cfg).trDl = List.replicate cfg.m 0 := rfl
@[simp] theorem State.configureTr_trPhase : (s.configureTr cfg).trPhase = 0 := rfl
@[simp] theorem State.configureTr_trYPrev : (s.configureTr cfg).trYPrev = 0 := rfl
@[simp] theorem State.configureTr_trYEarly : (s.configureTr cfg).trYEarly = 0 := rfl
@[simp] theorem State.configureTr_trYOntime : (s.configureTr cfg).trYOntime = 0 := rfl
@[simp] theorem State.configureTr_trFsm : (s.configureTr cfg).trFsm = .advance := rfl
@[simp] theorem State.configureTr_trErr : (s.configureTr cfg).trErr = 0 := rfl
@[simp] theorem State.configureTr_slShreg : (s.configureTr cfg).slShreg = s.slShreg := rfl
@[simp] theorem State.configureTr_slBitcnt : (s.configureTr cfg).slBitcnt = s.slBitcnt := rfl
@[simp] theorem State.configureTr_fb : (s.configureTr cfg).fb = s.fb := rfl
@[simp] theorem State.configureTr_fbState : (s.configureTr cfg).fbState = s.fbState := rfl
@[simp] theorem State.configureTr_fecInvalid : (s.configureTr cfg).fecInvalid = s.fecInvalid := rfl
@[simp] theorem State.configureTr_fecMode : (s.configureTr cfg).fecMode = s.fecMode := rfl

end

/-! ### One firing of TR -/

section

variable (s : State) (cfg : TrConfig) (freq x : NUM) (rest : List NUM)

@[simp] theorem State.afterTrStep_params : (s.afterTrStep cfg freq x rest).params = s.params := rfl
@[simp] theorem State.afterTrStep_trace : (s.afterTrStep cfg freq x rest).trace = s.trace := rfl
@[simp] theorem State.afterTrStep_results : (s.afterTrStep cfg freq x rest).results = s.results := rfl
@[simp] theorem State.afterTrStep_chIn : (s.afterTrStep cfg freq x rest).chIn = rest := rfl
@[simp] theorem State.afterTrStep_chSym : (s.afterTrStep cfg freq x rest).chSym = s.chSym ++ (timeslots cfg (shiftIn cfg.m x s.trDl) (s.trLoop freq)).pushed := rfl
@[simp] theorem State.afterTrStep_chByte : (s.afterTrStep cfg freq x rest).chByte = s.chByte := rfl
@[simp] theorem State.afterTrStep_ctrl : (s.afterTrStep cfg freq x rest).ctrl = s.ctrl := rfl
@[simp] theorem State.afterTrStep_tr : (s.afterTrStep cfg freq x rest).tr = .configured cfg (timeslots cfg (shiftIn cfg.m x s.trDl) (s.trLoop freq)).freq := rfl
@[simp] theorem State.afterTrStep_trDl : (s.afterTrStep cfg freq x rest).trDl = shiftIn cfg.m x s.trDl := rfl
@[simp] theorem State.afterTrStep_trPhase : (s.afterTrStep cfg freq x rest).trPhase = (timeslots cfg (shiftIn cfg.m x s.trDl) (s.trLoop freq)).phase := rfl
@[simp] theorem State.afterTrStep_trYPrev : (s.afterTrStep cfg freq x rest).trYPrev = (timeslots cfg (shiftIn cfg.m x s.trDl) (s.trLoop freq)).yPrev := rfl
@[simp] theorem State.afterTrStep_trYEarly : (s.afterTrStep cfg freq x rest).trYEarly = (timeslots cfg (shiftIn cfg.m x s.trDl) (s.trLoop freq)).yEarly := rfl
@[simp] theorem State.afterTrStep_trYOntime : (s.afterTrStep cfg freq x rest).trYOntime = (timeslots cfg (shiftIn cfg.m x s.trDl) (s.trLoop freq)).yOntime := rfl
@[simp] theorem State.afterTrStep_trFsm : (s.afterTrStep cfg freq x rest).trFsm = (timeslots cfg (shiftIn cfg.m x s.trDl) (s.trLoop freq)).fsm := rfl
@[simp] theorem State.afterTrStep_trErr : (s.afterTrStep cfg freq x rest).trErr = (timeslots cfg (shiftIn cfg.m x s.trDl) (s.trLoop freq)).err := rfl
@[simp] theorem State.afterTrStep_slShreg : (s.afterTrStep cfg freq x rest).slShreg = s.slShreg := rfl
@[simp] theorem State.afterTrStep_slBitcnt : (s.afterTrStep cfg freq x rest).slBitcnt = s.slBitcnt := rfl
@[simp] theorem State.afterTrStep_fb : (s.afterTrStep cfg freq x rest).fb = s.fb := rfl
@[simp] theorem State.afterTrStep_fbState : (s.afterTrStep cfg freq x rest).fbState = s.fbState := rfl
@[simp] theorem State.afterTrStep_fecInvalid : (s.afterTrStep cfg freq x rest).fecInvalid = s.fecInvalid := rfl
@[simp] theorem State.afterTrStep_fecMode : (s.afterTrStep cfg freq x rest).fecMode = s.fecMode := rfl

end

/-! ### One firing of SL -/

section

variable (s : State) (v : NUM) (rest : List NUM)

@[simp] theorem State.afterSlStep_params : (s.afterSlStep v rest).params = s.params := rfl
@[simp] theorem State.afterSlStep_trace : (s.afterSlStep v rest).trace = s.trace := rfl
@[simp] theorem State.afterSlStep_results : (s.afterSlStep v rest).results = s.results := rfl
@[simp] theorem State.afterSlStep_chIn : (s.afterSlStep v rest).chIn = s.chIn := rfl
@[simp] theorem State.afterSlStep_chSym : (s.afterSlStep v rest).chSym = rest := rfl
@[simp] theorem State.afterSlStep_chByte : (s.afterSlStep v rest).chByte = 
    if s.slBitcnt = 7 then push s.chByte (shiftBit s.slShreg (hardBit v)) else s.chByte := rfl
@[simp] theorem State.afterSlStep_ctrl : (s.afterSlStep v rest).ctrl = s.ctrl := rfl
@[simp] theorem State.afterSlStep_tr : (s.afterSlStep v rest).tr = s.tr := rfl
@[simp] theorem State.afterSlStep_trDl : (s.afterSlStep v rest).trDl = s.trDl := rfl
@[simp] theorem State.afterSlStep_trPhase : (s.afterSlStep v rest).trPhase = s.trPhase := rfl
@[simp] theorem State.afterSlStep_trYPrev : (s.afterSlStep v rest).trYPrev = s.trYPrev := rfl
@[simp] theorem State.afterSlStep_trYEarly : (s.afterSlStep v rest).trYEarly = s.trYEarly := rfl
@[simp] theorem State.afterSlStep_trYOntime : (s.afterSlStep v rest).trYOntime = s.trYOntime := rfl
@[simp] theorem State.afterSlStep_trFsm : (s.afterSlStep v rest).trFsm = s.trFsm := rfl
@[simp] theorem State.afterSlStep_trErr : (s.afterSlStep v rest).trErr = s.trErr := rfl
@[simp] theorem State.afterSlStep_slShreg : (s.afterSlStep v rest).slShreg = shiftBit s.slShreg (hardBit v) := rfl
@[simp] theorem State.afterSlStep_slBitcnt : (s.afterSlStep v rest).slBitcnt = if s.slBitcnt = 7 then 0 else s.slBitcnt + 1 := rfl
@[simp] theorem State.afterSlStep_fb : (s.afterSlStep v rest).fb = s.fb := rfl
@[simp] theorem State.afterSlStep_fbState : (s.afterSlStep v rest).fbState = s.fbState := rfl
@[simp] theorem State.afterSlStep_fecInvalid : (s.afterSlStep v rest).fecInvalid = s.fecInvalid := rfl
@[simp] theorem State.afterSlStep_fecMode : (s.afterSlStep v rest).fecMode = s.fecMode := rfl

end

/-! ### Power-on -/

section

variable (p : Parameters)

@[simp] theorem State.powerOn_params : (State.powerOn p).params = p := rfl
@[simp] theorem State.powerOn_trace : (State.powerOn p).trace = [] := rfl
@[simp] theorem State.powerOn_results : (State.powerOn p).results = [] := rfl
@[simp] theorem State.powerOn_chIn : (State.powerOn p).chIn = [] := rfl
@[simp] theorem State.powerOn_chSym : (State.powerOn p).chSym = [] := rfl
@[simp] theorem State.powerOn_chByte : (State.powerOn p).chByte = [] := rfl
@[simp] theorem State.powerOn_ctrl : (State.powerOn p).ctrl = 0 := rfl
@[simp] theorem State.powerOn_tr : (State.powerOn p).tr = .unconfigured := rfl
@[simp] theorem State.powerOn_trDl : (State.powerOn p).trDl = [] := rfl
@[simp] theorem State.powerOn_trPhase : (State.powerOn p).trPhase = 0 := rfl
@[simp] theorem State.powerOn_trYPrev : (State.powerOn p).trYPrev = 0 := rfl
@[simp] theorem State.powerOn_trYEarly : (State.powerOn p).trYEarly = 0 := rfl
@[simp] theorem State.powerOn_trYOntime : (State.powerOn p).trYOntime = 0 := rfl
@[simp] theorem State.powerOn_trFsm : (State.powerOn p).trFsm = .advance := rfl
@[simp] theorem State.powerOn_trErr : (State.powerOn p).trErr = 0 := rfl
@[simp] theorem State.powerOn_slShreg : (State.powerOn p).slShreg = 0 := rfl
@[simp] theorem State.powerOn_slBitcnt : (State.powerOn p).slBitcnt = 0 := rfl
@[simp] theorem State.powerOn_fb : (State.powerOn p).fb = [] := rfl
@[simp] theorem State.powerOn_fbState : (State.powerOn p).fbState = .empty := rfl
@[simp] theorem State.powerOn_fecInvalid : (State.powerOn p).fecInvalid = List.replicate p.val.rsDepth false := rfl
@[simp] theorem State.powerOn_fecMode : (State.powerOn p).fecMode = false := rfl

end

/-! ### The parameters as plain data -/

@[simp] theorem State.withTrace_P (s : State) (bytes : List Byte) : (s.withTrace bytes).P = s.P := rfl
@[simp] theorem State.returning_P (s : State) (r : Result) : (s.returning r).P = s.P := rfl
@[simp] theorem State.configureTr_P (s : State) (cfg : TrConfig) : (s.configureTr cfg).P = s.P := rfl
@[simp] theorem State.afterTrStep_P (s : State) (cfg : TrConfig) (freq x : NUM) (rest : List NUM) :
    (s.afterTrStep cfg freq x rest).P = s.P := rfl
@[simp] theorem State.afterSlStep_P (s : State) (v : NUM) (rest : List NUM) :
    (s.afterSlStep v rest).P = s.P := rfl
@[simp] theorem State.powerOn_P (p : Parameters) : (State.powerOn p).P = p.val := rfl

end Sys2Proof.Machine
end

