-- ==== Sys2Proof/Laws/Memory.lean ====
section
/-! SUPPORT. The laws of the frame buffer's memory: what a byte written reads as, that every memory operation keeps
the canonical form, and that a whole buffer written is a whole buffer read. -/

namespace Sys2Proof.Machine

theorem Memory.ofBytes_addresses (base : Nat) (bytes : List Byte) :
    (Memory.ofBytes base bytes).map Prod.fst = List.range' base bytes.length := by
  induction bytes generalizing base with
  | nil => rfl
  | cons b bytes ih => simp [Memory.ofBytes, ih, List.range'_succ]

theorem Memory.ofBytes_values (base : Nat) (bytes : List Byte) :
    (Memory.ofBytes base bytes).map Prod.snd = bytes := by
  induction bytes generalizing base with
  | nil => rfl
  | cons b bytes ih => simp [Memory.ofBytes, ih]

/-- The only operation that makes a memory makes it in canonical form. -/
theorem Memory.ofBytes_wf (base : Nat) (bytes : List Byte) : Memory.wf (Memory.ofBytes base bytes) := by
  unfold Memory.wf
  rw [Memory.ofBytes_addresses]
  exact List.pairwise_lt_range'

theorem Memory.read_ofBytes (base : Nat) (bytes : List Byte) (a : Nat) :
    (Memory.ofBytes base bytes).read a = if base ≤ a then bytes[a - base]? else none := by
  induction bytes generalizing base with
  | nil => simp [Memory.ofBytes, Memory.read]
  | cons b bytes ih =>
    simp only [Memory.ofBytes, Memory.read, ih]
    rcases Nat.lt_trichotomy base a with h | h | h
    · have e : a - base = (a - (base + 1)) + 1 := by omega
      rw [if_neg (by omega), if_pos (by omega), if_pos (by omega), e, List.getElem?_cons_succ]
    · subst h; simp
    · rw [if_neg (by omega), if_neg (by omega), if_neg (by omega)]

@[simp] theorem Memory.read_ofBytes_zero (bytes : List Byte) (a : Nat) :
    (Memory.ofBytes 0 bytes).read a = bytes[a]? := by simp [Memory.read_ofBytes]

theorem Memory.bytes_eq_some {n : Nat} {m : Memory} {bytes : List Byte} :
    m.bytes n = some bytes ↔ m.map Prod.fst = List.range n ∧ bytes = m.map Prod.snd := by
  unfold Memory.bytes
  split <;> simp_all [eq_comm]

theorem Memory.bytes_ofBytes (bytes : List Byte) :
    (Memory.ofBytes 0 bytes).bytes bytes.length = some bytes := by
  rw [Memory.bytes_eq_some, Memory.ofBytes_addresses, Memory.ofBytes_values]
  exact ⟨List.range_eq_range'.symm, rfl⟩

theorem Memory.length_of_bytes {n : Nat} {m : Memory} {bytes : List Byte} (h : m.bytes n = some bytes) :
    bytes.length = n := by
  obtain ⟨h₁, rfl⟩ := Memory.bytes_eq_some.mp h
  have := congrArg List.length h₁
  simpa using this

theorem Memory.eq_ofBytes_of_addresses (m : Memory) (base : Nat)
    (h : m.map Prod.fst = List.range' base m.length) : m = Memory.ofBytes base (m.map Prod.snd) := by
  induction m generalizing base with
  | nil => rfl
  | cons c m ih =>
    obtain ⟨a, b⟩ := c
    simp only [List.map_cons, List.length_cons, List.range'_succ, List.cons.injEq] at h
    simp only [List.map_cons, Memory.ofBytes]
    rw [← ih (base + 1) h.2, h.1]

/-- A buffer that reads as the bytes `bytes` is the buffer those bytes make. -/
theorem Memory.eq_ofBytes {n : Nat} {m : Memory} {bytes : List Byte} (h : m.bytes n = some bytes) :
    m = Memory.ofBytes 0 bytes := by
  obtain ⟨h₁, rfl⟩ := Memory.bytes_eq_some.mp h
  refine Memory.eq_ofBytes_of_addresses m 0 ?_
  have hl : m.length = n := by simpa using congrArg List.length h₁
  rw [h₁, hl, List.range_eq_range']

theorem Memory.read_of_bytes {n : Nat} {m : Memory} {bytes : List Byte} (h : m.bytes n = some bytes) (a : Nat) :
    m.read a = bytes[a]? := by
  rw [Memory.eq_ofBytes h, Memory.read_ofBytes_zero]

/-! ### The frame given to an operation -/

theorem State.withFrame_of_bytes {s : State} {bytes : List Byte} (h : s.fb.bytes s.P.frameLenMax = some bytes)
    (k : List Byte → Out) : s.withFrame k = k bytes := by
  unfold State.withFrame
  rw [h]

/-- If an operation on the frame answers a next state, it had the bytes of the whole buffer. -/
theorem State.withFrame_next {s t : State} {k : List Byte → Out} (h : s.withFrame k = .next t) :
    ∃ bytes, s.fb.bytes s.P.frameLenMax = some bytes ∧ k bytes = .next t := by
  unfold State.withFrame at h
  split at h
  · exact ⟨_, ‹_›, h⟩
  · cases h

end Sys2Proof.Machine
end

