-- ==== Sys2Proof/Laws/Ops.lean ====
section
/-! SUPPORT. What each shared operation can do, said once. -/

namespace Sys2Proof.Machine

/-! ### `require` and operands -/

@[simp] theorem require_true (m : String) (k : Out) : require m true k = k := rfl

@[simp] theorem require_false (m : String) (k : Out) : require m false k = .refused (.notEnabled m) := rfl

/-- A required condition holds wherever the operation answers a next state. -/
theorem require_next {m : String} {c : Bool} {k : Out} {t : State} (h : require m c k = .next t) :
    c = true ∧ k = .next t := by
  cases c with
  | false => cases h
  | true => exact ⟨rfl, h⟩

theorem require_fault {m : String} {c : Bool} {k : Out} {f : Fault} (h : require m c k = .fault f) :
    c = true ∧ k = .fault f := by
  cases c with
  | false => cases h
  | true => exact ⟨rfl, h⟩

theorem withRatio_of_ne {r : Ratio} (h : r.den ≠ 0) (k : NUM → Out) : withRatio r k = k (ratioValue r) :=
  if_neg h

theorem withSRatio_of_ne {r : SRatio} (h : r.den ≠ 0) (k : NUM → Out) : withSRatio r k = k (sratioValue r) :=
  if_neg h

theorem withRatio_next {r : Ratio} {k : NUM → Out} {t : State} (h : withRatio r k = .next t) :
    r.den ≠ 0 ∧ k (ratioValue r) = .next t := by
  unfold withRatio at h
  split at h
  · cases h
  · exact ⟨‹_›, h⟩

theorem withSRatio_next {r : SRatio} {k : NUM → Out} {t : State} (h : withSRatio r k = .next t) :
    r.den ≠ 0 ∧ k (sratioValue r) = .next t := by
  unfold withSRatio at h
  split at h
  · cases h
  · exact ⟨‹_›, h⟩

/-! ### Channels and run bits -/

theorem hasRoom_iff {α : Type} (ch : List α) (depth need : Nat) :
    hasRoom ch depth need = true ↔ ch.length + need ≤ depth := by simp [hasRoom]

theorem stageBit_lt (st : Stage) : stageBit st < 4 := by cases st <;> decide

theorem stageBit_injective {st st' : Stage} (h : stageBit st = stageBit st') : st = st' := by
  cases st <;> cases st' <;> first | rfl | cases h

theorem setRun_bit (ctrl : BitVec 4) (st st' : Stage) :
    (setRun ctrl st).getLsbD (stageBit st') = (decide (st = st') || ctrl.getLsbD (stageBit st')) := by
  revert ctrl
  cases st <;> cases st' <;> decide

theorem clearRun_bit (ctrl : BitVec 4) (st st' : Stage) :
    (clearRun ctrl st).getLsbD (stageBit st') = (!decide (st = st') && ctrl.getLsbD (stageBit st')) := by
  revert ctrl
  cases st <;> cases st' <;> decide

/-! ### The slicer's shift register -/

theorem shiftBit_zero (r : BitVec 8) (b : Bool) : (shiftBit r b).getLsbD 0 = b := by
  revert r
  cases b <;> decide

theorem shiftBit_succ (r : BitVec 8) (b : Bool) (i : Nat) (h : i < 7) :
    (shiftBit r b).getLsbD (i + 1) = r.getLsbD i := by
  have : ∀ k : Fin 7, (shiftBit r b).getLsbD (k.val + 1) = r.getLsbD k.val := by
    revert r
    cases b <;> decide +kernel
  exact this ⟨i, h⟩

end Sys2Proof.Machine
end

