-- ==== Sys2Proof/Laws/Exec.lean ====
section
/-! SUPPORT. What each operation can do, said once: if its meaning answers a next state, then its `require` lines
held and the next state is this one. -/

namespace Sys2Proof.Machine

theorem execReset_next {s t : State} (h : execReset s = .next t) :
    t = { State.powerOn s.params with trace := s.trace, results := s.results } := by
  cases h; rfl

theorem execStageStart_next {st : Stage} {s t : State} (h : execStageStart st s = .next t) :
    t = { s with ctrl := setRun s.ctrl st } := by
  cases h; rfl

theorem execStageStop_next {st : Stage} {s t : State} (h : execStageStop st s = .next t) :
    t = { s with ctrl := clearRun s.ctrl st } := by
  cases h; rfl

theorem execStRead_next {s t : State} (h : execStRead s = .next t) : t = s.returning (.status s.status) := by
  cases h; rfl

/-- The two outcomes of a `TR.CFG` that happens: accepted and rejected. -/
theorem trCfgNum_next {r d w v o : NUM} {s t : State} (h : trCfgNum r d w v o s = .next t) :
    s.running .tr = false ∧
      ((trCfgOk r d w v o = true ∧ t = s.configureTr (trConfigOf s.P r d w v o)) ∨
        (trCfgOk r d w v o = false ∧ t = { s with tr := .unconfigured })) := by
  obtain ⟨hc, hk⟩ := require_next h
  refine ⟨by simpa using hc, ?_⟩
  split at hk
  · rename_i hok
    cases hk
    exact .inl ⟨hok, rfl⟩
  · rename_i hok
    cases hk
    exact .inr ⟨by simpa using hok, rfl⟩

theorem execTrCfg_next {r d w v o : Ratio} {s t : State} (h : execTrCfg r d w v o s = .next t) :
    (r.den ≠ 0 ∧ d.den ≠ 0 ∧ w.den ≠ 0 ∧ v.den ≠ 0 ∧ o.den ≠ 0) ∧
      trCfgNum (ratioValue r) (ratioValue d) (ratioValue w) (ratioValue v) (ratioValue o) s = .next t := by
  obtain ⟨hr, h⟩ := withRatio_next h
  obtain ⟨hd, h⟩ := withRatio_next h
  obtain ⟨hw, h⟩ := withRatio_next h
  obtain ⟨hv, h⟩ := withRatio_next h
  obtain ⟨ho, h⟩ := withRatio_next h
  exact ⟨⟨hr, hd, hw, hv, ho⟩, h⟩

theorem inSampleNum_next {x : NUM} {s t : State} (h : inSampleNum x s = .next t) :
    s.chIn.length + 1 ≤ s.P.depthIn ∧ t = { s with chIn := s.chIn ++ [x] } := by
  obtain ⟨hc, hk⟩ := require_next h
  cases hk
  exact ⟨(hasRoom_iff _ _ _).mp hc, rfl⟩

theorem execInSample_next {v : SRatio} {s t : State} (h : execInSample v s = .next t) :
    v.den ≠ 0 ∧ s.chIn.length + 1 ≤ s.P.depthIn ∧ t = { s with chIn := s.chIn ++ [sratioValue v] } := by
  obtain ⟨hv, h⟩ := withSRatio_next h
  exact ⟨hv, inSampleNum_next h⟩

theorem execTrStep_next {s t : State} (h : execTrStep s = .next t) :
    ∃ cfg freq x rest, s.tr = .configured cfg freq ∧ s.chIn = x :: rest ∧ s.running .tr = true ∧
      s.chSym.length + maxPush cfg.l ≤ s.P.depthSym ∧ t = s.afterTrStep cfg freq x rest := by
  unfold execTrStep at h
  split at h
  · rename_i cfg freq x rest htr hin
    obtain ⟨hc, hk⟩ := require_next h
    cases hk
    rw [Bool.and_eq_true, hasRoom_iff] at hc
    exact ⟨cfg, freq, x, rest, htr, hin, hc.1, hc.2, rfl⟩
  · cases h

theorem symPushNum_next {x : NUM} {s t : State} (h : symPushNum x s = .next t) :
    s.running .tr = false ∧ s.chSym.length + 1 ≤ s.P.depthSym ∧ t = { s with chSym := s.chSym ++ [x] } := by
  obtain ⟨hc, hk⟩ := require_next h
  cases hk
  rw [Bool.and_eq_true, hasRoom_iff] at hc
  exact ⟨by simpa using hc.1, hc.2, rfl⟩

theorem execSymPush_next {v : SRatio} {s t : State} (h : execSymPush v s = .next t) :
    v.den ≠ 0 ∧ s.running .tr = false ∧ s.chSym.length + 1 ≤ s.P.depthSym ∧
      t = { s with chSym := s.chSym ++ [sratioValue v] } := by
  obtain ⟨hv, h⟩ := withSRatio_next h
  exact ⟨hv, symPushNum_next h⟩

theorem execSlStep_next {s t : State} (h : execSlStep s = .next t) :
    ∃ v rest, s.chSym = v :: rest ∧ s.running .sl = true ∧ s.chByte.length + 1 ≤ s.P.depthByte ∧
      t = s.afterSlStep v rest := by
  unfold execSlStep at h
  split at h
  · rename_i v rest hsym
    obtain ⟨hc, hk⟩ := require_next h
    cases hk
    rw [Bool.and_eq_true, hasRoom_iff] at hc
    exact ⟨v, rest, hsym, hc.1, hc.2, rfl⟩
  · cases h

theorem execBytePop_next {s t : State} (h : execBytePop s = .next t) :
    ∃ b rest, s.chByte = b :: rest ∧ t = { s with chByte := rest, results := s.results ++ [.byte b] } := by
  unfold execBytePop at h
  split at h
  · rename_i b rest hch
    cases h
    exact ⟨b, rest, hch, rfl⟩
  · cases h

theorem execFrLoad_next {blk : List Byte} {s t : State} (h : execFrLoad blk s = .next t) :
    blk.length = s.P.frameLenMax ∧ s.fbState = .empty ∧
      t = { s with
        fb := Memory.ofBytes 0 blk
        fecInvalid := List.replicate s.P.rsDepth false
        fecMode := false
        fbState := .loaded } := by
  unfold execFrLoad at h
  split at h
  · obtain ⟨hc, hk⟩ := require_next h
    cases hk
    exact ⟨‹_›, by simpa using hc, rfl⟩
  · cases h

theorem execDsRun_next {s t : State} (h : execDsRun s = .next t) :
    s.running .ds = true ∧ s.fbState = .loaded ∧ ∃ bytes, s.fb.bytes s.P.frameLenMax = some bytes ∧
      t = { s with fb := Memory.ofBytes 0 (descramble s.P bytes), fbState := .descrambled } := by
  obtain ⟨hc, hk⟩ := require_next h
  obtain ⟨bytes, hb, hk⟩ := State.withFrame_next hk
  cases hk
  simp only [Bool.and_eq_true, beq_iff_eq] at hc
  exact ⟨hc.1, hc.2, bytes, hb, rfl⟩

theorem execFecRun_next {s t : State} (h : execFecRun s = .next t) :
    s.running .fec = true ∧ s.fbState = .descrambled ∧ ∃ frame, s.fb.bytes s.P.frameLenMax = some frame ∧
      t = { s with
        fb := Memory.ofBytes 0 (fecBlocks s.P (frameMode s.P frame) frame).1
        fecMode := frameMode s.P frame
        fecInvalid := (fecBlocks s.P (frameMode s.P frame) frame).2
        fbState := .corrected } := by
  obtain ⟨hc, hk⟩ := require_next h
  obtain ⟨frame, hb, hk⟩ := State.withFrame_next hk
  cases hk
  simp only [Bool.and_eq_true, beq_iff_eq] at hc
  exact ⟨hc.1, hc.2, frame, hb, rfl⟩

theorem execFrRead_next {s t : State} (h : execFrRead s = .next t) :
    s.fbState = .corrected ∧ ∃ bytes, s.fb.bytes s.P.frameLenMax = some bytes ∧
      t = { s with
        fbState := .empty
        results := s.results ++ [.frame bytes s.fecMode s.fecInvalid] } := by
  obtain ⟨hc, hk⟩ := require_next h
  obtain ⟨bytes, hb, hk⟩ := State.withFrame_next hk
  cases hk
  exact ⟨by simpa using hc, bytes, hb, rfl⟩

/-! ### Lengths kept by the frame operations -/

theorem descramble_length (P : Params) (block : List Byte) : (descramble P block).length = block.length := by
  simp [descramble]

theorem writeBack_length (P : Params) (ext : Bool) (j : Nat) (msg frame : List Byte) :
    (writeBack P ext j msg frame).length = frame.length := by
  unfold writeBack
  induction List.range (msgLen P ext) generalizing frame with
  | nil => rfl
  | cons i is ih => rw [List.foldl_cons, ih, List.length_set]

theorem fecBlock_length (P : Params) (ext : Bool) (t : List Byte × List Bool) (j : Nat) :
    (fecBlock P ext t j).1.length = t.1.length ∧ (fecBlock P ext t j).2.length = t.2.length + 1 := by
  unfold fecBlock
  split <;> simp [writeBack_length]

theorem fecBlocks_foldl_length (P : Params) (ext : Bool) (js : List Nat) (t : List Byte × List Bool) :
    (js.foldl (fecBlock P ext) t).1.length = t.1.length ∧
      (js.foldl (fecBlock P ext) t).2.length = t.2.length + js.length := by
  induction js generalizing t with
  | nil => simp
  | cons j js ih =>
    have := fecBlock_length P ext t j
    have := ih (fecBlock P ext t j)
    simp only [List.foldl_cons, List.length_cons]
    omega

theorem fecBlocks_length (P : Params) (ext : Bool) (frame : List Byte) :
    (fecBlocks P ext frame).1.length = frame.length ∧ (fecBlocks P ext frame).2.length = P.rsDepth := by
  have := fecBlocks_foldl_length P ext (List.range P.rsDepth) (frame, [])
  simpa [fecBlocks] using this

end Sys2Proof.Machine
end

