-- ==== Sys2Proof/Laws/Field.lean ====
section
/-! SUPPORT. First laws of the field product: it is additive in each factor, for any field polynomial. -/

namespace Sys2Proof.Machine

theorem shiftedIfBit_eq (a b i : Nat) : shiftedIfBit a b i = if b.testBit i then a <<< i else 0 := by
  unfold shiftedIfBit
  rw [Nat.testBit_eq_decide_div_mod_eq, Nat.shiftRight_eq_div_pow]
  have : b / 2 ^ i % 2 = 0 ∨ b / 2 ^ i % 2 = 1 := by omega
  rcases this with h | h <;> simp [h]

theorem shiftedIfBit_xor_right (a b c i : Nat) :
    shiftedIfBit a (b ^^^ c) i = shiftedIfBit a b i ^^^ shiftedIfBit a c i := by
  simp only [shiftedIfBit_eq, Nat.testBit_xor]
  cases b.testBit i <;> cases c.testBit i <;> simp

theorem shiftedIfBit_xor_left (a b c i : Nat) :
    shiftedIfBit (a ^^^ b) c i = shiftedIfBit a c i ^^^ shiftedIfBit b c i := by
  simp only [shiftedIfBit_eq]
  cases c.testBit i <;> simp [Nat.shiftLeft_xor_distrib]

theorem carryless_xor_right (a b c : Nat) : carryless a (b ^^^ c) = carryless a b ^^^ carryless a c := by
  simp only [carryless, shiftedIfBit_xor_right]
  ac_rfl

theorem carryless_xor_left (a b c : Nat) : carryless (a ^^^ b) c = carryless a c ^^^ carryless b c := by
  simp only [carryless, shiftedIfBit_xor_left]
  ac_rfl

theorem reduceBit_xor (poly i a b : Nat) :
    reduceBit poly i (a ^^^ b) = reduceBit poly i a ^^^ reduceBit poly i b := by
  have h : ∀ r, reduceBit poly i r = r ^^^ shiftedIfBit (poly <<< (i - 8)) (r >>> i) 0 := fun r => by
    simp [reduceBit, shiftedIfBit]
  rw [h, h, h, Nat.shiftRight_xor_distrib, shiftedIfBit_xor_right]
  ac_rfl

theorem reduceBy_xor (poly a b : Nat) : reduceBy poly (a ^^^ b) = reduceBy poly a ^^^ reduceBy poly b := by
  simp only [reduceBy, reduceBit_xor]

theorem ofNat8_xor (a b : Nat) : BitVec.ofNat 8 (a ^^^ b) = BitVec.ofNat 8 a ^^^ BitVec.ofNat 8 b := by
  apply BitVec.eq_of_getLsbD_eq
  intro i h
  simp [h]

/-- R162: the product distributes over the sum, on the right. -/
theorem gmul_gadd_right (poly : BitVec 9) (a b c : Byte) :
    gmul poly a (gadd b c) = gadd (gmul poly a b) (gmul poly a c) := by
  simp only [gmul, gadd, BitVec.toNat_xor, carryless_xor_right, reduceBy_xor, ofNat8_xor]

/-- R162: the product distributes over the sum, on the left. -/
theorem gmul_gadd_left (poly : BitVec 9) (a b c : Byte) :
    gmul poly (gadd a b) c = gadd (gmul poly a c) (gmul poly b c) := by
  simp only [gmul, gadd, BitVec.toNat_xor, carryless_xor_left, reduceBy_xor, ofNat8_xor]

/-- R161: every element is its own negative. -/
theorem gadd_self (a : Byte) : gadd a a = 0 := BitVec.xor_self

theorem gadd_comm (a b : Byte) : gadd a b = gadd b a := BitVec.xor_comm a b

theorem gadd_assoc (a b c : Byte) : gadd (gadd a b) c = gadd a (gadd b c) := BitVec.xor_assoc a b c

/-- The primitive polynomials of degree 8, found by R8's test. -/
theorem primitive_cases : ∀ poly : BitVec 9, isPrimitive poly = true →
    poly ∈ ([0x11D, 0x12B, 0x12D, 0x14D, 0x15F, 0x163, 0x165, 0x169, 0x171, 0x187, 0x18D, 0x1A9, 0x1C3, 0x1CF,
      0x1E7, 0x1F5] : List (BitVec 9)) := by
  decide +kernel

end Sys2Proof.Machine
end

