-- ==== Sys2Proof/Laws/PerInstr.lean ====
section
/-! SUPPORT. Facts about every operation as a term, one lemma per constructor. -/

namespace Sys2Proof.Laws.EncodingLength

/-- 30_encoding.md R91: a well-formed operation has as many bytes as its op code says. -/
def Statement (i : Instr) : Prop :=
  ∀ P : Params, i.wellFormed P = true → (encode i).length = i.op.length P

theorem reset : Statement .reset := fun _ _ => rfl
theorem stageStart (st : Stage) : Statement (.stageStart st) := fun _ _ => rfl
theorem stageStop (st : Stage) : Statement (.stageStop st) := fun _ _ => rfl
theorem stRead : Statement .stRead := fun _ _ => rfl
theorem trCfg (r d w v o : Ratio) : Statement (.trCfg r d w v o) := fun _ _ => rfl
theorem inSample (v : SRatio) : Statement (.inSample v) := fun _ _ => rfl
theorem trStep : Statement .trStep := fun _ _ => rfl
theorem symPush (v : SRatio) : Statement (.symPush v) := fun _ _ => rfl
theorem slStep : Statement .slStep := fun _ _ => rfl
theorem bytePop : Statement .bytePop := fun _ _ => rfl
theorem frLoad (blk : List Byte) : Statement (.frLoad blk) := fun P h => by
  have h : blk.length = P.frameLenMax := by simpa [Instr.wellFormed, blockWellFormed] using h
  simp [encode, encodeOperands, Instr.op, Op.length, Op.operandBytes, h, Nat.add_comm]
theorem dsRun : Statement .dsRun := fun _ _ => rfl
theorem fecRun : Statement .fecRun := fun _ _ => rfl
theorem frRead : Statement .frRead := fun _ _ => rfl

end Sys2Proof.Laws.EncodingLength
end

