-- ==== Sys2Proof/Machine/Text.lean ====
section
/-! DEFINITION. The text form of a trace (30_encoding.md R100), read line by line into operations and
pseudo-operations. -/

namespace Sys2Proof.Machine

/-- One line of a trace. -/
inductive Line where
  /-- No operation: white space or a comment. -/
  | blank
  /-- An operation of R88. -/
  | op (i : Instr)
  /-- A pseudo-operation of R101. -/
  | pseudo (p : Pseudo)
  deriving DecidableEq, Repr

/-- A text is read as a list of characters. -/
abbrev Text := List Char

/-- A blank within a line. -/
def isSpace (c : Char) : Bool := c == ' ' || c == '\t' || c == '\r'

/-- The text without the white space at both ends. -/
def trim (t : Text) : Text := ((t.dropWhile isSpace).reverse.dropWhile isSpace).reverse

/-- The value of a decimal numeral, `none` if the text is none. -/
def decimal (t : Text) : Option Nat :=
  if t.isEmpty then none
  else t.foldl (fun acc c => acc.bind fun n =>
    if '0' ≤ c ∧ c ≤ '9' then some (n * 10 + (c.toNat - 48)) else none) (some 0)

/-- An unsigned 16-bit numeral. -/
def decimal16 (t : Text) : Option (BitVec 16) :=
  (decimal t).bind fun n => if n < 65536 then some (BitVec.ofNat 16 n) else none

/-- A signed 16-bit numeral, a negative one with a leading `-`. -/
def signed16 : Text → Option (BitVec 16)
  | '-' :: t => (decimal t).bind fun n => if n ≤ 32768 then some (BitVec.ofInt 16 (-(n : Int))) else none
  | t => (decimal t).bind fun n => if n ≤ 32767 then some (BitVec.ofNat 16 n) else none

/-- The two sides of the first `/` of an operand; the denominator is 1 where there is none. -/
def fraction (t : Text) : Text × Text :=
  match t.span (· != '/') with
  | (num, _ :: den) => (num, den)
  | (num, []) => (num, ['1'])

/-- A `RAT` operand, `num/den` or `num`; a zero denominator is refused (R95). -/
def readRatio (t : Text) : Option Ratio :=
  (decimal16 (fraction t).1).bind fun num => (decimal16 (fraction t).2).bind fun den =>
    if den = 0 then none else some ⟨num, den⟩

/-- An `SRAT` operand (R96). -/
def readSRatio (t : Text) : Option SRatio :=
  (signed16 (fraction t).1).bind fun num => (decimal16 (fraction t).2).bind fun den =>
    if den = 0 then none else some ⟨num, den⟩

/-- A stage: `TR`, `SL`, `DS` or `FEC`. -/
def readStage (t : Text) : Option Stage :=
  if t = ['T', 'R'] then some .tr else if t = ['S', 'L'] then some .sl
  else if t = ['D', 'S'] then some .ds else if t = ['F', 'E', 'C'] then some .fec else none

/-- One hexadecimal digit. -/
def hexDigit (c : Char) : Option Nat :=
  if '0' ≤ c ∧ c ≤ '9' then some (c.toNat - 48)
  else if 'A' ≤ c ∧ c ≤ 'F' then some (c.toNat - 55)
  else if 'a' ≤ c ∧ c ≤ 'f' then some (c.toNat - 87) else none

/-- Bytes of two hexadecimal digits each. -/
def hexBytes : Text → Option (List Byte)
  | [] => some []
  | [_] => none
  | hi :: lo :: t =>
    (hexDigit hi).bind fun h => (hexDigit lo).bind fun l =>
      (hexBytes t).map (BitVec.ofNat 8 (16 * h + l) :: ·)

/-- A frame block of `FRAME_LEN_MAX` bytes: hexadecimal, white space ignored, or `@name` of a block listed in
`env`. -/
def readBlock (P : Params) (env : List (Text × List Byte)) (t : Text) : Option (List Byte) :=
  let bytes := match t with
    | '@' :: name => (env.find? (fun e : Text × List Byte => e.1 == name)).map Prod.snd
    | _ => hexBytes (t.filter (fun c => !isSpace c))
  bytes.bind fun b => if blockWellFormed P b then some b else none

/-- The operands of a line, separated by commas. -/
def readOperands (t : Text) : List Text :=
  if (trim t).isEmpty then [] else (t.splitOn ',').map trim

/-- The mnemonics of R88 that take no operand, with their operations. -/
def plainOps : List (String × Line) :=
  [("RESET", .op .reset), ("ST.READ", .op .stRead), ("TR.STEP", .op .trStep), ("SL.STEP", .op .slStep),
    ("BYTE.POP", .op .bytePop), ("DS.RUN", .op .dsRun), ("FEC.RUN", .op .fecRun), ("FR.READ", .op .frRead),
    ("START.ALL", .pseudo .startAll), ("STOP.ALL", .pseudo .stopAll), ("DRAIN.SL", .pseudo .drainSl)]

/-- A mnemonic is the given name. -/
def named (mnemonic : Text) (name : String) : Bool := mnemonic == name.toList

/-- The line with a mnemonic and one operand. -/
def readOne (P : Params) (env : List (Text × List Byte)) (mnemonic operand : Text) : Option Line :=
  if named mnemonic "STAGE.START" then (readStage operand).map (fun st => .op (.stageStart st))
  else if named mnemonic "STAGE.STOP" then (readStage operand).map (fun st => .op (.stageStop st))
  else if named mnemonic "IN.SAMPLE" then (readSRatio operand).map (fun v => .op (.inSample v))
  else if named mnemonic "SYM.PUSH" then (readSRatio operand).map (fun v => .op (.symPush v))
  else if named mnemonic "FEED" then (readSRatio operand).map (fun v => .pseudo (.feed v))
  else if named mnemonic "FR.LOAD" then (readBlock P env operand).map (fun b => .op (.frLoad b))
  else if named mnemonic "FRAME.PROCESS" then
    (readBlock P env operand).map (fun b => .pseudo (.frameProcess b))
  else none

/-- R100: one line of the text of a trace; `none` if it is not one. -/
def readLine (P : Params) (env : List (Text × List Byte)) (line : Text) : Option Line :=
  let text := trim (line.takeWhile (· != '#'))
  if text.isEmpty then some .blank
  else
    let mnemonic := text.takeWhile (fun c => !isSpace c)
    match readOperands (text.dropWhile (fun c => !isSpace c)) with
    | [] => (plainOps.find? (fun e => named mnemonic e.1)).map Prod.snd
    | [a] => readOne P env mnemonic a
    | [a, b, c, d, e] =>
      if named mnemonic "TR.CFG" then
        (readRatio a).bind fun a => (readRatio b).bind fun b => (readRatio c).bind fun c =>
          (readRatio d).bind fun d => (readRatio e).map fun e => .op (.trCfg a b c d e)
      else none
    | _ => none

end Sys2Proof.Machine
end

