-- ==== Sys2Proof/Tests/Slice0.lean ====
section
/-! SUPPORT. The model's own tests: ill-formed terms are refused, every operation decodes from bytes written out from
the spec, one step of every operation does what 95_test_vectors.md says, and the hypotheses of every statement are
met by something. "V-…" names a vector of 95_test_vectors.md. -/

namespace Sys2Proof.Tests

open Sys2Proof Sys2Proof.Machine

set_option Elab.async false

/-! ### Ill-formed terms -/

theorem test_ratio_zero_denominator_illFormed : Ratio.wellFormed ⟨1, 0⟩ = false := by decide
theorem test_sratio_zero_denominator_illFormed : SRatio.wellFormed ⟨1, 0⟩ = false := by decide
theorem test_short_block_illFormed : blockWellFormed Params.rs41 [0, 1, 2] = false := by decide
theorem test_inSample_illFormed : Instr.wellFormed Params.rs41 (.inSample ⟨1, 0⟩) = false := by decide
theorem test_symPush_illFormed : Instr.wellFormed Params.rs41 (.symPush ⟨1, 0⟩) = false := by decide
theorem test_frLoad_illFormed : Instr.wellFormed Params.rs41 (.frLoad []) = false := by decide
/-- Each of the five operands of `TR.CFG` is checked. -/
theorem test_trCfg_illFormed :
    Instr.wellFormed Params.rs41 (.trCfg ⟨1, 0⟩ ⟨1, 1⟩ ⟨1, 1⟩ ⟨1, 1⟩ ⟨1, 1⟩) = false ∧
    Instr.wellFormed Params.rs41 (.trCfg ⟨1, 1⟩ ⟨1, 0⟩ ⟨1, 1⟩ ⟨1, 1⟩ ⟨1, 1⟩) = false ∧
    Instr.wellFormed Params.rs41 (.trCfg ⟨1, 1⟩ ⟨1, 1⟩ ⟨1, 0⟩ ⟨1, 1⟩ ⟨1, 1⟩) = false ∧
    Instr.wellFormed Params.rs41 (.trCfg ⟨1, 1⟩ ⟨1, 1⟩ ⟨1, 1⟩ ⟨1, 0⟩ ⟨1, 1⟩) = false ∧
    Instr.wellFormed Params.rs41 (.trCfg ⟨1, 1⟩ ⟨1, 1⟩ ⟨1, 1⟩ ⟨1, 1⟩ ⟨1, 0⟩) = false := by decide
/-- 00_scope.md R8: a record whose field polynomial is not primitive is refused; the defaults are accepted. -/
theorem test_params_accept : (Params.rs41.accept).isSome = true ∧
    ({ Params.rs41 with rsFieldPoly := 0x11B }.accept).isSome = false := by decide +kernel

/-! ### Decoding (V-ENC-1 to V-ENC-18) -/

/-- The operation that is the whole of a byte string. -/
def decodeAll (bs : List Byte) : Option (List Instr) := decodeTrace Params.rs41 bs

theorem test_decode_reset : decodeAll [0x00] = some [.reset] := by decide +kernel
theorem test_decode_stageStart : decodeAll [0x01, 0, 0x01, 1, 0x01, 2, 0x01, 3] =
    some [.stageStart .tr, .stageStart .sl, .stageStart .ds, .stageStart .fec] := by decide +kernel
theorem test_decode_stageStop : decodeAll [0x02, 0x03] = some [.stageStop .fec] := by decide +kernel
theorem test_decode_stRead : decodeAll [0x03] = some [.stRead] := by decide +kernel
theorem test_decode_trCfg : decodeAll [0x10, 0x00, 0x01, 0x00, 0x04, 0x00, 0x01, 0x00, 0x01, 0x00, 0x01, 0x00, 0x08,
    0x00, 0x01, 0x00, 0x64, 0x00, 0x08, 0x00, 0x01] =
    some [.trCfg ⟨1, 4⟩ ⟨1, 1⟩ ⟨1, 8⟩ ⟨1, 100⟩ ⟨8, 1⟩] := by decide +kernel
theorem test_decode_inSample : decodeAll [0x11, 0x80, 0x00, 0xFF, 0xFF] = some [.inSample ⟨0x8000, 0xFFFF⟩] := by
  decide +kernel
theorem test_decode_inSample_unreduced : decodeAll [0x11, 0x00, 0x02, 0x00, 0x04] = some [.inSample ⟨2, 4⟩] := by
  decide +kernel
theorem test_decode_symPush : decodeAll [0x20, 0x00, 0x03, 0x00, 0x04] = some [.symPush ⟨3, 4⟩] := by decide +kernel
theorem test_decode_front_steps : decodeAll [0x12, 0x21, 0x22] = some [.trStep, .slStep, .bytePop] := by
  decide +kernel
theorem test_decode_back_steps : decodeAll [0x31, 0x32, 0x33] = some [.dsRun, .fecRun, .frRead] := by decide +kernel
theorem test_decode_frLoad : decodeAll (0x30 :: List.replicate 510 0xA5) =
    some [.frLoad (List.replicate 510 0xA5)] := by decide +kernel
theorem test_decode_reserved : decodeAll [0x04] = none := by decide +kernel
theorem test_decode_bad_stage : decodeAll [0x01, 0x04] = none := by decide +kernel
theorem test_decode_zero_denominator : decodeAll [0x11, 0x00, 0x01, 0x00, 0x00] = none := by decide +kernel
theorem test_decode_cut_off : decodeAll [0x10, 0x00, 0x01, 0x00, 0x04] = none := by decide +kernel
theorem test_decode_invalid_as_a_whole : decodeAll [0x00, 0xFF] = none := by decide +kernel

/-- 30_encoding.md R100: a line of text with a comment. -/
theorem test_readLine :
    readLine Params.rs41 [] "  IN.SAMPLE -1/2   # comment".toList = some (.op (.inSample ⟨0xFFFF, 2⟩)) := by
  decide +kernel

/-! ### Small states

`toy` is a well-formed record with one codeword in a frame of five bytes. -/

/-- Parameters with small sizes: `RS_T = 1`, `RS_DEPTH = 1`, one data byte, one extension byte. -/
def toy : Params :=
  { Params.rs41 with
    rsK := 253, rsT := 1, rsDepth := 1, dataLen := 1, extLen := 1, prnPeriod := 2, prn := [0x96, 0x83]
    depthIn := 2, depthSym := 8, depthByte := 1 }

theorem toy_wf : toy.Wf := by decide +kernel

/-- The toy block right after reset, all four stages started. -/
def toyState : State := { State.powerOn ⟨toy, toy_wf⟩ with ctrl := 15 }

/-- The toy block with a frame in the buffer. -/
def toyFrame (st : FbState) (bytes : List Byte) : State :=
  { toyState with fb := Memory.ofBytes 0 bytes, fbState := st }

/-- The configuration of V-TR-1. -/
def trV1 : TrConfig := trConfigOf Params.rs41 (1/4) 1 (1/8) (1/100) 8

/-- V-TR-1 before input sample 4: the next timeslot is a strobe. -/
def trState : State :=
  { State.reset with
    ctrl := 1, chIn := [0], tr := .configured trV1 (1/8), trDl := [1/2, 1], trPhase := 0, trYPrev := 3/4
    trYEarly := 1, trYOntime := 3/4, trFsm := .strobe, trErr := 0 }

/-- The state an outcome leads to. -/
def got : Out → Option State
  | .next t => some t
  | .fault _ => none
  | .refused _ => none

theorem next_of_got {o : Out} (h : (got o).isSome = true) : ∃ t, o = .next t := by
  cases o with
  | next t => exact ⟨t, rfl⟩
  | fault f => exact absurd h (by simp [got])
  | refused r => exact absurd h (by simp [got])

theorem next_with_got {o : Out} (p : State → Bool) (h : (got o).any p = true) : ∃ t, o = .next t ∧ p t = true := by
  cases o with
  | next t => exact ⟨t, rfl, h⟩
  | fault f => exact absurd h (by simp [got])
  | refused r => exact absurd h (by simp [got])

/-- The refusal an outcome is. -/
def refusal : Out → Option Refusal
  | .refused r => some r
  | .next _ => none
  | .fault _ => none

/-! ### One step of each operation -/

theorem test_reset : (got (exec .reset { trState with slBitcnt := 3 })).map
    (fun t => (t.ctrl, t.slBitcnt, t.tr, t.chIn)) = some (0, 0, .unconfigured, []) := by decide +kernel

/-- V-ST-2. -/
theorem test_stageStart : (got (exec (.stageStart .sl) State.reset)).map (·.status) = some 0x0002 := by
  decide +kernel
theorem test_stageStop : (got (exec (.stageStop .ds) toyState)).map (·.ctrl) = some 0xB := by decide +kernel

/-- V-ST-3: bit by bit different flags. -/
theorem test_stRead : (got (exec .stRead { trState with
      ctrl := 15, trFsm := .advance, fbState := .corrected, fecInvalid := [false, true], slBitcnt := 5 })).map
      (·.results) = some [.status 0x5ADF] := by decide +kernel

/-- V-TRCFG, first row, and 40_timing_recovery.md R114's table for `TR_L = 2`. -/
theorem test_trCfg_accepted : (got (exec (.trCfg ⟨1, 4⟩ ⟨1, 1⟩ ⟨1, 8⟩ ⟨1, 100⟩ ⟨8, 1⟩) State.reset)).map (·.tr) =
    some (.configured
      { rNom := 1/4, damp := 1, bw := 1/8, maxDev := 1/100, osTarget := 8, l := 2, m := 2
        taps := [[0, 1], [1/2, 1/2]], freqNom := 1/8, dev := 1/200, alpha := 32/81, beta := 4/81 } (1/8)) := by
  decide +kernel
/-- V-TRCFG, ninth row: `fnom − dev = 0` is rejected. -/
theorem test_trCfg_rejected :
    (got (exec (.trCfg ⟨1, 4⟩ ⟨1, 1⟩ ⟨1, 8⟩ ⟨1, 4⟩ ⟨8, 1⟩) { trState with ctrl := 0 })).map (·.tr) =
    some .unconfigured := by decide +kernel

/-- V-ENC-6: the numerator is signed. -/
theorem test_inSample : (got (exec (.inSample ⟨0xFFFF, 2⟩) { toyState with chIn := [1] })).map (·.chIn) =
    some [1, -1/2] := by decide +kernel
theorem test_inSample_full : refusal (exec (.inSample ⟨1, 1⟩) { toyState with chIn := [1, 1] }) =
    some (.notEnabled "IN.SAMPLE") := by decide +kernel

/-- V-TR-1, input sample 4: a strobe, then an ordinary timeslot. -/
theorem test_trStep : (got (exec .trStep trState)).map
    (fun t => (t.trPhase, t.trErr, t.chSym, t.trDl, t.chIn)) =
    some (7331/16200, 1/2, [3/4], [0, 1/2], []) := by decide +kernel
/-- V-TR-1, input sample 4: the rate estimate stops at its upper clamp. -/
theorem test_trStep_clamp : (got (exec .trStep trState)).map (·.tr) = some (.configured trV1 (13/100)) := by
  decide +kernel

theorem test_symPush : (got (exec (.symPush ⟨3, 4⟩) { toyState with ctrl := 0, chSym := [1] })).map (·.chSym) =
    some [1, 3/4] := by decide +kernel
/-- P6: `SYM.PUSH` is not enabled while TR runs. -/
theorem test_symPush_running : refusal (exec (.symPush ⟨1, 1⟩) toyState) = some (.notEnabled "SYM.PUSH") := by
  decide +kernel

/-- V-SL-1, the eighth symbol: zero slices to 1, and the byte is 0xA9. -/
theorem test_slStep : (got (exec .slStep { toyState with slShreg := 0x54, slBitcnt := 7, chSym := [0] })).map
    (fun t => (t.chByte, t.slBitcnt, t.slShreg)) = some ([0xA9], 0, 0xA9) := by decide +kernel
/-- V-SL-6, the first symbol: old bits are shifted on, and no byte is pushed. -/
theorem test_slStep_partial : (got (exec .slStep { toyState with slShreg := 7, slBitcnt := 3, chSym := [-1, 1] })).map
    (fun t => (t.chByte, t.slBitcnt, t.slShreg, t.chSym)) = some ([], 4, 0x0E, [1]) := by decide +kernel

theorem test_bytePop : (got (exec .bytePop { toyState with chByte := [0xA9, 0x80] })).map
    (fun t => (t.results, t.chByte)) = some ([.byte 0xA9], [0x80]) := by decide +kernel
/-- P6: `BYTE.POP` is not enabled with `CH_BYTE` empty. -/
theorem test_bytePop_empty : refusal (exec .bytePop toyState) = some (.notEnabled "BYTE.POP") := by decide +kernel

theorem test_frLoad : (got (exec (.frLoad [1, 2, 3, 4, 5]) { toyState with fecMode := true })).map
    (fun t => (t.fb, t.fbState, t.fecMode)) =
    some ([(0, 1), (1, 2), (2, 3), (3, 4), (4, 5)], .loaded, false) := by decide +kernel
/-- P6: a second `FR.LOAD` is not enabled. -/
theorem test_frLoad_loaded : refusal (exec (.frLoad [1, 2, 3, 4, 5]) (toyFrame .loaded [0, 0, 0, 0, 0])) =
    some (.notEnabled "FR.LOAD") := by decide +kernel

/-- V-DS-2 and V-DS-3, with the first two bytes of the default sequence. -/
theorem test_dsRun : (got (exec .dsRun (toyFrame .loaded [0x00, 0x01, 0xFF, 0x5A, 0x00]))).map (·.fb) =
    some [(0, 0x69), (1, 0xFC), (2, 0x96), (3, 0x26), (4, 0x69)] := by decide +kernel
/-- V-DS-2, the rows at positions 2, 63, 64 and 509 under the default sequence. -/
theorem test_descrambleByte : [(2, 0x10), (63, 0x80), (64, 0xFF), (509, 0xA5)].map
    (fun e => descrambleByte Params.rs41 e.1 e.2) = [0xC9, 0x3F, 0x96, 0x21] := by decide +kernel

/-- After V-FEC-2: one wrong message symbol is restored, and the byte after the parity stays. -/
theorem test_fecRun : (got (exec .fecRun (toyFrame .descrambled [0, 7, 0, 0, 9]))).map
    (fun t => (t.fb.map Prod.snd, t.fecInvalid, t.fbState)) =
    some ([0, 0, 0, 0, 9], [false], .corrected) := by decide +kernel
/-- After V-FEC-9: a flag byte 0xF0 chooses the extended mode, which stays after the flag is corrected. -/
theorem test_fecRun_extended : (got (exec .fecRun (toyFrame .descrambled [0xF0, 0, 0, 0, 0]))).map
    (fun t => (t.fb.map Prod.snd, t.fecMode, t.fecInvalid)) =
    some ([0, 0, 0, 0, 0], true, [false]) := by decide +kernel

theorem test_frRead : (got (exec .frRead { toyFrame .corrected [1, 2, 3, 4, 5] with
      fecMode := true, fecInvalid := [true] })).map (fun t => (t.results, t.fbState)) =
    some ([.frame [1, 2, 3, 4, 5] true [true]], .empty) := by decide +kernel
/-- P6: `FR.READ` is not enabled with the buffer empty. -/
theorem test_frRead_empty : refusal (exec .frRead toyState) = some (.notEnabled "FR.READ") := by decide +kernel

/-- V-GF-1. -/
theorem test_field : gmul 0x11D 0x53 0xCA = 0x8F ∧ gmul 0x11D 0xFF 0xFF = 0xE2 ∧ ginv 0x11D 0x53 = 0x8C ∧
    gpow 0x11D 25 = 0x03 ∧ gpow 0x11D (-1) = 0x8E ∧ glog 0x11D 0xFF = 175 := by decide +kernel
/-- V-GF-3: the generator, lowest degree first. -/
theorem test_generator : generator Params.rs41 =
    [0x75, 0x90, 0xD9, 0x7F, 0xF7, 0xED, 0x01, 0xCE, 0x2B, 0x3D, 0x48, 0x82, 0x49, 0xE5, 0x96, 0x73, 0x66, 0xD8,
      0xED, 0xB2, 0x46, 0xA9, 0x76, 0x7A, 0x01] := by decide +kernel

/-! ### The hypotheses of the statements are met

`test_witness_<Name>` meets the hypotheses of `Obligations.<Name>`, each clause at a boundary of its range. -/

theorem test_witness_OperandValues : (⟨0xFFFF, 1⟩ : Ratio).den ≠ 0 ∧
    (⟨0x7FFF, 1⟩ : SRatio).den ≠ 0 ∧ (⟨0x7FFF, 1⟩ : SRatio).num.toNat < 32768 ∧
    (⟨0x8000, 0xFFFF⟩ : SRatio).den ≠ 0 ∧ ¬ (⟨0x8000, 0xFFFF⟩ : SRatio).num.toNat < 32768 := by decide

theorem test_witness_DecodeOfEncode :
    Instr.wellFormed toy (.trCfg ⟨0, 1⟩ ⟨0xFFFF, 0xFFFF⟩ ⟨1, 8⟩ ⟨1, 100⟩ ⟨8, 0xFFFF⟩) = true ∧
    Instr.wellFormed toy (.frLoad [0x30, 0, 0, 0, 0xFF]) = true ∧
    Instr.wellFormed Params.rs41 (.frLoad (List.replicate 510 0)) = true := by decide +kernel

theorem test_witness_EncodeOfDecode :
    decodeFirst toy [0x30, 1, 2, 3, 4, 5, 0x12] = some (.frLoad [1, 2, 3, 4, 5], [0x12]) := by decide +kernel

theorem test_witness_TraceIsOperationsInOrder :
    decodeTrace toy [0x30, 1, 2, 3, 4, 5, 0x12] = some [.frLoad [1, 2, 3, 4, 5], .trStep] := by decide +kernel

/-- Every kind of bad start, at the ends of the reserved ranges. -/
theorem test_witness_InvalidTraceRefused :
    (∀ b ∈ [0x04, 0x0F, 0x13, 0x1F, 0x23, 0x2F, 0x34, 0xFF], BadStart toy [b]) ∧
    BadStart toy [0x02, 4] ∧ BadStart toy [0x20, 0xFF, 0xFF, 0, 0] ∧
    BadStart toy (0x10 :: (List.replicate 16 1 ++ 1 :: 1 :: 0 :: 0 :: [])) ∧
    BadStart toy [0x30, 1, 2, 3, 4] ∧ (∀ i ∈ [Instr.reset, .trStep], i.wellFormed toy = true) ∧
    decodeTrace toyState.P { toyState with trace := [0x00, 0xFF] }.trace = none := by
  refine ⟨fun b hb => Or.inl ⟨b, [], rfl, ?_⟩, Or.inr (Or.inl ⟨0x02, 4, [], rfl, by decide, by decide⟩),
    Or.inr (Or.inr (Or.inl ⟨0x20, 0xFF, 0xFF, [], rfl, by decide⟩)),
    Or.inr (Or.inr (Or.inr (Or.inl ⟨List.replicate 16 1, 1, 1, [], rfl, 4, by decide, rfl⟩))),
    Or.inr (Or.inr (Or.inr (Or.inr ⟨0x30, [1, 2, 3, 4], 5, rfl, by decide, by decide⟩))), by decide,
    by decide +kernel⟩
  revert b
  decide

/-- A state whose trace lists `ST.READ` and then `RESET`. -/
theorem test_witness_StepRunsDecodedOperation :
    Instr.wellFormed toyState.P .stRead = true ∧ { toyState with trace := [0x03, 0x00] }.trace =
      encode .stRead ++ [0x00] ∧ (decodeTrace toyState.P [0x00]).isSome = true ∧ toyState.trace = [] := by
  decide +kernel

theorem test_witness_RunOfTraceIsSchedule :
    ∀ i ∈ [Instr.reset, .frLoad [1, 2, 3, 4, 5], .dsRun, .inSample ⟨1, 1⟩], i.wellFormed toyState.P = true := by
  decide +kernel

/-- Every operation, with a state it happens in. -/
def happening : List (Instr × State) :=
  [(.reset, trState), (.stageStart .tr, toyState), (.stageStop .fec, toyState), (.stRead, toyState),
    (.trCfg ⟨1, 2⟩ ⟨1, 1⟩ ⟨1, 8⟩ ⟨0, 1⟩ ⟨1, 1⟩, { toyState with ctrl := 0 }),
    (.trCfg ⟨1, 1⟩ ⟨1, 1⟩ ⟨1, 8⟩ ⟨0, 1⟩ ⟨1, 1⟩, { toyState with ctrl := 0 }),
    (.inSample ⟨1, 1⟩, { toyState with chIn := [0] }), (.trStep, trState),
    (.symPush ⟨1, 1⟩, { toyState with ctrl := 0xE }), (.slStep, { toyState with chSym := [0] }),
    (.bytePop, { toyState with chByte := [0] }), (.frLoad [1, 2, 3, 4, 5], toyState),
    (.dsRun, toyFrame .loaded [1, 2, 3, 4, 5]), (.fecRun, toyFrame .descrambled [0, 7, 0, 0, 9]),
    (.frRead, toyFrame .corrected [1, 2, 3, 4, 5])]

/-- Operations that are not enabled, one for every `require` line, at the boundary of each capacity. -/
def waiting : List (Instr × State) :=
  [(.trCfg ⟨1, 2⟩ ⟨1, 1⟩ ⟨1, 8⟩ ⟨0, 1⟩ ⟨1, 1⟩, toyState),
    (.inSample ⟨1, 1⟩, { toyState with chIn := [0, 0] }), (.trStep, { trState with ctrl := 0xE }),
    (.trStep, { trState with chIn := [] }), (.trStep, { trState with tr := .unconfigured }),
    (.trStep, { trState with params := ⟨toy, toy_wf⟩, chSym := List.replicate 8 0 }),
    (.symPush ⟨1, 1⟩, toyState), (.symPush ⟨1, 1⟩, { toyState with ctrl := 0, chSym := List.replicate 8 0 }),
    (.slStep, toyState), (.slStep, { toyState with chSym := [0], ctrl := 0xD }),
    (.slStep, { toyState with chSym := [0], chByte := [0] }), (.bytePop, toyState),
    (.frLoad [1, 2, 3, 4, 5], toyFrame .corrected [1, 2, 3, 4, 5]),
    (.dsRun, toyFrame .descrambled [1, 2, 3, 4, 5]), (.dsRun, { toyFrame .loaded [1, 2, 3, 4, 5] with ctrl := 0xB }),
    (.fecRun, toyFrame .loaded [1, 2, 3, 4, 5]), (.fecRun, { toyFrame .descrambled [1, 2, 3, 4, 5] with ctrl := 7 }),
    (.frRead, toyFrame .descrambled [1, 2, 3, 4, 5])]

theorem test_witness_EnabledExactly :
    (∀ e ∈ happening, e.1.wellFormed e.2.P = true ∧ (e.2.fbState ≠ .empty → e.2.FrameWritten) ∧
      enabled e.1 e.2 = true) ∧
    ∀ e ∈ waiting, e.1.wellFormed e.2.P = true ∧ (e.2.fbState ≠ .empty → e.2.FrameWritten) ∧
      enabled e.1 e.2 = false := by decide +kernel

/-- Every operation has a next state somewhere: the witness of the statements whose premise is `exec i s = .next t`. -/
theorem happening_next : ∀ e ∈ happening, ∃ t, exec e.1 e.2 = .next t := by
  intro e he
  refine next_of_got ?_
  revert e
  decide +kernel

theorem test_witness_FbStateTransitions : ∀ e ∈ happening, ∃ t, exec e.1 e.2 = .next t := happening_next
theorem test_witness_WritersOfState : ∀ e ∈ happening, ∃ t, exec e.1 e.2 = .next t := happening_next
theorem test_witness_ChannelsAreLossless :
    ∀ e ∈ happening.drop 1, e.1 ≠ .reset ∧ ∃ t, exec e.1 e.2 = .next t := fun e he =>
  ⟨(by decide +kernel : ∀ e ∈ happening.drop 1, e.1 ≠ .reset) e he, happening_next e (List.mem_of_mem_drop he)⟩

/-- The clauses "it has no step" of the statements about one operation. -/
theorem test_witness_NotEnabledClauses :
    toyState.P.depthIn = { toyState with chIn := [0, 0] }.chIn.length ∧ toyState.running .tr = true ∧
    toyState.P.depthSym = { toyState with chSym := List.replicate 8 0 }.chSym.length ∧
    { toyState with ctrl := 0xD }.running .sl = false ∧ toyState.chSym = [] ∧
    toyState.P.depthByte = { toyState with chByte := [0] }.chByte.length ∧ toyState.chByte = [] ∧
    (toyFrame .corrected [1, 2, 3, 4, 5]).fbState ≠ .empty ∧ { toyState with ctrl := 0xB }.running .ds = false ∧
    (toyFrame .descrambled [1, 2, 3, 4, 5]).fbState ≠ .loaded ∧
    (toyFrame .descrambled [1, 2, 3, 4, 5]).fbState ≠ .corrected := by decide +kernel

/-- V-TRCFG: `os_target · r_nom` exactly 1, just above 1, and 0. -/
theorem test_witness_PhasesAreFewest : (4 * (1/4) : NUM) ≤ (1 : Nat) ∧ trPhases (1/4) 4 = 1 ∧
    (41/10 * (1/4) : NUM) ≤ (2 : Nat) ∧ trPhases (1/4) (41/10) = 2 ∧ (8 * 0 : NUM) ≤ (1 : Nat) ∧
    trPhases 0 8 = 1 := by decide +kernel

/-- V-TRCFG, eighth row: `fnom + dev = 1/2`. -/
theorem test_witness_TrCfgAccepted : { toyState with ctrl := 0 }.running .tr = false ∧
    0 < ratioValue ⟨1, 2⟩ ∧ 0 ≤ ratioValue ⟨1, 1⟩ ∧ 0 ≤ ratioValue ⟨1, 8⟩ ∧ 0 ≤ ratioValue ⟨0, 1⟩ ∧
    max 1 (ratioValue ⟨1, 1⟩ * ratioValue ⟨1, 2⟩).ceil.toNat = 1 ∧
    0 < ratioValue ⟨1, 2⟩ / (1 : Nat) - ratioValue ⟨0, 1⟩ / (1 : Nat) ∧
    ratioValue ⟨1, 2⟩ / (1 : Nat) + ratioValue ⟨0, 1⟩ / (1 : Nat) ≤ 1 / 2 := by decide +kernel

/-- V-TRCFG, ninth row: `fnom − dev = 0`. -/
theorem test_witness_TrCfgRejected : { toyState with ctrl := 0 }.running .tr = false ∧
    max 1 (ratioValue ⟨8, 1⟩ * ratioValue ⟨1, 4⟩).ceil.toNat = 2 ∧
    ¬ 0 < ratioValue ⟨1, 4⟩ / (2 : Nat) - ratioValue ⟨1, 4⟩ / (2 : Nat) := by decide +kernel

/-- `trState` with the fewest free places in `CH_SYM` that R28 allows. -/
def trTight : State := { trState with params := ⟨toy, toy_wf⟩, chSym := List.replicate 7 0 }

theorem test_witness_TrStepResult : trTight.running .tr = true ∧ trTight.tr = .configured trV1 (1/8) ∧
    trTight.chIn = 0 :: [] ∧ trTight.chSym.length + (trV1.l + 1) / 2 = trTight.P.depthSym := by decide +kernel

theorem test_witness_TrStepPushBound :
    trTight.tr = .configured trV1 (1/8) ∧ ∃ t, exec .trStep trTight = .next t :=
  ⟨rfl, next_of_got (by decide +kernel)⟩

/-- The registers of a timeslot whose phase comes to `phase + 1/8`. -/
def slot (phase : NUM) (fsm : TrFsm) : TrLoop :=
  { phase, freq := 1/8, fsm, yPrev := 3/4, yEarly := 1, yOntime := 3/4, err := 0, pushed := [] }

/-- The phase just below 1, exactly 1, and a strobe whatever the phase. -/
theorem test_witness_TimeslotCases :
    ((slot (13/16) .advance).fsm = .advance ∧ (slot (13/16) .advance).phase + (slot (13/16) .advance).freq < 1) ∧
    ((slot (7/8) .advance).fsm = .advance ∧ 1 ≤ (slot (7/8) .advance).phase + (slot (7/8) .advance).freq) ∧
    (slot (7/8) .strobe).fsm = .strobe := by decide +kernel

theorem test_witness_BoundaryEmitsOnTimeSample :
    ((slot (7/8) .advance).fsm = .advance ∧ 1 ≤ (slot (7/8) .advance).phase + (slot (7/8) .advance).freq) ∧
    (slot (13/16) .advance).fsm = .advance ∧ (slot (13/16) .advance).phase + (slot (13/16) .advance).freq < 1 := by
  decide +kernel

theorem test_witness_InterpolantIsStraightLine :
    ([0, 1] : List NUM).length = 2 ∧ ([1/2, 1] : List NUM).length = 2 ∧ 0 < 1 ∧ 2 - 1 < 2 := by decide

theorem trState_trInv : trState.TrInv := by
  show (_ ∧ _ ∧ _ ∧ _ ∧ _)
  decide +kernel

/-- `TR.STEP` at the strobe that meets the clamp, and a `TR.CFG`. -/
theorem test_witness_RateStaysClamped : trState.TrInv ∧
    (∃ t, exec .trStep trState = .next t ∧ decide (t.tr = .configured trV1 (13/100)) = true) ∧
    { trState with ctrl := 0 }.TrInv ∧
    ∃ t, exec (.trCfg ⟨1, 2⟩ ⟨1, 1⟩ ⟨1, 8⟩ ⟨0, 1⟩ ⟨1, 1⟩) { trState with ctrl := 0 } = .next t ∧
      decide (t.tr = .configured (trConfigOf Params.rs41 (1/2) 1 (1/8) 0 1) (1/2)) = true :=
  ⟨trState_trInv, next_with_got _ (by decide +kernel), trState_trInv, next_with_got _ (by decide +kernel)⟩

/-- One free place is left. -/
theorem test_witness_InSampleAppends :
    (⟨0x8000, 0xFFFF⟩ : SRatio).den ≠ 0 ∧ { toyState with chIn := [1] }.chIn.length + 1 = toyState.P.depthIn := by
  decide +kernel

theorem test_witness_SymPushAppends : (⟨3, 4⟩ : SRatio).den ≠ 0 ∧ { toyState with ctrl := 0xE }.running .tr = false ∧
    { toyState with chSym := List.replicate 7 0 }.chSym.length < toyState.P.depthSym := by decide +kernel

/-- The last bit of a byte and the first; a symbol that is exactly 0. -/
theorem test_witness_SlStepResult :
    toyState.running .sl = true ∧ { toyState with chSym := [0] }.chSym = 0 :: [] ∧
    toyState.chByte.length < toyState.P.depthByte ∧ { toyState with slBitcnt := 7 }.slBitcnt = 7 ∧
    toyState.slBitcnt ≠ 7 := by decide +kernel

theorem test_witness_EightSymbolsMakeAByte :
    toyState.running .sl = true ∧ toyState.slBitcnt = 0 ∧ { toyState with chSym := [1, -1, 1, -1, 1, -1, -1, 0] }.chSym =
      1 :: -1 :: 1 :: -1 :: 1 :: -1 :: -1 :: 0 :: [] ∧ toyState.chByte.length < toyState.P.depthByte := by
  decide +kernel

/-- V-SL-1 and the pop of its byte. -/
def sliceOne : List Instr :=
  [.stageStart .sl] ++ [⟨3, 4⟩, ⟨0xFFFF, 1⟩, ⟨3, 4⟩, ⟨0xFFFD, 4⟩, ⟨1, 1⟩, ⟨0xFFFD, 4⟩, ⟨0xFFFF, 2⟩, ⟨0, 1⟩].map .symPush ++
    List.replicate 8 .slStep ++ [.bytePop]

theorem toy_atReset : (State.powerOn ⟨toy, toy_wf⟩).AtReset where
  chIn := rfl
  chSym := rfl
  chByte := rfl
  ctrl := rfl
  tr := rfl
  trDl := by decide
  trPhase := rfl
  trYPrev := rfl
  trYEarly := rfl
  trYOntime := rfl
  trErr := rfl
  trFsm := rfl
  slShreg := rfl
  slBitcnt := rfl
  fb := fun _ => rfl
  fbState := rfl
  fecInvalid_length := rfl
  fecInvalid := fun j => by cases j <;> rfl
  fecMode := rfl

theorem test_witness_SlicerCounts : (State.powerOn ⟨toy, toy_wf⟩).AtReset ∧ Instr.reset ∉ sliceOne ∧
    ∃ t, execAll sliceOne (State.powerOn ⟨toy, toy_wf⟩) = .next t ∧ decide (t.results = [.byte 0xA9]) = true :=
  ⟨toy_atReset, by decide, next_with_got _ (by decide +kernel)⟩

theorem test_witness_BytePopReturnsOldest : { toyState with chByte := [0xA9] }.chByte = 0xA9 :: [] := rfl

theorem test_witness_FrLoadWritesBlock : ([1, 2, 3, 4, 5] : List Byte).length = toyState.P.frameLenMax ∧
    toyState.fbState = .empty := by decide +kernel

theorem test_witness_DsRunDescrambles : (toyFrame .loaded [1, 2, 3, 4, 5]).running .ds = true ∧
    (toyFrame .loaded [1, 2, 3, 4, 5]).fbState = .loaded ∧ (toyFrame .loaded [1, 2, 3, 4, 5]).FrameWritten := by
  decide +kernel

theorem test_witness_DsRunUndoesScrambling : ([1, 2, 3, 4, 5] : List Byte).length = toyState.P.frameLenMax ∧
    (scramble toy [1, 2, 3, 4, 5]).length = toyState.P.frameLenMax ∧
    (∀ a < toyState.P.frameLenMax, (scramble toy [1, 2, 3, 4, 5]).getD a 0 =
      bitrev8 (([1, 2, 3, 4, 5] : List Byte).getD a 0 ^^^ 0xFF ^^^ toyState.P.prn.getD (a % toyState.P.prnPeriod) 0)) ∧
    toyState.running .ds = true ∧ toyState.fbState = .empty := by decide +kernel

theorem test_witness_FrReadReturnsFrame : (toyFrame .corrected [1, 2, 3, 4, 5]).fbState = .corrected ∧
    (toyFrame .corrected [1, 2, 3, 4, 5]).FrameWritten := by decide +kernel

/-- The default field polynomial, and another. -/
theorem test_witness_FieldProductLaws : isPrimitive 0x11D = true ∧ isPrimitive 0x187 = true := by decide +kernel

theorem test_witness_LogarithmsAndInverses :
    isPrimitive 0x11D = true ∧ (0xFF : Byte) ≠ 0 ∧ (1 : Byte) ≠ 0 ∧ gpow 0x11D (254 : Nat) = 0x8E := by decide +kernel

/-- The zero word of the toy code. -/
def zeroWord : List Byte := List.replicate 255 0

theorem zeroWord_codeword : Codeword toy zeroWord := by decide +kernel

/-- The generator as a word: two codewords at the least distance. -/
theorem test_witness_CodewordsFarApart :
    Codeword toy zeroWord ∧ Codeword toy (generator toy ++ List.replicate 252 0) ∧
    zeroWord ≠ generator toy ++ List.replicate 252 0 ∧ symbolErrors zeroWord (generator toy ++ List.replicate 252 0) = 3 := by
  decide +kernel

theorem test_witness_DecoderIsSound : (zeroWord.set 254 9).length = toy.rsN ∧
    rsDecode toy (zeroWord.set 254 9) = some zeroWord := by decide +kernel

/-- A word with `S[0] = 0` and `S[1] ≠ 0`. -/
def lostWord : List Byte := 1 :: 1 :: List.replicate 253 0

theorem peval_one (c : List Byte) : peval 0x11D c 1 = c.foldr (· ^^^ ·) 0 := by
  have h : ∀ r : Byte, gmul 0x11D 1 r = r := by decide +kernel
  induction c with
  | nil => rfl
  | cons a c ih => exact (congrArg (a ^^^ ·) (h _)).trans (congrArg (a ^^^ ·) ih)

theorem eq_of_symbolErrors_zero : ∀ c c' : List Byte, c.length = c'.length → symbolErrors c c' = 0 → c = c'
  | [], [], _, _ => rfl
  | a :: c, a' :: c', hl, hd => by
    simp only [symbolErrors, List.zip_cons_cons, List.countP_cons] at hd
    by_cases h : a = a'
    · subst h
      exact congrArg (a :: ·) (eq_of_symbolErrors_zero c c' (by simpa using hl) (by simpa [symbolErrors] using hd))
    · simp [h] at hd

/-- Two words at distance at most 1 with the same sum of symbols are one word. -/
theorem eq_of_symbolErrors_le_one : ∀ c c' : List Byte, c.length = c'.length → symbolErrors c c' ≤ 1 →
    c.foldr (· ^^^ ·) 0 = c'.foldr (· ^^^ ·) 0 → c = c'
  | [], [], _, _, _ => rfl
  | a :: c, a' :: c', hl, hd, hx => by
    simp only [symbolErrors, List.zip_cons_cons, List.countP_cons] at hd
    by_cases h : a = a'
    · subst h
      exact congrArg (a :: ·) (eq_of_symbolErrors_le_one c c' (by simpa using hl) (by simpa [symbolErrors] using hd)
        (by simpa using hx))
    · have hc := eq_of_symbolErrors_zero c c' (by simpa using hl) (by simp [h] at hd; simpa [symbolErrors] using hd)
      subst hc
      exact absurd (by simpa using hx) h

/-- A word with `S[0] = 0` and `S[1] ≠ 0` has no codeword within one symbol error. -/
theorem no_codeword_near {c : List Byte} (hl : c.length = 255) (h0 : c.foldr (· ^^^ ·) 0 = 0)
    (hc : ¬ Codeword toy c) : ¬ ∃ c', Codeword toy c' ∧ symbolErrors c c' ≤ 1 := by
  rintro ⟨c', hc', hd⟩
  have h0' : c'.foldr (· ^^^ ·) 0 = 0 := by
    rw [← peval_one]
    have := hc'.2 0 (by decide)
    rwa [show root toy 0 = 1 by decide +kernel] at this
  exact hc (eq_of_symbolErrors_le_one c c' (hl.trans hc'.1.symm) hd (h0.trans h0'.symm) ▸ hc')

/-- Both clauses: a codeword at distance exactly `RS_T`, and a word with none that near. -/
theorem test_witness_DecoderFindsNearestCodeword :
    ((zeroWord.set 254 9).length = toy.rsN ∧ Codeword toy zeroWord ∧ symbolErrors (zeroWord.set 254 9) zeroWord = toy.rsT) ∧
    lostWord.length = toy.rsN ∧ ¬ ∃ c', Codeword toy c' ∧ symbolErrors lostWord c' ≤ toy.rsT :=
  ⟨by decide +kernel, by decide +kernel,
    no_codeword_near (by decide +kernel) (by decide +kernel) (by decide +kernel)⟩

theorem test_witness_EncoderGivesCodewords : (1 :: List.replicate 252 (0 : Byte)).length = toy.rsK := by
  decide +kernel

/-- The toy record with the other order of coefficients. -/
def toyDescending : Params := { toy with cwOrder := .descending }

theorem toyDescending_wf : toyDescending.Wf := by decide +kernel

/-- Each index at the end of its range, a frame and a word, and a record of either order. -/
theorem test_witness_DecoderIndicesInRange :
    0 < toy.rsDepth ∧ msgLen toy false - 1 < msgLen toy false ∧ msgLen toy true - 1 < msgLen toy true ∧
    2 * toy.rsT - 1 < 2 * toy.rsT ∧ msgLen toy true ≤ toy.rsK - 1 ∧ toy.rsK - 1 < toy.rsK ∧
    ([1, 2, 3, 4, 5] : List Byte).length = toy.frameLenMax ∧ zeroWord.length = toy.rsN ∧ toy.cwOrder = .ascending ∧
    toyDescending.cwOrder = .descending := by decide +kernel

/-- 44_fec.md R184, R185: the word of the block of a standard frame, in either order. -/
theorem test_gatherBlock :
    gatherBlock toy false [1, 2, 3, 4, 5] 0 = [3, 4, 1, 2] ++ List.replicate 251 0 ∧
    gatherBlock toyDescending false [1, 2, 3, 4, 5] 0 = [4, 3] ++ List.replicate 251 0 ++ [2, 1] := by decide +kernel

theorem test_witness_FecRunCompletes : (toyFrame .descrambled [0xF0, 2, 3, 4, 5]).running .fec = true ∧
    (toyFrame .descrambled [0xF0, 2, 3, 4, 5]).fbState = .descrambled ∧
    (toyFrame .descrambled [0xF0, 2, 3, 4, 5]).FrameWritten := by decide +kernel

theorem test_witness_BlocksAreIndependent :
    ([0, 7, 0, 0, 9] : List Byte).length = toy.frameLenMax ∧ 0 < toy.rsDepth ∧
    (decodeBlock toy false [0, 7, 0, 0, 9] 0).isSome = true ∧ decodeBlock toy false [0, 0, 1, 1, 9] 0 = none := by
  decide +kernel

/-- A block that can be corrected and one that cannot. -/
theorem test_witness_FecRunDecodesEveryBlock :
    ((toyFrame .descrambled [0, 7, 0, 0, 9]).fb.bytes 5 = some [0, 7, 0, 0, 9] ∧
      (∃ t, exec .fecRun (toyFrame .descrambled [0, 7, 0, 0, 9]) = .next t ∧ (!t.fecMode) = true) ∧
      Corrects toy false [0, 7, 0, 0, 9] 0 (List.replicate 253 0)) ∧
    (toyFrame .descrambled [0, 0, 1, 1, 9]).fb.bytes 5 = some [0, 0, 1, 1, 9] ∧
      (∃ t, exec .fecRun (toyFrame .descrambled [0, 0, 1, 1, 9]) = .next t ∧ (!t.fecMode) = true) ∧
      ¬ ∃ msg, Corrects toy false [0, 0, 1, 1, 9] 0 msg := by
  refine ⟨⟨by decide +kernel, next_with_got _ (by decide +kernel),
    zeroWord, zeroWord_codeword, by decide +kernel, by decide +kernel, fun i _ _ => ?_⟩,
    by decide +kernel, next_with_got _ (by decide +kernel), ?_⟩
  · simp only [List.getD_eq_getElem?_getD, List.getElem?_replicate]
    split <;> rfl
  · rintro ⟨msg, c', hc', hd, -⟩
    exact no_codeword_near (by decide +kernel) (by decide +kernel) (by decide +kernel) ⟨c', hc', hd⟩

/-- One block with exactly `RS_T` symbol errors. -/
theorem test_witness_FecRunRestoresPlainFrame :
    (toyFrame .descrambled [0, 7, 0, 0, 9]).running .fec = true ∧
    (toyFrame .descrambled [0, 7, 0, 0, 9]).fbState = .descrambled ∧
    (toyFrame .descrambled [0, 7, 0, 0, 9]).fb.bytes toy.frameLenMax = some [0, 7, 0, 0, 9] ∧
    ([0, 0, 0, 0, 9] : List Byte).length = toy.frameLenMax ∧
    frameMode toy [0, 7, 0, 0, 9] = frameMode toy [0, 0, 0, 0, 9] ∧
    ∀ j < toy.rsDepth, Codeword toy (gatherBlock toy (frameMode toy [0, 0, 0, 0, 9]) [0, 0, 0, 0, 9] j) ∧
      symbolErrors (gatherBlock toy (frameMode toy [0, 0, 0, 0, 9]) [0, 7, 0, 0, 9] j)
        (gatherBlock toy (frameMode toy [0, 0, 0, 0, 9]) [0, 0, 0, 0, 9] j) = toy.rsT := by decide +kernel

theorem test_witness_FrameProcessDelivers : ([1, 2, 3, 4, 5] : List Byte).length = toyState.P.frameLenMax ∧
    toyState.running .ds = true ∧ toyState.running .fec = true ∧ toyState.fbState = .empty := by decide +kernel

/-- A state of the invariant with TR configured, a full channel and a frame loaded. -/
def invState : State :=
  { trState with
    params := ⟨toy, toy_wf⟩, trace := [0x31], ctrl := 15, chSym := List.replicate 8 0, fb := Memory.ofBytes 0 [1, 2, 3, 4, 5]
    fbState := .loaded, fecInvalid := [false] }

theorem invState_inv : invState.Inv where
  chIn_le := by decide +kernel
  chSym_le := by decide +kernel
  chByte_le := by decide +kernel
  tr := by
    show (_ ∧ _ ∧ _ ∧ _ ∧ _)
    decide +kernel
  fb_wf := Memory.ofBytes_wf 0 _
  fb_bound a b h := by
    rw [show invState.fb = Memory.ofBytes 0 [1, 2, 3, 4, 5] from rfl, Memory.read_ofBytes_zero] at h
    exact (List.getElem?_eq_some_iff.mp h).1
  fb_written _ := by decide +kernel
  fecInvalid_length := rfl
  fec_clear _ := ⟨rfl, rfl⟩

theorem test_witness_StepKeepsInvariant : invState.Inv ∧ ∃ t, step invState = .next t ∧
    decide (t.fbState = .descrambled) = true := ⟨invState_inv, next_with_got _ (by decide +kernel)⟩

theorem test_witness_NoStepFaults : invState.Inv := invState_inv

theorem test_witness_PathsDoNotTouch : (∃ t, exec .trStep trState = .next t) ∧ isFront .trStep = true ∧
    (∃ t, exec .dsRun invState = .next t) ∧ isBack .dsRun = true :=
  ⟨next_of_got (by decide +kernel), rfl, next_of_got (by decide +kernel), rfl⟩

/-- `TR.STEP` and the `SL.STEP` that consumes what it produces; `DS.RUN` and `IN.SAMPLE`. -/
theorem test_witness_FiringsCommute :
    (.trStep ∈ firings ∧ isFront .slStep = true ∧ (∃ t, exec .trStep { trTight with ctrl := 15 } = .next t) ∧
      ∃ t, exec .slStep { trTight with ctrl := 15 } = .next t) ∧
    .dsRun ∈ firings ∧ isFront (.inSample ⟨1, 1⟩) = true ∧ (∃ t, exec .dsRun invState = .next t) ∧
      ∃ t, exec (.inSample ⟨1, 1⟩) invState = .next t :=
  ⟨⟨by decide, rfl, next_of_got (by decide +kernel), next_of_got (by decide +kernel)⟩,
    by decide, rfl, next_of_got (by decide +kernel), next_of_got (by decide +kernel)⟩

/-- The toy record with the default capacities. -/
def toyDeep : Params := { toy with depthIn := 2147483648, depthSym := 2147483648, depthByte := 2147483648 }

theorem toyDeep_wf : toyDeep.Wf := by decide +kernel

theorem test_witness_CapacitiesDoNotMatter :
    toyDeep = { toyState.P with
      depthIn := toyDeep.depthIn, depthSym := toyDeep.depthSym, depthByte := toyDeep.depthByte } ∧
    (∃ t, exec (.inSample ⟨1, 1⟩) toyState = .next t) ∧
    ∃ t, exec (.inSample ⟨1, 1⟩) { toyState with params := ⟨toyDeep, toyDeep_wf⟩ } = .next t :=
  ⟨rfl, next_of_got (by decide +kernel), next_of_got (by decide +kernel)⟩

end Sys2Proof.Tests
end

section
/-! What an operation that happens does, said once for all of them. -/

namespace Sys2Proof.Machine

/-- `Effect s i t`: the operation `i` happens in `s` and leads to `t`. One constructor per operation (two for
`TR.CFG`), with the `require` lines that hold; `exec_effect` ties it to the model. -/
inductive Effect (s : State) : Instr → State → Prop
  | reset : Effect s .reset { State.powerOn s.params with trace := s.trace, results := s.results }
  | stageStart (st : Stage) : Effect s (.stageStart st) { s with ctrl := setRun s.ctrl st }
  | stageStop (st : Stage) : Effect s (.stageStop st) { s with ctrl := clearRun s.ctrl st }
  | stRead : Effect s .stRead (s.returning (.status s.status))
  | trCfgAccepted {r d w v o : Ratio} (stopped : s.running .tr = false)
      (ok : trCfgOk (ratioValue r) (ratioValue d) (ratioValue w) (ratioValue v) (ratioValue o) = true) :
      Effect s (.trCfg r d w v o) (s.configureTr
        (trConfigOf s.P (ratioValue r) (ratioValue d) (ratioValue w) (ratioValue v) (ratioValue o)))
  | trCfgRejected {r d w v o : Ratio} (stopped : s.running .tr = false)
      (bad : trCfgOk (ratioValue r) (ratioValue d) (ratioValue w) (ratioValue v) (ratioValue o) = false) :
      Effect s (.trCfg r d w v o) { s with tr := .unconfigured }
  | inSample (v : SRatio) (room : s.chIn.length + 1 ≤ s.P.depthIn) :
      Effect s (.inSample v) { s with chIn := s.chIn ++ [sratioValue v] }
  | trStep {cfg : TrConfig} {freq x : NUM} {rest : List NUM} (tr : s.tr = .configured cfg freq)
      (chIn : s.chIn = x :: rest) (running : s.running .tr = true)
      (room : s.chSym.length + maxPush cfg.l ≤ s.P.depthSym) :
      Effect s .trStep (s.afterTrStep cfg freq x rest)
  | symPush (v : SRatio) (stopped : s.running .tr = false) (room : s.chSym.length + 1 ≤ s.P.depthSym) :
      Effect s (.symPush v) { s with chSym := s.chSym ++ [sratioValue v] }
  | slStep {v : NUM} {rest : List NUM} (chSym : s.chSym = v :: rest) (running : s.running .sl = true)
      (room : s.chByte.length + 1 ≤ s.P.depthByte) : Effect s .slStep (s.afterSlStep v rest)
  | bytePop {b : Byte} {rest : List Byte} (chByte : s.chByte = b :: rest) :
      Effect s .bytePop { s with chByte := rest, results := s.results ++ [.byte b] }
  | frLoad {blk : List Byte} (length : blk.length = s.P.frameLenMax) (empty : s.fbState = .empty) :
      Effect s (.frLoad blk) { s with
        fb := Memory.ofBytes 0 blk, fecInvalid := List.replicate s.P.rsDepth false, fecMode := false
        fbState := .loaded }
  | dsRun {frame : List Byte} (running : s.running .ds = true) (loaded : s.fbState = .loaded)
      (bytes : s.fb.bytes s.P.frameLenMax = some frame) :
      Effect s .dsRun { s with fb := Memory.ofBytes 0 (descramble s.P frame), fbState := .descrambled }
  | fecRun {frame : List Byte} (running : s.running .fec = true) (descrambled : s.fbState = .descrambled)
      (bytes : s.fb.bytes s.P.frameLenMax = some frame) :
      Effect s .fecRun { s with
        fb := Memory.ofBytes 0 (fecBlocks s.P (frameMode s.P frame) frame).1
        fecMode := frameMode s.P frame, fecInvalid := (fecBlocks s.P (frameMode s.P frame) frame).2
        fbState := .corrected }
  | frRead {frame : List Byte} (corrected : s.fbState = .corrected)
      (bytes : s.fb.bytes s.P.frameLenMax = some frame) :
      Effect s .frRead { s with
        fbState := .empty, results := s.results ++ [.frame frame s.fecMode s.fecInvalid] }

/-- The inversion of `exec`: an operation that has a step has its effect. -/
theorem exec_effect {i : Instr} {s t : State} (h : exec i s = .next t) : Effect s i t := by
  cases i with
  | reset => obtain rfl := execReset_next h; exact .reset
  | stageStart st => obtain rfl := execStageStart_next h; exact .stageStart st
  | stageStop st => obtain rfl := execStageStop_next h; exact .stageStop st
  | stRead => obtain rfl := execStRead_next h; exact .stRead
  | trCfg r d w v o =>
    obtain ⟨-, h⟩ := execTrCfg_next h
    obtain ⟨stopped, ⟨ok, rfl⟩ | ⟨bad, rfl⟩⟩ := trCfgNum_next h
    · exact .trCfgAccepted stopped ok
    · exact .trCfgRejected stopped bad
  | inSample v => obtain ⟨-, room, rfl⟩ := execInSample_next h; exact .inSample v room
  | trStep =>
    obtain ⟨cfg, freq, x, rest, tr, chIn, running, room, rfl⟩ := execTrStep_next h
    exact .trStep tr chIn running room
  | symPush v =>
    obtain ⟨-, stopped, room, rfl⟩ := execSymPush_next h
    exact .symPush v stopped room
  | slStep =>
    obtain ⟨v, rest, chSym, running, room, rfl⟩ := execSlStep_next h
    exact .slStep chSym running room
  | bytePop => obtain ⟨b, rest, chByte, rfl⟩ := execBytePop_next h; exact .bytePop chByte
  | frLoad blk => obtain ⟨length, empty, rfl⟩ := execFrLoad_next h; exact .frLoad length empty
  | dsRun =>
    obtain ⟨running, loaded, frame, bytes, rfl⟩ := execDsRun_next h
    exact .dsRun running loaded bytes
  | fecRun =>
    obtain ⟨running, descrambled, frame, bytes, rfl⟩ := execFecRun_next h
    exact .fecRun running descrambled bytes
  | frRead =>
    obtain ⟨corrected, frame, bytes, rfl⟩ := execFrRead_next h
    exact .frRead corrected bytes

/-- The inversion of `step`: a step with no operation listed changes nothing, and any other is the effect of the
operation listed first, with the bytes after it as the trace. -/
theorem step_effect {s t : State} (h : step s = .next t) :
    t = s ∨ ∃ i rest, nextOp s.P s.trace = .op i rest ∧ Effect (s.withTrace rest) i t := by
  unfold step at h
  split at h
  next => exact .inl (Host.Outcome.next.inj h).symm
  next => cases h
  next i rest hop => exact .inr ⟨i, rest, hop, exec_effect h⟩

end Sys2Proof.Machine
end

section
/-! One firing of TR (40_timing_recovery.md R116 to R119): how much it pushes, and the clamp of its rate. -/

namespace Sys2Proof.Machine

/-- The potential behind R118: twice the soft symbols pushed, and one more while a strobe is pending. -/
def TrLoop.halfSymbols (t : TrLoop) : Nat := 2 * t.pushed.length + t.fsm.bit.toNat

theorem timeslot_halfSymbols_le (cfg : TrConfig) (y : NUM) (t : TrLoop) :
    (timeslot cfg y t).halfSymbols ≤ t.halfSymbols + 1 := by
  cases hfsm : t.fsm with
  | advance =>
    simp only [timeslot, hfsm]
    split <;> simp [TrLoop.halfSymbols, hfsm, TrFsm.bit]
  | strobe =>
    simp only [timeslot, hfsm, TrLoop.halfSymbols, TrFsm.bit, push, List.length_append, List.length_singleton,
      Bool.toNat_false, Bool.toNat_true]
    omega

theorem timeslots_halfSymbols_le (cfg : TrConfig) (dl : List NUM) (t : TrLoop) :
    (timeslots cfg dl t).halfSymbols ≤ t.halfSymbols + cfg.l := by
  have along (ps : List Nat) (t : TrLoop) :
      (ps.foldl (fun t p => timeslot cfg (interpolant (cfg.taps.getD p []) dl) t) t).halfSymbols ≤
        t.halfSymbols + ps.length := by
    induction ps generalizing t with
    | nil => rfl
    | cons p ps ih =>
      have first := timeslot_halfSymbols_le cfg (interpolant (cfg.taps.getD p []) dl) t
      have later := ih (timeslot cfg (interpolant (cfg.taps.getD p []) dl) t)
      simp only [List.foldl_cons, List.length_cons]
      omega
  simpa [timeslots] using along (List.range cfg.l) t

/-- R118: a firing pushes at most `ceil(TR_L / 2)` soft symbols. -/
theorem timeslots_pushed_le (cfg : TrConfig) (dl : List NUM) (s : State) (freq : NUM) :
    (timeslots cfg dl (s.trLoop freq)).pushed.length ≤ maxPush cfg.l := by
  have bound := timeslots_halfSymbols_le cfg dl (s.trLoop freq)
  have start : (s.trLoop freq).halfSymbols ≤ 1 := by
    simpa [TrLoop.halfSymbols, State.trLoop] using s.trFsm.bit.toNat_le
  unfold TrLoop.halfSymbols at bound start
  unfold maxPush
  omega

/-- R119: the rate estimate is within its clamp. -/
def RateClamped (cfg : TrConfig) (freq : NUM) : Prop :=
  cfg.freqNom - cfg.dev ≤ freq ∧ freq ≤ cfg.freqNom + cfg.dev

theorem clamp_mem {v lo hi : NUM} (h : lo ≤ hi) : lo ≤ clamp v lo hi ∧ clamp v lo hi ≤ hi :=
  ⟨le_min (le_max_right _ _) h, min_le_right _ _⟩

theorem timeslot_rateClamped {cfg : TrConfig} {t : TrLoop} (y : NUM) (h : RateClamped cfg t.freq) :
    RateClamped cfg (timeslot cfg y t).freq := by
  cases hfsm : t.fsm with
  | advance =>
    simp only [timeslot, hfsm]
    split <;> exact h
  | strobe =>
    obtain ⟨lower, upper⟩ := h
    simp only [timeslot, hfsm]
    exact clamp_mem (lower.trans upper)

theorem timeslots_rateClamped {cfg : TrConfig} {t : TrLoop} (dl : List NUM) (h : RateClamped cfg t.freq) :
    RateClamped cfg (timeslots cfg dl t).freq :=
  List.foldlRecOn (motive := fun t : TrLoop => RateClamped cfg t.freq) _ _ h
    (fun _ ih _ _ => timeslot_rateClamped _ ih)

/-- R116: shifting a sample in keeps the length of the delay line. -/
theorem shiftIn_length {m : Nat} {dl : List NUM} (x : NUM) (h : dl.length = m) :
    (shiftIn m x dl).length = m := by
  simp [shiftIn, h]

/-! ### The invariant of TR -/

theorem State.trInv_of_unconfigured {s : State} (h : s.tr = .unconfigured) : s.TrInv := by
  simp [State.TrInv, h]

theorem State.trInv_of_configured {s : State} {cfg : TrConfig} {freq : NUM} (h : s.tr = .configured cfg freq) :
    s.TrInv ↔ trCfgOk cfg.rNom cfg.damp cfg.bw cfg.maxDev cfg.osTarget = true ∧
      cfg = trConfigOf s.P cfg.rNom cfg.damp cfg.bw cfg.maxDev cfg.osTarget ∧
      RateClamped cfg freq ∧ s.trDl.length = cfg.m := by
  simp only [State.TrInv, h, RateClamped, and_assoc]

/-- R115: operands that pass the test have a deviation that is not negative. -/
theorem trConfigOf_dev_nonneg {r d w v o : NUM} (P : Params) (h : trCfgOk r d w v o = true) :
    0 ≤ (trConfigOf P r d w v o).dev := by
  obtain ⟨-, -, -, hv, -⟩ := of_decide_eq_true h
  exact div_nonneg hv (Nat.cast_nonneg _)

theorem State.configureTr_trInv {s : State} {r d w v o : NUM} (h : trCfgOk r d w v o = true) :
    (s.configureTr (trConfigOf s.P r d w v o)).TrInv := by
  have dev := trConfigOf_dev_nonneg s.P h
  rw [State.trInv_of_configured rfl]
  exact ⟨h, rfl, ⟨sub_le_self _ dev, le_add_of_nonneg_right dev⟩, List.length_replicate⟩

theorem State.afterTrStep_trInv {s : State} {cfg : TrConfig} {freq : NUM} (x : NUM) (rest : List NUM)
    (htr : s.tr = .configured cfg freq) (hs : s.TrInv) : (s.afterTrStep cfg freq x rest).TrInv := by
  obtain ⟨ok, derived, rate, dl⟩ := (State.trInv_of_configured htr).mp hs
  rw [State.trInv_of_configured rfl]
  exact ⟨ok, derived, timeslots_rateClamped _ rate, shiftIn_length x dl⟩

end Sys2Proof.Machine
end

section
/-! The invariant of the reachable states: it holds after power-on, and every step keeps it. -/

namespace Sys2Proof.Machine

theorem State.powerOn_inv (p : Parameters) : (State.powerOn p).Inv where
  chIn_le := Nat.zero_le _
  chSym_le := Nat.zero_le _
  chByte_le := Nat.zero_le _
  tr := State.trInv_of_unconfigured rfl
  fb_wf := List.Pairwise.nil
  fb_bound _ _ h := by cases h
  fb_written h := absurd rfl h
  fecInvalid_length := List.length_replicate
  fec_clear _ := ⟨rfl, rfl⟩

/-- The part of the invariant about the back path, for an operation that writes the whole frame buffer. -/
theorem State.Inv.writeFrame {s : State} (hs : s.Inv) {bytes : List Byte} {flags : List Bool} {mode : Bool}
    {st : FbState} (hbytes : bytes.length = s.P.frameLenMax) (hflags : flags.length = s.P.rsDepth)
    (hclear : st = .loaded ∨ st = .descrambled → flags = List.replicate s.P.rsDepth false ∧ mode = false) :
    State.Inv { s with fb := Memory.ofBytes 0 bytes, fbState := st, fecInvalid := flags, fecMode := mode } :=
  { hs with
    fb_wf := Memory.ofBytes_wf 0 bytes
    fb_bound := fun a b h => by
      rw [Memory.read_ofBytes_zero] at h
      exact hbytes ▸ (List.getElem?_eq_some_iff.mp h).1
    fb_written := fun _ => by
      show (Memory.ofBytes 0 bytes).map Prod.fst = List.range s.P.frameLenMax
      rw [Memory.ofBytes_addresses, hbytes, List.range_eq_range']
    fecInvalid_length := hflags
    fec_clear := hclear }

/-- R28: a channel stays within its capacity when its oldest item is taken. -/
theorem length_le_of_popped {α : Type} {ch rest : List α} {x : α} {depth : Nat} (h : ch = x :: rest)
    (hle : ch.length ≤ depth) : rest.length ≤ depth := by
  subst h
  exact Nat.le_of_succ_le hle

/-- R28, R141: a firing of SL adds at most one byte to `CH_BYTE`. -/
theorem State.afterSlStep_chByte_length_le (s : State) (v : NUM) (rest : List NUM) :
    (s.afterSlStep v rest).chByte.length ≤ s.chByte.length + 1 := by
  rw [State.afterSlStep_chByte]
  split <;> simp [push]

theorem Effect.keeps_inv {s t : State} {i : Instr} (h : Effect s i t) (hs : s.Inv) : t.Inv := by
  cases h with
  | reset => exact { State.powerOn_inv s.params with }
  | stageStart st => exact { hs with }
  | stageStop st => exact { hs with }
  | stRead => exact { hs with }
  | trCfgAccepted stopped ok => exact { hs with tr := State.configureTr_trInv ok }
  | trCfgRejected => exact { hs with tr := State.trInv_of_unconfigured rfl }
  | inSample v room => exact { hs with chIn_le := List.length_append.trans_le room }
  | @trStep cfg freq x rest tr chIn running room =>
    have pushed := timeslots_pushed_le cfg (shiftIn cfg.m x s.trDl) s freq
    exact { hs with
      chIn_le := length_le_of_popped chIn hs.chIn_le
      chSym_le := by
        rw [State.afterTrStep_chSym, State.afterTrStep_P, List.length_append]
        omega
      tr := State.afterTrStep_trInv x rest tr hs.tr }
  | symPush v stopped room => exact { hs with chSym_le := List.length_append.trans_le room }
  | @slStep v rest chSym running room =>
    exact { hs with
      chSym_le := length_le_of_popped chSym hs.chSym_le
      chByte_le := (s.afterSlStep_chByte_length_le v rest).trans room }
  | bytePop chByte => exact { hs with chByte_le := length_le_of_popped chByte hs.chByte_le }
  | frLoad length empty => exact hs.writeFrame length List.length_replicate fun _ => ⟨rfl, rfl⟩
  | @dsRun frame running loaded bytes =>
    have length : (descramble s.P frame).length = s.P.frameLenMax := by
      rw [descramble_length, Memory.length_of_bytes bytes]
    exact hs.writeFrame length hs.fecInvalid_length fun _ => hs.fec_clear (.inl loaded)
  | @fecRun frame running descrambled bytes =>
    obtain ⟨length, flags⟩ := fecBlocks_length s.P (frameMode s.P frame) frame
    exact hs.writeFrame (length.trans (Memory.length_of_bytes bytes)) flags (by simp)
  | frRead => exact { hs with fb_written := fun h => absurd rfl h, fec_clear := by simp }

/-- The trace is no part of the invariant. -/
theorem State.Inv.withTrace {s : State} (hs : s.Inv) (bytes : List Byte) : (s.withTrace bytes).Inv :=
  { hs with }

/-- Settles O55, field by field. -/
theorem resetMeetsInvariant : Obligations.ResetMeetsInvariant := State.powerOn_inv

/-- Settles O56: by the effect of the operation that the step performs. -/
theorem stepKeepsInvariant : Obligations.StepKeepsInvariant := by
  intro s t hs h
  obtain rfl | ⟨i, rest, -, effect⟩ := step_effect h
  · exact hs
  · exact effect.keeps_inv (hs.withTrace rest)

end Sys2Proof.Machine
end

section
/-! Which operations can change each piece of state (10_state.md): one frame lemma per piece. -/

namespace Sys2Proof.Machine

section

variable {s t : State} {i : Instr}

theorem Effect.params_eq (h : Effect s i t) : t.params = s.params := by
  cases h with
  | _ => rfl

theorem Effect.trace_eq (h : Effect s i t) : t.trace = s.trace := by
  cases h with
  | _ => rfl

theorem Effect.results_eq (h : Effect s i t) (hst : i ≠ .stRead) (hpop : i ≠ .bytePop) (hfr : i ≠ .frRead) :
    t.results = s.results := by
  cases h with
  | stRead => exact absurd rfl hst
  | bytePop => exact absurd rfl hpop
  | frRead => exact absurd rfl hfr
  | _ => rfl

theorem Effect.ctrl_eq (h : Effect s i t) (hr : i ≠ .reset) (hstart : ∀ st, i ≠ .stageStart st)
    (hstop : ∀ st, i ≠ .stageStop st) : t.ctrl = s.ctrl := by
  cases h with
  | reset => exact absurd rfl hr
  | stageStart st => exact absurd rfl (hstart st)
  | stageStop st => exact absurd rfl (hstop st)
  | _ => rfl

theorem Effect.slicer_eq (h : Effect s i t) (hr : i ≠ .reset) (hsl : i ≠ .slStep) :
    t.slShreg = s.slShreg ∧ t.slBitcnt = s.slBitcnt := by
  cases h with
  | reset => exact absurd rfl hr
  | slStep => exact absurd rfl hsl
  | _ => exact ⟨rfl, rfl⟩

/-- R31: the configuration registers and `TR_CFG_VALID` are those of the last `TR.CFG`; `TR_FREQ` may differ. -/
theorem Effect.trConfig_eq (h : Effect s i t) (hr : i ≠ .reset) (hcfg : ∀ r d w v o, i ≠ .trCfg r d w v o) :
    (∀ cfg freq, t.tr = .configured cfg freq → ∃ f, s.tr = .configured cfg f) ∧
      (t.tr = .unconfigured → s.tr = .unconfigured) := by
  cases h with
  | reset => exact absurd rfl hr
  | trCfgAccepted => exact absurd rfl (hcfg _ _ _ _ _)
  | trCfgRejected => exact absurd rfl (hcfg _ _ _ _ _)
  | trStep tr =>
    refine ⟨fun cfg freq h => ?_, fun h => by cases h⟩
    cases h
    exact ⟨_, tr⟩
  | _ => exact ⟨fun _ freq h => ⟨freq, h⟩, id⟩

theorem Effect.trLoop_eq (h : Effect s i t) (hr : i ≠ .reset) (hcfg : ∀ r d w v o, i ≠ .trCfg r d w v o)
    (hstep : i ≠ .trStep) :
    t.tr = s.tr ∧ t.trDl = s.trDl ∧ t.trPhase = s.trPhase ∧ t.trYPrev = s.trYPrev ∧
      t.trYEarly = s.trYEarly ∧ t.trYOntime = s.trYOntime ∧ t.trFsm = s.trFsm ∧ t.trErr = s.trErr := by
  cases h with
  | reset => exact absurd rfl hr
  | trCfgAccepted => exact absurd rfl (hcfg _ _ _ _ _)
  | trCfgRejected => exact absurd rfl (hcfg _ _ _ _ _)
  | trStep => exact absurd rfl hstep
  | _ => exact ⟨rfl, rfl, rfl, rfl, rfl, rfl, rfl, rfl⟩

theorem Effect.fecFlags_eq (h : Effect s i t) (hr : i ≠ .reset) (hload : ∀ blk, i ≠ .frLoad blk)
    (hfec : i ≠ .fecRun) : t.fecInvalid = s.fecInvalid ∧ t.fecMode = s.fecMode := by
  cases h with
  | reset => exact absurd rfl hr
  | frLoad => exact absurd rfl (hload _)
  | fecRun => exact absurd rfl hfec
  | _ => exact ⟨rfl, rfl⟩

theorem Effect.fb_eq (h : Effect s i t) (hr : i ≠ .reset) (hload : ∀ blk, i ≠ .frLoad blk)
    (hds : i ≠ .dsRun) (hfec : i ≠ .fecRun) : t.fb = s.fb := by
  cases h with
  | reset => exact absurd rfl hr
  | frLoad => exact absurd rfl (hload _)
  | dsRun => exact absurd rfl hds
  | fecRun => exact absurd rfl hfec
  | _ => rfl

theorem Effect.chIn_eq (h : Effect s i t) (hr : i ≠ .reset) (hin : ∀ v, i ≠ .inSample v) (htr : i ≠ .trStep) :
    t.chIn = s.chIn := by
  cases h with
  | reset => exact absurd rfl hr
  | inSample v => exact absurd rfl (hin v)
  | trStep => exact absurd rfl htr
  | _ => rfl

theorem Effect.chSym_eq (h : Effect s i t) (hr : i ≠ .reset) (hpush : ∀ v, i ≠ .symPush v) (htr : i ≠ .trStep)
    (hsl : i ≠ .slStep) : t.chSym = s.chSym := by
  cases h with
  | reset => exact absurd rfl hr
  | symPush v => exact absurd rfl (hpush v)
  | trStep => exact absurd rfl htr
  | slStep => exact absurd rfl hsl
  | _ => rfl

theorem Effect.chByte_eq (h : Effect s i t) (hr : i ≠ .reset) (hsl : i ≠ .slStep) (hpop : i ≠ .bytePop) :
    t.chByte = s.chByte := by
  cases h with
  | reset => exact absurd rfl hr
  | slStep => exact absurd rfl hsl
  | bytePop => exact absurd rfl hpop
  | _ => rfl

/-- R45: the transitions of `FB_STATE`. -/
theorem Effect.fbState_cases (h : Effect s i t) :
    (t.fbState = s.fbState ∧ i ≠ .dsRun ∧ i ≠ .fecRun ∧ i ≠ .frRead ∧ ∀ blk, i ≠ .frLoad blk) ∨
    (s.fbState = .empty ∧ t.fbState = .loaded ∧ ∃ blk, i = .frLoad blk) ∨
    (s.fbState = .loaded ∧ t.fbState = .descrambled ∧ i = .dsRun) ∨
    (s.fbState = .descrambled ∧ t.fbState = .corrected ∧ i = .fecRun) ∨
    (s.fbState = .corrected ∧ t.fbState = .empty ∧ i = .frRead) ∨
    (t.fbState = .empty ∧ i = .reset) := by
  cases h with
  | frLoad length empty => exact .inr (.inl ⟨empty, rfl, _, rfl⟩)
  | dsRun running loaded bytes => exact .inr (.inr (.inl ⟨loaded, rfl, rfl⟩))
  | fecRun running descrambled bytes => exact .inr (.inr (.inr (.inl ⟨descrambled, rfl, rfl⟩)))
  | frRead corrected bytes => exact .inr (.inr (.inr (.inr (.inl ⟨corrected, rfl, rfl⟩))))
  | reset => exact .inr (.inr (.inr (.inr (.inr ⟨rfl, rfl⟩))))
  | _ => exact .inl ⟨rfl, nofun, nofun, nofun, nofun⟩

/-- The frame of `FB_STATE`, from its transitions. -/
theorem Effect.fbState_eq (h : Effect s i t) (hr : i ≠ .reset) (hload : ∀ blk, i ≠ .frLoad blk)
    (hds : i ≠ .dsRun) (hfec : i ≠ .fecRun) (hread : i ≠ .frRead) : t.fbState = s.fbState := by
  obtain ⟨same, -⟩ | ⟨-, -, blk, hi⟩ | ⟨-, -, hi⟩ | ⟨-, -, hi⟩ | ⟨-, -, hi⟩ | ⟨-, hi⟩ := h.fbState_cases
  · exact same
  · exact absurd hi (hload blk)
  · exact absurd hi hds
  · exact absurd hi hfec
  · exact absurd hi hread
  · exact absurd hi hr

/-! ### The channels (R26, R27) -/

theorem Effect.chIn_lossless (h : Effect s i t) (hr : i ≠ .reset) :
    ∃ new, s.chIn.drop (if i = .trStep then 1 else 0) ++ new = t.chIn ∧
      ((∀ v, i ≠ .inSample v) → new = []) ∧ (i = .trStep → s.chIn ≠ []) := by
  cases h with
  | reset => exact absurd rfl hr
  | inSample v => exact ⟨[sratioValue v], rfl, fun hin => absurd rfl (hin v), nofun⟩
  | trStep tr chIn => exact ⟨[], by simp [chIn], fun _ => rfl, by simp [chIn]⟩
  | _ => exact ⟨[], List.append_nil _, fun _ => rfl, nofun⟩

theorem Effect.chSym_lossless (h : Effect s i t) (hr : i ≠ .reset) :
    ∃ new, s.chSym.drop (if i = .slStep then 1 else 0) ++ new = t.chSym ∧
      (i ≠ .trStep → (∀ v, i ≠ .symPush v) → new = []) ∧ (i = .slStep → s.chSym ≠ []) := by
  cases h with
  | reset => exact absurd rfl hr
  | symPush v => exact ⟨[sratioValue v], rfl, fun _ hpush => absurd rfl (hpush v), nofun⟩
  | trStep => exact ⟨_, rfl, fun htr => absurd rfl htr, nofun⟩
  | slStep chSym => exact ⟨[], by simp [chSym], fun _ _ => rfl, by simp [chSym]⟩
  | _ => exact ⟨[], List.append_nil _, fun _ _ => rfl, nofun⟩

/-- R141: what a firing of SL pushes, a byte or nothing. -/
theorem State.afterSlStep_chByte_eq_append (s : State) (v : NUM) (rest : List NUM) :
    ∃ new, s.chByte ++ new = (s.afterSlStep v rest).chByte := by
  rw [State.afterSlStep_chByte]
  split
  · exact ⟨_, rfl⟩
  · exact ⟨[], List.append_nil _⟩

theorem Effect.chByte_lossless (h : Effect s i t) (hr : i ≠ .reset) :
    ∃ new, s.chByte.drop (if i = .bytePop then 1 else 0) ++ new = t.chByte ∧
      (i ≠ .slStep → new = []) ∧ (i = .bytePop → s.chByte ≠ []) := by
  cases h with
  | reset => exact absurd rfl hr
  | slStep =>
    obtain ⟨new, pushed⟩ := s.afterSlStep_chByte_eq_append _ _
    exact ⟨new, pushed, fun hsl => absurd rfl hsl, nofun⟩
  | bytePop chByte => exact ⟨[], by simp [chByte], fun _ => rfl, by simp [chByte]⟩
  | _ => exact ⟨[], List.append_nil _, fun _ => rfl, nofun⟩

end

/-- Settles O31, channel by channel. -/
theorem channelsAreLossless : Obligations.ChannelsAreLossless := by
  intro s t i hr h
  have effect := exec_effect h
  exact ⟨effect.chIn_lossless hr, effect.chSym_lossless hr, effect.chByte_lossless hr⟩

/-- Settles O38, by the effect of each operation. -/
theorem fbStateTransitions : Obligations.FbStateTransitions :=
  fun _ _ _ h => (exec_effect h).fbState_cases

/-- Settles O54, assembled from the frame lemma of each piece of state. -/
theorem writersOfState : Obligations.WritersOfState := by
  intro s t i h
  have effect := exec_effect h
  refine ⟨effect.params_eq, effect.trace_eq, effect.results_eq, or_iff_not_imp_left.mpr fun hr => ?_⟩
  exact ⟨effect.ctrl_eq hr, effect.slicer_eq hr,
    fun hcfg =>
      have ⟨config, unconfigured⟩ := effect.trConfig_eq hr hcfg
      ⟨config, unconfigured, effect.trLoop_eq hr hcfg⟩,
    fun hload => ⟨effect.fecFlags_eq hr hload, effect.fb_eq hr hload, effect.fbState_eq hr hload⟩,
    effect.chIn_eq hr, effect.chSym_eq hr, effect.chByte_eq hr⟩

end Sys2Proof.Machine
end

section
/-! The two data paths (10_state.md R21): the operations of each do the same whatever the other path holds. -/

namespace Sys2Proof.Machine

/-! ### What the front path reads, with the back path of another state -/

section

variable (s u : State)

@[simp] theorem State.withBack_chIn : (s.withBack u).chIn = s.chIn := rfl
@[simp] theorem State.withBack_chSym : (s.withBack u).chSym = s.chSym := rfl
@[simp] theorem State.withBack_chByte : (s.withBack u).chByte = s.chByte := rfl
@[simp] theorem State.withBack_tr : (s.withBack u).tr = s.tr := rfl

end

/-! ### A change of the next state, through each shared operation -/

section

variable (f : State → State)

@[simp] theorem mapNext_require (m : String) (c : Bool) (k : Out) :
    mapNext f (require m c k) = require m c (mapNext f k) := by
  cases c <;> rfl

@[simp] theorem mapNext_withRatio (r : Ratio) (k : NUM → Out) :
    mapNext f (withRatio r k) = withRatio r fun x => mapNext f (k x) :=
  apply_ite (mapNext f) _ _ _

@[simp] theorem mapNext_withSRatio (r : SRatio) (k : NUM → Out) :
    mapNext f (withSRatio r k) = withSRatio r fun x => mapNext f (k x) :=
  apply_ite (mapNext f) _ _ _

@[simp] theorem mapNext_withFrame (s : State) (k : List Byte → Out) :
    mapNext f (s.withFrame k) = s.withFrame fun bytes => mapNext f (k bytes) := by
  unfold State.withFrame
  split <;> rfl

end

/-! ### The front path -/

section

variable (s u : State)

theorem trCfgNum_withBack (r d w v o : NUM) :
    trCfgNum r d w v o (s.withBack u) = mapNext (·.withBack u) (trCfgNum r d w v o s) := by
  unfold trCfgNum
  rw [mapNext_require, apply_ite (mapNext _)]
  rfl

theorem execTrCfg_withBack (r d w v o : Ratio) :
    execTrCfg r d w v o (s.withBack u) = mapNext (·.withBack u) (execTrCfg r d w v o s) := by
  simp only [execTrCfg, mapNext_withRatio, trCfgNum_withBack]

theorem execInSample_withBack (v : SRatio) :
    execInSample v (s.withBack u) = mapNext (·.withBack u) (execInSample v s) := by
  simp only [execInSample, inSampleNum, mapNext_withSRatio, mapNext_require]
  rfl

theorem execSymPush_withBack (v : SRatio) :
    execSymPush v (s.withBack u) = mapNext (·.withBack u) (execSymPush v s) := by
  simp only [execSymPush, symPushNum, mapNext_withSRatio, mapNext_require]
  rfl

theorem execTrStep_withBack : execTrStep (s.withBack u) = mapNext (·.withBack u) (execTrStep s) := by
  unfold execTrStep
  rw [State.withBack_tr, State.withBack_chIn]
  cases s.tr with
  | unconfigured => rfl
  | configured cfg freq =>
    cases s.chIn with
    | nil => rfl
    | cons x rest => rw [mapNext_require]; rfl

theorem execSlStep_withBack : execSlStep (s.withBack u) = mapNext (·.withBack u) (execSlStep s) := by
  unfold execSlStep
  rw [State.withBack_chSym]
  cases s.chSym with
  | nil => rfl
  | cons v rest => rw [mapNext_require]; rfl

theorem execBytePop_withBack : execBytePop (s.withBack u) = mapNext (·.withBack u) (execBytePop s) := by
  unfold execBytePop
  rw [State.withBack_chByte]
  cases s.chByte with
  | nil => rfl
  | cons b rest => rfl

/-- R21: an operation of the front path neither reads nor changes the back path. -/
theorem exec_withBack {i : Instr} (h : isFront i = true) :
    exec i (s.withBack u) = mapNext (·.withBack u) (exec i s) := by
  cases i with
  | trCfg r d w v o => exact execTrCfg_withBack s u r d w v o
  | inSample v => exact execInSample_withBack s u v
  | trStep => exact execTrStep_withBack s u
  | symPush v => exact execSymPush_withBack s u v
  | slStep => exact execSlStep_withBack s u
  | bytePop => exact execBytePop_withBack s u
  | _ => cases h

/-! ### The back path -/

theorem execFrLoad_withFront (blk : List Byte) :
    execFrLoad blk (s.withFront u) = mapNext (·.withFront u) (execFrLoad blk s) := by
  unfold execFrLoad
  rw [apply_ite (mapNext _), mapNext_require]
  rfl

theorem execDsRun_withFront : execDsRun (s.withFront u) = mapNext (·.withFront u) (execDsRun s) := by
  simp only [execDsRun, mapNext_require, mapNext_withFrame]
  rfl

theorem execFecRun_withFront : execFecRun (s.withFront u) = mapNext (·.withFront u) (execFecRun s) := by
  simp only [execFecRun, mapNext_require, mapNext_withFrame]
  rfl

theorem execFrRead_withFront : execFrRead (s.withFront u) = mapNext (·.withFront u) (execFrRead s) := by
  simp only [execFrRead, mapNext_require, mapNext_withFrame]
  rfl

/-- R21: an operation of the back path neither reads nor changes the front path. -/
theorem exec_withFront {i : Instr} (h : isBack i = true) :
    exec i (s.withFront u) = mapNext (·.withFront u) (exec i s) := by
  cases i with
  | frLoad blk => exact execFrLoad_withFront s u blk
  | dsRun => exact execDsRun_withFront s u
  | fecRun => exact execFecRun_withFront s u
  | frRead => exact execFrRead_withFront s u
  | _ => cases h

end

/-- Settles O58, path by path. -/
theorem pathsDoNotTouch : Obligations.PathsDoNotTouch :=
  fun s u _ => ⟨exec_withBack s u, exec_withFront s u⟩

end Sys2Proof.Machine
end

section
/-! `RESET` (10_state.md R58) and the `STATUS` view (R55). -/

namespace Sys2Proof.Machine

/-- R58: after power-on every piece of state has its reset value. -/
theorem State.powerOn_atReset (p : Parameters) : (State.powerOn p).AtReset where
  chIn := rfl
  chSym := rfl
  chByte := rfl
  ctrl := rfl
  tr := rfl
  trDl := nofun
  trPhase := rfl
  trYPrev := rfl
  trYEarly := rfl
  trYOntime := rfl
  trErr := rfl
  trFsm := rfl
  slShreg := rfl
  slBitcnt := rfl
  fb _ := rfl
  fbState := rfl
  fecInvalid_length := List.length_replicate
  fecInvalid j := by simp [State.invalid]
  fecMode := rfl

/-- Settles O12: `RESET` leads to the power-on state, but for the trace and the results. -/
theorem resetOperation : Obligations.ResetOperation :=
  ⟨State.powerOn_atReset, rfl, fun s => ⟨_, rfl, { State.powerOn_atReset s.params with }, rfl, rfl, rfl⟩⟩

/-- R55: `STATUS`, bit by bit. -/
theorem State.status_bit (s : State) {k : Nat} (hk : k < 16) : s.status.getLsbD k =
    if k < 4 then s.ctrl.getLsbD k
    else if k = 4 then s.tr.valid
    else if k = 5 then s.trFsm.bit
    else if k < 8 then s.fbState.code.getLsbD (k - 6)
    else if k = 8 then s.fecMode
    else if k = 9 then s.frameInvalid
    else if k = 10 then s.invalid 0
    else if k = 11 then s.invalid 1
    else if k < 15 then s.slBitcnt.getLsbD (k - 12)
    else false := by
  unfold State.status
  rw [BitVec.getLsbD_append]
  interval_cases k <;>
    simp only [BitVec.getLsbD_append, BitVec.getLsbD_ofBool, BitVec.getLsbD_zero, Nat.reduceLT, Nat.reduceSub,
      Nat.reduceEqDiff, if_true, if_false, decide_true, Bool.true_and]

theorem TrBank.valid_eq_true_iff (b : TrBank) : b.valid = true ↔ ∃ cfg freq, b = .configured cfg freq := by
  cases b <;> simp [TrBank.valid]

theorem TrFsm.bit_eq (f : TrFsm) : f.bit = decide (f = .strobe) := by
  cases f <;> rfl

theorem State.frameInvalid_eq_true_iff (s : State) : s.frameInvalid = true ↔ true ∈ s.fecInvalid := by
  simp [State.frameInvalid]

theorem State.status_fbState (s : State) : s.status.extractLsb' 6 2 = s.fbState.code := by
  apply BitVec.eq_of_getLsbD_eq
  intro k hk
  rw [BitVec.getLsbD_extractLsb', s.status_bit (by omega)]
  interval_cases k <;> rfl

theorem State.status_slBitcnt (s : State) : s.status.extractLsb' 12 3 = s.slBitcnt := by
  apply BitVec.eq_of_getLsbD_eq
  intro k hk
  rw [BitVec.getLsbD_extractLsb', s.status_bit (by omega)]
  interval_cases k <;> rfl

/-- Settles O15, from the bits of `STATUS`. -/
theorem statusView : Obligations.StatusView := by
  refine ⟨rfl, fun s => ⟨s.status, rfl, ?_⟩⟩
  have bit (k : Fin 16) := s.status_bit k.isLt
  refine ⟨bit 0, bit 1, bit 2, bit 3, (bit 4).congr_left.trans s.tr.valid_eq_true_iff,
    (bit 5).trans s.trFsm.bit_eq, ?_, bit 8, (bit 9).congr_left.trans s.frameInvalid_eq_true_iff, bit 10, bit 11,
    s.status_slBitcnt, bit 15⟩
  rw [s.status_fbState]
  cases s.fbState <;> rfl

end Sys2Proof.Machine
end

section
/-! `Effect` is the whole of `exec`: an operation has a step exactly where its operands are well formed and one of its
effects applies. -/

namespace Sys2Proof.Machine

variable {s t : State} {i : Instr}

/-- R82, R95, R96: an operation that has a step has operands that are values. -/
theorem wellFormed_of_exec_next (h : exec i s = .next t) : i.wellFormed s.P = true := by
  cases i with
  | trCfg r d w v o =>
    obtain ⟨⟨hr, hd, hw, hv, ho⟩, -⟩ := execTrCfg_next h
    simp only [Instr.wellFormed, Ratio.wellFormed, Bool.and_eq_true, bne_iff_ne]
    exact ⟨⟨⟨⟨hr, hd⟩, hw⟩, hv⟩, ho⟩
  | inSample v => exact bne_iff_ne.mpr (execInSample_next h).1
  | symPush v => exact bne_iff_ne.mpr (execSymPush_next h).1
  | frLoad blk => exact beq_iff_eq.mpr (execFrLoad_next h).1
  | _ => rfl

/-- R95: on operands with a value, `TR.CFG` is its meaning on those values. -/
theorem execTrCfg_of_wellFormed {r d w v o : Ratio} {P : Params}
    (wf : (Instr.trCfg r d w v o).wellFormed P = true) (s : State) :
    execTrCfg r d w v o s =
      trCfgNum (ratioValue r) (ratioValue d) (ratioValue w) (ratioValue v) (ratioValue o) s := by
  simp only [Instr.wellFormed, Ratio.wellFormed, Bool.and_eq_true, bne_iff_ne] at wf
  obtain ⟨⟨⟨⟨hr, hd⟩, hw⟩, hv⟩, ho⟩ := wf
  rw [execTrCfg, withRatio_of_ne hr, withRatio_of_ne hd, withRatio_of_ne hw, withRatio_of_ne hv, withRatio_of_ne ho]

/-- The converse of `exec_effect`. -/
theorem Effect.exec_eq (h : Effect s i t) (wf : i.wellFormed s.P = true) : exec i s = .next t := by
  cases h with
  | trCfgAccepted stopped ok => simp [exec, execTrCfg_of_wellFormed wf, trCfgNum, stopped, ok]
  | trCfgRejected stopped bad => simp [exec, execTrCfg_of_wellFormed wf, trCfgNum, stopped, bad]
  | inSample v room =>
    simp [exec, execInSample, withSRatio_of_ne (bne_iff_ne.mp wf), inSampleNum, push, (hasRoom_iff _ _ _).mpr room]
  | trStep tr chIn running room => simp [exec, execTrStep, tr, chIn, running, (hasRoom_iff _ _ _).mpr room]
  | symPush v stopped room =>
    simp [exec, execSymPush, withSRatio_of_ne (bne_iff_ne.mp wf), symPushNum, push, stopped,
      (hasRoom_iff _ _ _).mpr room]
  | slStep chSym running room => simp [exec, execSlStep, chSym, running, (hasRoom_iff _ _ _).mpr room]
  | bytePop chByte => simp [exec, execBytePop, chByte, State.returning]
  | frLoad length empty => simp [exec, execFrLoad, length, empty]
  | dsRun running loaded bytes => simp [exec, execDsRun, running, loaded, State.withFrame_of_bytes bytes]
  | fecRun running descrambled bytes =>
    simp [exec, execFecRun, running, descrambled, State.withFrame_of_bytes bytes]
  | frRead corrected bytes => simp [exec, execFrRead, corrected, State.withFrame_of_bytes bytes, State.returning]
  | _ => rfl

theorem exec_eq_next_iff : exec i s = .next t ↔ i.wellFormed s.P = true ∧ Effect s i t :=
  ⟨fun h => ⟨wellFormed_of_exec_next h, exec_effect h⟩, fun ⟨wf, effect⟩ => effect.exec_eq wf⟩

end Sys2Proof.Machine
end

section
/-! The firings commute (20_memory.md R74, R76). Operations of different paths commute because the paths do not touch
(10_state.md R21), operations of the front path because a channel is popped at one end and pushed at the other (R25 to
R28); two operations of the back path are never enabled together, since `FB_STATE` names one owner (R45). -/

namespace Sys2Proof.Machine

variable {s sa sb : State} {a b : Instr}

/-- The two orders of `a` and `b` meet: `b` happens in the state `sa` after `a`, `a` in the state `sb` after `b`, and
both lead to one state. -/
def Meet (a b : Instr) (sa sb : State) : Prop := ∃ t, Effect sa b t ∧ Effect sb a t

theorem Meet.symm (h : Meet a b sa sb) : Meet b a sb sa :=
  have ⟨t, afterA, afterB⟩ := h
  ⟨t, afterB, afterA⟩

/-- Where the effects meet, the operations do: neither changes whether the other's operands are well formed. -/
theorem Meet.exec_eq (h : Meet a b sa sb) (ha : exec a s = .next sa) (hb : exec b s = .next sb) :
    ∃ t, exec b sa = .next t ∧ exec a sb = .next t := by
  obtain ⟨t, afterA, afterB⟩ := h
  obtain ⟨wfA, effectA⟩ := exec_eq_next_iff.mp ha
  obtain ⟨wfB, effectB⟩ := exec_eq_next_iff.mp hb
  have paramsA : sa.P = s.P := congrArg Subtype.val effectA.params_eq
  have paramsB : sb.P = s.P := congrArg Subtype.val effectB.params_eq
  exact ⟨t, afterA.exec_eq (paramsA ▸ wfB), afterB.exec_eq (paramsB ▸ wfA)⟩

/-! ### Operations of different paths -/

/-- R21 for effects, from `exec_withBack`. -/
theorem effect_withBack (h : exec a s = .next sa) (front : isFront a = true) (u : State) :
    Effect (s.withBack u) a (sa.withBack u) :=
  exec_effect (by rw [exec_withBack s u front, h]; rfl)

/-- R21 for effects, from `exec_withFront`. -/
theorem effect_withFront (h : exec a s = .next sa) (back : isBack a = true) (u : State) :
    Effect (s.withFront u) a (sa.withFront u) :=
  exec_effect (by rw [exec_withFront s u back, h]; rfl)

/-- An operation of the front path changes the front path and the results, nothing else. -/
theorem Effect.eq_withFront (h : Effect s a sa) (front : isFront a = true) :
    sa = { s.withFront sa with results := sa.results } := by
  cases h with
  | reset | stageStart | stageStop | stRead | frLoad | dsRun | fecRun | frRead => cases front
  | _ => rfl

/-- An operation of the back path changes the back path and the results, nothing else. -/
theorem Effect.eq_withBack (h : Effect s a sa) (back : isBack a = true) :
    sa = { s.withBack sa with results := sa.results } := by
  cases h with
  | frLoad | dsRun | fecRun | frRead => rfl
  | _ => cases back

/-- A firing of the front path meets every operation of the back path. -/
theorem Effect.meet_of_back (ha : Effect s a sa) (firing : a = .trStep ∨ a = .slStep) (hb : exec b s = .next sb)
    (back : isBack b = true) : Meet a b sa sb := by
  have afterA := effect_withFront hb back sa
  have untouched := (exec_effect hb).eq_withBack back
  refine ⟨sb.withFront sa, ?_⟩
  cases ha with
  | trStep tr chIn running room => exact ⟨afterA, by rw [untouched]; exact .trStep tr chIn running room⟩
  | slStep chSym running room => exact ⟨afterA, by rw [untouched]; exact .slStep chSym running room⟩
  | _ => simp at firing

/-- A firing of the back path meets every operation of the front path. -/
theorem Effect.meet_of_front (ha : Effect s a sa) (firing : a = .dsRun ∨ a = .fecRun) (hb : exec b s = .next sb)
    (front : isFront b = true) : Meet a b sa sb := by
  have afterA := effect_withBack hb front sa
  have untouched := (exec_effect hb).eq_withFront front
  refine ⟨sb.withBack sa, ?_⟩
  cases ha with
  | dsRun running loaded bytes => exact ⟨afterA, by rw [untouched]; exact .dsRun running loaded bytes⟩
  | fecRun running descrambled bytes =>
    exact ⟨afterA, by rw [untouched]; exact .fecRun running descrambled bytes⟩
  | _ => simp at firing

/-! ### Two operations of the front path -/

/-- R28: a channel with room for `need` items has it still when its oldest item is taken. -/
theorem room_of_popped {α : Type} {ch rest : List α} {x : α} {need depth : Nat} (h : ch = x :: rest)
    (room : ch.length + need ≤ depth) : rest.length + need ≤ depth :=
  (Nat.add_le_add_right (length_le_of_popped h le_rfl) need).trans room

/-- R25: the oldest item of a channel stays the oldest when others are pushed. -/
theorem append_of_popped {α : Type} {ch rest : List α} {x : α} (h : ch = x :: rest) (new : List α) :
    ch ++ new = x :: (rest ++ new) := by
  rw [h, List.cons_append]

/-- A firing of TR meets every other operation of the front path: `TR.CFG` and `SYM.PUSH` wait until TR is stopped,
`IN.SAMPLE` pushes where TR pops, and `SL.STEP` pops where TR pushes. -/
theorem Effect.trStep_meet (ha : Effect s .trStep sa) (hb : Effect s b sb) (front : isFront b = true)
    (hne : b ≠ .trStep) : Meet .trStep b sa sb := by
  cases ha with
  | trStep tr chIn running room =>
    have notStopped : s.running .tr ≠ false := by rw [running]; nofun
    cases hb with
    | trCfgAccepted stopped => exact absurd stopped notStopped
    | trCfgRejected stopped => exact absurd stopped notStopped
    | symPush v stopped => exact absurd stopped notStopped
    | trStep => exact absurd rfl hne
    | inSample v roomIn =>
      exact ⟨_, .inSample v (room_of_popped chIn roomIn), .trStep tr (append_of_popped chIn _) running room⟩
    | slStep chSym runningSl roomByte =>
      exact ⟨_, .slStep (append_of_popped chSym _) runningSl roomByte,
        .trStep tr chIn running (room_of_popped chSym room)⟩
    | bytePop chByte => exact ⟨_, .bytePop chByte, .trStep tr chIn running room⟩
    | _ => cases front

/-- R141: what a firing of SL pushes does not depend on what `CH_BYTE` holds, so the oldest byte stays the oldest. -/
theorem State.afterSlStep_chByte_of_popped {x : Byte} {bytes : List Byte} (chByte : s.chByte = x :: bytes) (v : NUM)
    (rest : List NUM) :
    (s.afterSlStep v rest).chByte = x :: ({ s with chByte := bytes }.afterSlStep v rest).chByte := by
  simp only [State.afterSlStep_chByte, chByte]
  split <;> rfl

/-- A firing of SL meets every other operation of the front path: `TR.STEP` and `SYM.PUSH` push where SL pops, and
`BYTE.POP` pops where SL pushes. -/
theorem Effect.slStep_meet (ha : Effect s .slStep sa) (hb : Effect s b sb) (front : isFront b = true)
    (hne : b ≠ .slStep) : Meet .slStep b sa sb := by
  have slStep := ha
  cases ha with
  | @slStep v rest chSym running room =>
    cases hb with
    | trStep tr chIn runningTr roomSym =>
      exact (Effect.trStep_meet (.trStep tr chIn runningTr roomSym) slStep rfl nofun).symm
    | slStep => exact absurd rfl hne
    | trCfgAccepted stopped ok => exact ⟨_, .trCfgAccepted stopped ok, .slStep chSym running room⟩
    | trCfgRejected stopped bad => exact ⟨_, .trCfgRejected stopped bad, .slStep chSym running room⟩
    | inSample w roomIn => exact ⟨_, .inSample w roomIn, .slStep chSym running room⟩
    | symPush w stopped roomSym =>
      exact ⟨_, .symPush w stopped (room_of_popped chSym roomSym), .slStep (append_of_popped chSym _) running room⟩
    | bytePop chByte =>
      exact ⟨_, .bytePop (State.afterSlStep_chByte_of_popped chByte v rest),
        .slStep chSym running (room_of_popped chByte room)⟩
    | _ => cases front

/-! ### Two operations of the back path -/

/-- R45: the value of `FB_STATE` names the one operation of the back path that can happen. -/
theorem Effect.back_firing_unique (ha : Effect s a sa) (firing : a = .dsRun ∨ a = .fecRun) (hb : Effect s b sb)
    (back : isBack b = true) : a = b := by
  cases ha with
  | dsRun _ owner =>
    cases hb with
    | dsRun => rfl
    | frLoad _ other | fecRun _ other | frRead other => cases owner.symm.trans other
    | _ => cases back
  | fecRun _ owner =>
    cases hb with
    | fecRun => rfl
    | frLoad _ other | dsRun _ other | frRead other => cases owner.symm.trans other
    | _ => cases back
  | _ => simp at firing

/-- Settles O59, by the paths of the two operations. -/
theorem firingsCommute : Obligations.FiringsCommute := by
  intro s sa sb a b firing path hne ha hb
  refine Meet.exec_eq ?_ ha hb
  have effectA := exec_effect ha
  have effectB := exec_effect hb
  have firing : (a = .trStep ∨ a = .slStep) ∨ (a = .dsRun ∨ a = .fecRun) := by
    simpa [firings, or_assoc] using firing
  obtain frontFiring | backFiring := firing <;> obtain front | back := path
  · obtain rfl | rfl := frontFiring
    · exact effectA.trStep_meet effectB front hne.symm
    · exact effectA.slStep_meet effectB front hne.symm
  · exact effectA.meet_of_back frontFiring hb back
  · exact effectA.meet_of_front backFiring hb front
  · exact absurd (effectA.back_firing_unique backFiring effectB back) hne

end Sys2Proof.Machine
end

section
/-! The capacities of the channels (20_memory.md R76): no operation computes with them, so that where an operation
happens under two records that differ in the capacities alone, its effects are the same. -/

namespace Sys2Proof

/-- The record of parameters with other capacities of the channels (10_state.md R28). -/
def Params.withDepths (P : Params) (depthIn depthSym depthByte : Nat) : Params :=
  { P with depthIn, depthSym, depthByte }

end Sys2Proof

namespace Sys2Proof.Machine

/-! ### What the operations compute from the parameters -/

section

variable (P : Params) (x y z : Nat)

@[simp] theorem trConfigOf_withDepths (r d w v o : NUM) :
    trConfigOf (P.withDepths x y z) r d w v o = trConfigOf P r d w v o := rfl

@[simp] theorem descramble_withDepths (block : List Byte) :
    descramble (P.withDepths x y z) block = descramble P block := rfl

@[simp] theorem frameMode_withDepths (frame : List Byte) :
    frameMode (P.withDepths x y z) frame = frameMode P frame := rfl

theorem correctAt_withDepths (omega dlam : List Byte) (positions : List Nat) (c : List Byte) :
    correctAt (P.withDepths x y z) omega dlam positions c = correctAt P omega dlam positions c := by
  induction positions generalizing c with
  | nil => rfl
  | cons d rest ih =>
    have value : errorValue (P.withDepths x y z) omega dlam d = errorValue P omega dlam d := rfl
    simp only [correctAt, value, ih]

theorem rsDecode_withDepths (c : List Byte) : rsDecode (P.withDepths x y z) c = rsDecode P c := by
  simp only [rsDecode, correctAt_withDepths]
  rfl

theorem fecBlock_withDepths (ext : Bool) : fecBlock (P.withDepths x y z) ext = fecBlock P ext := by
  funext t j
  simp only [fecBlock, decodeBlock, rsDecode_withDepths]
  rfl

@[simp] theorem fecBlocks_withDepths (ext : Bool) (frame : List Byte) :
    fecBlocks (P.withDepths x y z) ext frame = fecBlocks P ext frame := by
  simp only [fecBlocks, fecBlock_withDepths]
  rfl

end

/-! ### The effects under two records -/

/-- A memory has at most one list of bytes. -/
theorem Memory.bytes_unique {m : Memory} {n n' : Nat} {bytes bytes' : List Byte} (h : m.bytes n = some bytes)
    (h' : m.bytes n' = some bytes') : bytes = bytes' :=
  (Memory.bytes_eq_some.mp h).2.trans (Memory.bytes_eq_some.mp h').2.symm

/-- R76: where an operation happens under both records, it leads to the same state. -/
theorem Effect.eq_of_withDepths {s t t' : State} {i : Instr} {p : Parameters} {x y z : Nat}
    (hp : p.val = s.P.withDepths x y z) (h : Effect s i t) (h' : Effect { s with params := p } i t') :
    t' = { t with params := p } := by
  have hP : ({ s with params := p } : State).P = s.P.withDepths x y z := hp
  cases h with
  | reset =>
    cases h'
    simp only [State.powerOn, hp]
    rfl
  | trCfgAccepted stopped ok =>
    cases h' with
    | trCfgAccepted =>
      rw [hP, trConfigOf_withDepths]
      rfl
    | trCfgRejected _ bad => exact absurd (ok.symm.trans bad) nofun
  | trCfgRejected stopped bad =>
    cases h' with
    | trCfgAccepted _ ok => exact absurd (ok.symm.trans bad) nofun
    | trCfgRejected => rfl
  | trStep tr chIn =>
    cases h' with
    | trStep tr' chIn' =>
      cases tr.symm.trans tr'
      cases chIn.symm.trans chIn'
      rfl
  | slStep chSym =>
    cases h' with
    | slStep chSym' =>
      cases chSym.symm.trans chSym'
      rfl
  | bytePop chByte =>
    cases h' with
    | bytePop chByte' =>
      cases chByte.symm.trans chByte'
      rfl
  | frLoad =>
    cases h'
    rw [hP]
    rfl
  | dsRun _ _ bytes =>
    cases h' with
    | dsRun _ _ bytes' =>
      obtain rfl := Memory.bytes_unique bytes bytes'
      rw [hP, descramble_withDepths]
  | fecRun _ _ bytes =>
    cases h' with
    | fecRun _ _ bytes' =>
      obtain rfl := Memory.bytes_unique bytes bytes'
      rw [hP, frameMode_withDepths, fecBlocks_withDepths]
  | frRead _ bytes =>
    cases h' with
    | frRead _ bytes' =>
      obtain rfl := Memory.bytes_unique bytes bytes'
      rfl
  | _ =>
    cases h'
    rfl

/-- Settles O60, by comparing the effects under the two records. -/
theorem capacitiesDoNotMatter : Obligations.CapacitiesDoNotMatter :=
  fun _ _ _ _ _ hp h h' => (exec_effect h).eq_of_withDepths hp (exec_effect h')

end Sys2Proof.Machine
end

section
/-! The trace encoding (30_encoding.md R88 to R98): each part of the decoder inverts the part of the encoder that it
reads, so that the operation at the front of a byte string is decoded exactly where its encoding stands there. -/

namespace Sys2Proof

/-! ### Op codes (R88, R98) -/

theorem Op.ofCode_eq_some_iff {b : Byte} {o : Op} : Op.ofCode b = some o ↔ o.code = b := by
  constructor
  · intro h
    simpa using List.find?_some h
  · rintro rfl
    cases o with
    | _ => rfl

@[simp] theorem Op.ofCode_code (o : Op) : Op.ofCode o.code = some o := Op.ofCode_eq_some_iff.mpr rfl

theorem Op.code_injective {o o' : Op} (h : o.code = o'.code) : o = o' :=
  Option.some.inj (by rw [← Op.ofCode_code o, h, Op.ofCode_code])

/-- R98: the op codes between the rows of R88 are reserved. -/
theorem Op.ofCode_reserved : ∀ b : Byte, (0x04 ≤ b.toNat ∧ b.toNat ≤ 0x0F ∨ 0x13 ≤ b.toNat ∧ b.toNat ≤ 0x1F ∨
    0x23 ≤ b.toNat ∧ b.toNat ≤ 0x2F ∨ 0x34 ≤ b.toNat) → Op.ofCode b = none := by
  decide +kernel

/-! ### Operands (R68, R95 to R97) -/

@[simp] theorem encodeWord16_word16 (hi lo : Byte) : encodeWord16 (word16 hi lo) = [hi, lo] := by
  rw [encodeWord16, word16, BitVec.extractLsb'_append_eq_left, BitVec.extractLsb'_append_eq_right]

@[simp] theorem word16_halves (w : BitVec 16) : word16 (w.extractLsb' 8 8) (w.extractLsb' 0 8) = w :=
  (BitVec.extractLsb'_append_extractLsb'_eq_extractLsb' rfl).trans BitVec.extractLsb'_eq_self

theorem encodeRatio_eq_iff {r : Ratio} {b0 b1 b2 b3 : Byte} :
    encodeRatio r = [b0, b1, b2, b3] ↔ r = ⟨word16 b0 b1, word16 b2 b3⟩ := by
  constructor
  · intro h
    cases h
    simp
  · rintro rfl
    simp [encodeRatio]

theorem ratioOf_eq_some_iff {b0 b1 b2 b3 : Byte} {r : Ratio} :
    ratioOf b0 b1 b2 b3 = some r ↔ r.wellFormed = true ∧ encodeRatio r = [b0, b1, b2, b3] := by
  rw [encodeRatio_eq_iff, ratioOf]
  by_cases zero : word16 b2 b3 = 0
  · rw [if_pos zero]
    exact ⟨nofun, fun ⟨wf, eq⟩ => absurd (eq ▸ zero) (bne_iff_ne.mp wf)⟩
  · rw [if_neg zero]
    exact ⟨fun h => by cases h; exact ⟨bne_iff_ne.mpr zero, rfl⟩, fun ⟨_, eq⟩ => congrArg some eq.symm⟩

/-- R96: an `SRAT` has the form of a `RAT`. -/
theorem sratioOf_eq_some_iff {b0 b1 b2 b3 : Byte} {v : SRatio} :
    sratioOf b0 b1 b2 b3 = some v ↔ v.wellFormed = true ∧ encodeSRatio v = [b0, b1, b2, b3] := by
  have form : sratioOf b0 b1 b2 b3 = some v ↔ ratioOf b0 b1 b2 b3 = some ⟨v.num, v.den⟩ := by
    cases v
    unfold sratioOf ratioOf
    split <;> simp
  exact form.trans ratioOf_eq_some_iff

theorem takeRatio_eq_some_iff {bs rest : List Byte} {r : Ratio} :
    takeRatio bs = some (r, rest) ↔ r.wellFormed = true ∧ bs = encodeRatio r ++ rest := by
  constructor
  · intro h
    unfold takeRatio at h
    split at h
    next b0 b1 b2 b3 tail =>
      obtain ⟨r', hr, heq⟩ := Option.map_eq_some_iff.mp h
      cases heq
      obtain ⟨wf, bytes⟩ := ratioOf_eq_some_iff.mp hr
      exact ⟨wf, by rw [bytes]; rfl⟩
    next => cases h
  · rintro ⟨wf, rfl⟩
    exact Option.map_eq_some_iff.mpr ⟨r, ratioOf_eq_some_iff.mpr ⟨wf, rfl⟩, rfl⟩

theorem sampleOperand_eq_some_iff {bs : List Byte} {v : SRatio} :
    sampleOperand bs = some v ↔ v.wellFormed = true ∧ bs = encodeSRatio v := by
  constructor
  · intro h
    unfold sampleOperand at h
    split at h
    next =>
      obtain ⟨wf, bytes⟩ := sratioOf_eq_some_iff.mp h
      exact ⟨wf, bytes.symm⟩
    next => cases h
  · rintro ⟨wf, rfl⟩
    exact sratioOf_eq_some_iff.mpr ⟨wf, rfl⟩

theorem stageOf_eq_some_iff {b : Byte} {st : Stage} : stageOf b = some st ↔ b = encodeStage st := by
  revert b
  cases st <;> decide +kernel

theorem stageOperand_eq_some_iff {bs : List Byte} {st : Stage} :
    stageOperand bs = some st ↔ bs = [encodeStage st] := by
  constructor
  · intro h
    unfold stageOperand at h
    split at h
    next => rw [stageOf_eq_some_iff.mp h]
    next => cases h
  · rintro rfl
    exact stageOf_eq_some_iff.mpr rfl

theorem configOperands_eq_some_iff {P : Params} {bs : List Byte} {i : Instr} :
    configOperands bs = some i ↔ i.op = .trCfg ∧ i.wellFormed P = true ∧ bs = encodeOperands i := by
  constructor
  · intro h
    simp only [configOperands, Option.bind_eq_bind, Option.bind_eq_some_iff, Prod.exists,
      takeRatio_eq_some_iff] at h
    obtain ⟨r, _, ⟨hr, rfl⟩, d, _, ⟨hd, rfl⟩, w, _, ⟨hw, rfl⟩, v, _, ⟨hv, rfl⟩, o, rest, ⟨ho, rfl⟩, h⟩ := h
    split at h
    next empty =>
      cases h
      cases List.isEmpty_iff.mp empty
      simp [Instr.op, Instr.wellFormed, encodeOperands, hr, hd, hw, hv, ho]
    next => cases h
  · rintro ⟨op, wf, rfl⟩
    cases i with
    | trCfg r d w v o =>
      simp only [Instr.wellFormed, Bool.and_eq_true] at wf
      obtain ⟨⟨⟨⟨hr, hd⟩, hw⟩, hv⟩, ho⟩ := wf
      have take {x : Ratio} (hx : x.wellFormed = true) (rest : List Byte) :
          takeRatio (encodeRatio x ++ rest) = some (x, rest) := takeRatio_eq_some_iff.mpr ⟨hx, rfl⟩
      have last := take ho []
      rw [List.append_nil] at last
      simp [configOperands, encodeOperands, take hr, take hd, take hw, take hv, last]
    | _ => cases op

/-- R91: a well-formed operation has as many operand bytes as its op code says. -/
theorem encodeOperands_length {P : Params} {i : Instr} (wf : i.wellFormed P = true) :
    (encodeOperands i).length = i.op.operandBytes P := by
  cases i with
  | frLoad blk => exact beq_iff_eq.mp wf
  | _ => rfl

theorem operands_encodeOperands {P : Params} {i : Instr} (wf : i.wellFormed P = true) :
    operands i.op (encodeOperands i) = some i := by
  cases i with
  | stageStart st => exact Option.map_eq_some_iff.mpr ⟨st, stageOperand_eq_some_iff.mpr rfl, rfl⟩
  | stageStop st => exact Option.map_eq_some_iff.mpr ⟨st, stageOperand_eq_some_iff.mpr rfl, rfl⟩
  | trCfg r d w v o => exact configOperands_eq_some_iff.mpr ⟨rfl, wf, rfl⟩
  | inSample v => exact Option.map_eq_some_iff.mpr ⟨v, sampleOperand_eq_some_iff.mpr ⟨wf, rfl⟩, rfl⟩
  | symPush v => exact Option.map_eq_some_iff.mpr ⟨v, sampleOperand_eq_some_iff.mpr ⟨wf, rfl⟩, rfl⟩
  | _ => rfl

theorem operands_eq_some {P : Params} {o : Op} {bs : List Byte} {i : Instr}
    (length : bs.length = o.operandBytes P) (h : operands o bs = some i) :
    i.op = o ∧ i.wellFormed P = true ∧ bs = encodeOperands i := by
  cases o with
  | stageStart | stageStop =>
    obtain ⟨st, hst, rfl⟩ := Option.map_eq_some_iff.mp h
    exact ⟨rfl, rfl, stageOperand_eq_some_iff.mp hst⟩
  | inSample | symPush =>
    obtain ⟨v, hv, rfl⟩ := Option.map_eq_some_iff.mp h
    exact ⟨rfl, sampleOperand_eq_some_iff.mp hv⟩
  | trCfg => exact configOperands_eq_some_iff.mp h
  | frLoad =>
    cases h
    exact ⟨rfl, beq_iff_eq.mpr length, rfl⟩
  | _ =>
    cases h
    exact ⟨rfl, rfl, List.eq_nil_of_length_eq_zero length⟩

/-! ### The first operation of a byte string (R90, R91) -/

theorem decodeFirst_code (P : Params) (o : Op) (bs : List Byte) :
    decodeFirst P (o.code :: bs) = if bs.length < o.operandBytes P then none
      else (operands o (bs.take (o.operandBytes P))).map (·, bs.drop (o.operandBytes P)) := by
  simp only [decodeFirst, Op.ofCode_code]

theorem decodeFirst_eq_some_iff {P : Params} {bs rest : List Byte} {i : Instr} :
    decodeFirst P bs = some (i, rest) ↔ i.wellFormed P = true ∧ bs = encode i ++ rest := by
  constructor
  · intro h
    unfold decodeFirst at h
    split at h
    next => cases h
    next b bs =>
      split at h
      next o ho =>
        obtain rfl := Op.ofCode_eq_some_iff.mp ho
        split at h
        next => cases h
        next long =>
          obtain ⟨i', hi, heq⟩ := Option.map_eq_some_iff.mp h
          cases heq
          obtain ⟨rfl, wf, bytes⟩ := operands_eq_some (List.length_take_of_le (not_lt.mp long)) hi
          exact ⟨wf, by rw [encode, List.cons_append, ← bytes, List.take_append_drop]⟩
      next => cases h
  · rintro ⟨wf, rfl⟩
    have length := encodeOperands_length wf
    rw [encode, List.cons_append, decodeFirst_code, ← length, List.take_left, List.drop_left,
      operands_encodeOperands wf]
    simp

/-- Settles O3, by what `decodeFirst` reads. -/
theorem decodeOfEncode : Obligations.DecodeOfEncode :=
  fun _ _ _ wf => decodeFirst_eq_some_iff.mpr ⟨wf, rfl⟩

/-- Settles O4, by what `decodeFirst` reads. -/
theorem encodeOfDecode : Obligations.EncodeOfDecode :=
  fun _ _ _ _ h => decodeFirst_eq_some_iff.mp h

/-! ### Traces (R90) -/

/-- R90: no encoding begins another. -/
theorem encode_append_inj {P : Params} {i j : Instr} {is js : List Byte} (hi : i.wellFormed P = true)
    (hj : j.wellFormed P = true) (h : encode i ++ is = encode j ++ js) : i = j ∧ is = js := by
  have first := decodeOfEncode P i is hi
  rw [h, decodeOfEncode P j js hj] at first
  cases first
  exact ⟨rfl, rfl⟩

theorem encode_length_pos (i : Instr) : 0 < (encode i).length := Nat.succ_pos _

theorem decodeUpTo_succ_of_decodeFirst {P : Params} {bs rest : List Byte} {i : Instr}
    (h : decodeFirst P bs = some (i, rest)) (fuel : Nat) :
    decodeUpTo P (fuel + 1) bs = (decodeUpTo P fuel rest).map (i :: ·) := by
  cases bs with
  | nil => cases h
  | cons b bs => simp only [decodeUpTo, h]

theorem decodeUpTo_succ_of_decodeFirst_none {P : Params} {bs : List Byte} (h : decodeFirst P bs = none)
    (ne : bs ≠ []) (fuel : Nat) : decodeUpTo P (fuel + 1) bs = none := by
  cases bs with
  | nil => exact absurd rfl ne
  | cons b bs => simp only [decodeUpTo, h]

theorem decodeUpTo_eq_some {P : Params} {fuel : Nat} {bs : List Byte} {is : List Instr}
    (h : decodeUpTo P fuel bs = some is) : bs = is.flatMap encode ∧ ∀ i ∈ is, i.wellFormed P = true := by
  induction fuel generalizing bs is with
  | zero =>
    cases bs with
    | nil => cases h; exact ⟨rfl, nofun⟩
    | cons b bs => cases h
  | succ fuel ih =>
    cases bs with
    | nil => cases h; exact ⟨rfl, nofun⟩
    | cons b bs =>
      cases first : decodeFirst P (b :: bs) with
      | none => rw [decodeUpTo_succ_of_decodeFirst_none first nofun] at h; cases h
      | some e =>
        obtain ⟨i, rest⟩ := e
        rw [decodeUpTo_succ_of_decodeFirst first] at h
        obtain ⟨is, hrest, rfl⟩ := Option.map_eq_some_iff.mp h
        obtain ⟨wf, bytes⟩ := decodeFirst_eq_some_iff.mp first
        obtain ⟨restBytes, restWf⟩ := ih hrest
        exact ⟨by rw [bytes, restBytes, List.flatMap_cons], List.forall_mem_cons.mpr ⟨wf, restWf⟩⟩

theorem decodeUpTo_flatMap_encode {P : Params} {fuel : Nat} {is : List Instr}
    (wf : ∀ i ∈ is, i.wellFormed P = true) (enough : (is.flatMap encode).length ≤ fuel) :
    decodeUpTo P fuel (is.flatMap encode) = some is := by
  induction is generalizing fuel with
  | nil => cases fuel <;> rfl
  | cons i is ih =>
    obtain ⟨hi, his⟩ := List.forall_mem_cons.mp wf
    rw [List.flatMap_cons, List.length_append] at enough
    have pos := encode_length_pos i
    cases fuel with
    | zero => omega
    | succ fuel =>
      rw [List.flatMap_cons, decodeUpTo_succ_of_decodeFirst (decodeOfEncode P i _ hi), ih his (by omega)]
      rfl

/-- Settles O5, by induction on the fuel one way and on the operations the other; as many operations as bytes are
enough. -/
theorem traceIsOperationsInOrder : Obligations.TraceIsOperationsInOrder := by
  intro P bs is
  constructor
  · exact decodeUpTo_eq_some
  · rintro ⟨rfl, wf⟩
    exact decodeUpTo_flatMap_encode wf le_rfl

theorem decodeTrace_encode_append {P : Params} {i : Instr} (wf : i.wellFormed P = true) (bs : List Byte) :
    decodeTrace P (encode i ++ bs) = (decodeTrace P bs).map (i :: ·) := by
  ext js
  rw [Option.map_eq_some_iff, traceIsOperationsInOrder]
  constructor
  · rintro ⟨bytes, all⟩
    cases js with
    | nil => cases bytes
    | cons j js =>
      obtain ⟨hj, hjs⟩ := List.forall_mem_cons.mp all
      obtain ⟨rfl, rest⟩ := encode_append_inj wf hj bytes
      exact ⟨js, (traceIsOperationsInOrder P bs js).mpr ⟨rest, hjs⟩, rfl⟩
  · rintro ⟨is, decoded, rfl⟩
    obtain ⟨rfl, his⟩ := (traceIsOperationsInOrder P bs is).mp decoded
    exact ⟨rfl, List.forall_mem_cons.mpr ⟨wf, his⟩⟩

theorem decodeTrace_flatMap_encode_append {P : Params} {is : List Instr} (wf : ∀ i ∈ is, i.wellFormed P = true)
    (bs : List Byte) : decodeTrace P (is.flatMap encode ++ bs) = (decodeTrace P bs).map (is ++ ·) := by
  induction is with
  | nil => simp
  | cons i is ih =>
    obtain ⟨hi, his⟩ := List.forall_mem_cons.mp wf
    rw [List.flatMap_cons, List.append_assoc, decodeTrace_encode_append hi, ih his, Option.map_map]
    rfl

/-! ### Invalid traces (R98) -/

theorem decodeTrace_of_decodeFirst_none {P : Params} {bs : List Byte} (h : decodeFirst P bs = none)
    (ne : bs ≠ []) : decodeTrace P bs = none := by
  obtain ⟨n, length⟩ := Nat.exists_eq_succ_of_ne_zero (mt List.eq_nil_of_length_eq_zero ne)
  rw [decodeTrace, length]
  exact decodeUpTo_succ_of_decodeFirst_none h ne n

theorem decodeFirst_reserved (P : Params) {b : Byte} (h : Op.ofCode b = none) (bs : List Byte) :
    decodeFirst P (b :: bs) = none := by
  simp only [decodeFirst, h]

theorem decodeFirst_cutOff {P : Params} {o : Op} {bs : List Byte} (h : bs.length < o.operandBytes P) :
    decodeFirst P (o.code :: bs) = none := by
  rw [decodeFirst_code, if_pos h]

theorem decodeFirst_operands_none {P : Params} {o : Op} {bs : List Byte}
    (h : operands o (bs.take (o.operandBytes P)) = none) : decodeFirst P (o.code :: bs) = none := by
  rw [decodeFirst_code, h, Option.map_none, ite_self]

theorem stageOf_eq_none {b : Byte} (h : 4 ≤ b.toNat) : stageOf b = none := by
  refine Option.eq_none_iff_forall_ne_some.mpr fun st hst => ?_
  cases stageOf_eq_some_iff.mp hst
  revert h
  cases st <;> decide

/-- R95: where the denominator of one of the `RAT`s in a row is 0, one of them is no value. -/
theorem exists_den_eq_zero {rs : List Ratio} {k : Nat} {before r rest : List Byte} {b0 b1 : Byte} (hk : k < rs.length)
    (length : before.length = 4 * k)
    (h : rs.flatMap encodeRatio ++ rest = before ++ b0 :: b1 :: 0 :: 0 :: r) : ∃ x ∈ rs, x.den = 0 := by
  induction rs generalizing k before with
  | nil => cases hk
  | cons x rs ih =>
    rw [List.flatMap_cons, List.append_assoc] at h
    cases k with
    | zero =>
      cases List.eq_nil_of_length_eq_zero length
      have bytes : encodeRatio x = [b0, b1, 0, 0] := congrArg (List.take 4) h
      exact ⟨x, List.mem_cons_self, by rw [encodeRatio_eq_iff.mp bytes]; rfl⟩
    | succ k =>
      have tail : rs.flatMap encodeRatio ++ rest = before.drop 4 ++ b0 :: b1 :: 0 :: 0 :: r :=
        (congrArg (List.drop 4) h).trans (List.drop_append_of_le_length (by omega))
      obtain ⟨y, hy, zero⟩ := ih (Nat.lt_of_succ_lt_succ hk) (by rw [List.length_drop]; omega) tail
      exact ⟨y, List.mem_cons_of_mem x hy, zero⟩

theorem decodeFirst_trCfg_zeroDen {P : Params} {k : Nat} {before r : List Byte} {b0 b1 : Byte} (hk : k < 5)
    (length : before.length = 4 * k) :
    decodeFirst P (Op.trCfg.code :: (before ++ b0 :: b1 :: 0 :: 0 :: r)) = none := by
  refine Option.eq_none_iff_forall_ne_some.mpr fun ⟨i, rest⟩ h => ?_
  obtain ⟨wf, bytes⟩ := decodeFirst_eq_some_iff.mp h
  obtain ⟨code, bytes⟩ := List.cons.inj bytes
  have op := Op.code_injective code
  cases i with
  | trCfg c d w v o =>
    simp only [Instr.wellFormed, Ratio.wellFormed, Bool.and_eq_true, bne_iff_ne] at wf
    have row : [c, d, w, v, o].flatMap encodeRatio ++ rest = before ++ b0 :: b1 :: 0 :: 0 :: r := by
      simpa [encodeOperands] using bytes.symm
    obtain ⟨x, hx, zero⟩ := exists_den_eq_zero hk length row
    simp only [List.mem_cons, List.not_mem_nil, or_false] at hx
    obtain rfl | rfl | rfl | rfl | rfl := hx <;> simp [zero] at wf
  | _ => cases op

theorem Machine.BadStart.decodeFirst_eq_none {P : Params} {bs : List Byte} (h : Machine.BadStart P bs) :
    decodeFirst P bs = none := by
  obtain ⟨b, r, rfl, reserved⟩ | ⟨o, b, r, rfl, code, stage⟩ | ⟨o, b0, b1, r, rfl, code⟩ |
    ⟨before, b0, b1, r, rfl, k, hk, length⟩ | ⟨o, r, n, rfl, short, code⟩ := h
  · exact decodeFirst_reserved P (Op.ofCode_reserved b reserved) r
  · have refused : stageOperand [b] = none := stageOf_eq_none stage
    obtain rfl | rfl := code
    · exact decodeFirst_operands_none (o := .stageStart) (congrArg (Option.map Instr.stageStart) refused)
    · exact decodeFirst_operands_none (o := .stageStop) (congrArg (Option.map Instr.stageStop) refused)
  · have refused : sampleOperand [b0, b1, 0, 0] = none := rfl
    obtain rfl | rfl := code
    · exact decodeFirst_operands_none (o := .inSample) (congrArg (Option.map Instr.inSample) refused)
    · exact decodeFirst_operands_none (o := .symPush) (congrArg (Option.map Instr.symPush) refused)
  · exact decodeFirst_trCfg_zeroDen hk length
  · obtain ⟨rfl, rfl⟩ | ⟨rfl, rfl⟩ | ⟨rfl, rfl⟩ | ⟨rfl, rfl⟩ | ⟨rfl, rfl⟩ | ⟨rfl, rfl⟩ := code
    · exact decodeFirst_cutOff (o := .stageStart) short
    · exact decodeFirst_cutOff (o := .stageStop) short
    · exact decodeFirst_cutOff (o := .trCfg) short
    · exact decodeFirst_cutOff (o := .inSample) short
    · exact decodeFirst_cutOff (o := .symPush) short
    · exact decodeFirst_cutOff (o := .frLoad) short

theorem Machine.BadStart.ne_nil {P : Params} {bs : List Byte} (h : Machine.BadStart P bs) : bs ≠ [] := by
  rintro rfl
  simp [Machine.BadStart] at h

end Sys2Proof
end

section
/-! A step and the trace (30_encoding.md R90, R98; 45_control.md R211): which operation it performs, that no operation
reads or changes the trace, and that a run over a trace is the schedule written there. -/

namespace Sys2Proof.Machine

/-! ### The next operation of a trace -/

theorem nextOp_of_decodeFirst {P : Params} {bs rest : List Byte} {i : Instr} (h : decodeFirst P bs = some (i, rest)) :
    nextOp P bs = if (decodeTrace P rest).isSome then .op i rest else .invalid := by
  cases bs with
  | nil => cases h
  | cons b bs => simp only [nextOp, h]

theorem nextOp_encode_append {P : Params} {i : Instr} {rest : List Byte} (wf : i.wellFormed P = true)
    (valid : (decodeTrace P rest).isSome = true) : nextOp P (encode i ++ rest) = .op i rest := by
  rw [nextOp_of_decodeFirst (decodeOfEncode P i rest wf), if_pos valid]

theorem nextOp_of_decodeTrace_none {P : Params} {bs : List Byte} (h : decodeTrace P bs = none) :
    nextOp P bs = .invalid := by
  cases bs with
  | nil => cases h
  | cons b bs =>
    cases first : decodeFirst P (b :: bs) with
    | none => simp only [nextOp, first]
    | some e =>
      obtain ⟨i, rest⟩ := e
      obtain ⟨wf, bytes⟩ := decodeFirst_eq_some_iff.mp first
      rw [bytes, decodeTrace_encode_append wf, Option.map_eq_none_iff] at h
      rw [nextOp_of_decodeFirst first, h]
      rfl

/-- Settles O6: no operation is decoded from a bad start, and the operations before it do not help. -/
theorem invalidTraceRefused : Obligations.InvalidTraceRefused := by
  constructor
  · intro P is bs wf bad
    rw [decodeTrace_flatMap_encode_append wf,
      decodeTrace_of_decodeFirst_none bad.decodeFirst_eq_none bad.ne_nil]
    rfl
  · intro s invalid
    simp only [step, nextOp_of_decodeTrace_none invalid]

/-- R90: a step performs the operation whose encoding the trace begins with. -/
theorem step_encode_append {s : State} {i : Instr} {rest : List Byte} (wf : i.wellFormed s.P = true)
    (trace : s.trace = encode i ++ rest) (valid : (decodeTrace s.P rest).isSome = true) :
    step s = exec i (s.withTrace rest) := by
  simp only [step, trace, nextOp_encode_append wf valid]

/-- Settles O8, by the next operation of the trace. -/
theorem stepRunsDecodedOperation : Obligations.StepRunsDecodedOperation := by
  constructor
  · intro s i rest
    exact step_encode_append
  · intro s trace
    simp only [step, trace, nextOp]

/-! ### No operation reads or changes the trace -/

theorem exec_withTrace (s : State) (i : Instr) (bytes : List Byte) :
    exec i (s.withTrace bytes) = mapNext (·.withTrace bytes) (exec i s) := by
  cases i with
  | trCfg r d w v o =>
    simp only [exec, execTrCfg, trCfgNum, mapNext_withRatio, mapNext_require, apply_ite (mapNext _)]
    rfl
  | inSample v =>
    simp only [exec, execInSample, inSampleNum, mapNext_withSRatio, mapNext_require]
    rfl
  | symPush v =>
    simp only [exec, execSymPush, symPushNum, mapNext_withSRatio, mapNext_require]
    rfl
  | trStep =>
    simp only [exec, execTrStep, State.withTrace_tr, State.withTrace_chIn]
    cases s.tr with
    | unconfigured => rfl
    | configured cfg freq =>
      cases s.chIn with
      | nil => rfl
      | cons x rest => rw [mapNext_require]; rfl
  | slStep =>
    simp only [exec, execSlStep, State.withTrace_chSym]
    cases s.chSym with
    | nil => rfl
    | cons v rest => rw [mapNext_require]; rfl
  | bytePop =>
    simp only [exec, execBytePop, State.withTrace_chByte]
    cases s.chByte with
    | nil => rfl
    | cons b rest => rfl
  | frLoad blk =>
    simp only [exec, execFrLoad, apply_ite (mapNext _), mapNext_require]
    rfl
  | dsRun =>
    simp only [exec, execDsRun, mapNext_require, mapNext_withFrame]
    rfl
  | fecRun =>
    simp only [exec, execFecRun, mapNext_require, mapNext_withFrame]
    rfl
  | frRead =>
    simp only [exec, execFrRead, mapNext_require, mapNext_withFrame]
    rfl
  | _ => rfl

/-! ### Runs -/

theorem execAll_cons_of_next {i : Instr} {s t : State} (h : exec i s = .next t) (is : List Instr) :
    execAll (i :: is) s = execAll is t := by
  simp only [execAll, h]

theorem run_flatMap_encode {s : State} {is : List Instr} (wf : ∀ i ∈ is, i.wellFormed s.P = true) :
    Host.Core.run core is.length (s.withTrace (is.flatMap encode)) = execAll is (s.withTrace []) := by
  induction is generalizing s with
  | nil => rfl
  | cons i is ih =>
    obtain ⟨hi, his⟩ := List.forall_mem_cons.mp wf
    have valid : (decodeTrace s.P (is.flatMap encode)).isSome = true := by
      rw [(traceIsOperationsInOrder _ _ _).mpr ⟨rfl, his⟩]
      rfl
    have first : core.step (s.withTrace ((i :: is).flatMap encode)) =
        mapNext (·.withTrace (is.flatMap encode)) (exec i s) :=
      (step_encode_append (s := s.withTrace ((i :: is).flatMap encode)) hi rfl valid).trans (exec_withTrace s i _)
    simp only [List.length_cons, Host.Core.run, execAll]
    rw [first, exec_withTrace]
    cases h : exec i s with
    | next t =>
      have params : t.P = s.P := congrArg Subtype.val (exec_effect h).params_eq
      exact ih (params ▸ his)
    | fault f => rfl
    | refused r => rfl

/-- Settles O9, by induction on the schedule. -/
theorem runOfTraceIsSchedule : Obligations.RunOfTraceIsSchedule :=
  fun _ _ wf => run_flatMap_encode wf

end Sys2Proof.Machine
end

section
/-! The bytes of the encoding, written out (30_encoding.md R88, R91), and the values of its operands (R95, R96). -/

namespace Sys2Proof.Machine

/-- R68: the high byte first. -/
theorem encodeWord16_eq (w : BitVec 16) :
    encodeWord16 w = [BitVec.ofNat 8 (w.toNat / 256), BitVec.ofNat 8 (w.toNat % 256)] := by
  have high : w.extractLsb' 8 8 = BitVec.ofNat 8 (w.toNat / 256) := by
    rw [BitVec.extractLsb', Nat.shiftRight_eq_div_pow]
  have low : w.extractLsb' 0 8 = BitVec.ofNat 8 (w.toNat % 256) := by
    apply BitVec.eq_of_toNat_eq
    simp [BitVec.extractLsb']
  rw [encodeWord16, high, low]

/-- Settles O1: operations without a 16-bit operand have their bytes by definition. -/
theorem encodingBytes : Obligations.EncodingBytes := by
  refine ⟨rfl, rfl, rfl, rfl, rfl, rfl, rfl, rfl, rfl, rfl, rfl, rfl, rfl, rfl, rfl, rfl, ?_, ?_, ?_, fun _ => rfl⟩
  · intro v
    simp [encode, encodeOperands, encodeSRatio, encodeWord16_eq, Instr.op, Op.code]
  · intro v
    simp [encode, encodeOperands, encodeSRatio, encodeWord16_eq, Instr.op, Op.code]
  · intro r d w v o
    simp [encode, encodeOperands, encodeRatio, encodeWord16_eq, Instr.op, Op.code]

/-- R95: a denominator that is not 0 is not 0 as a number. -/
theorem den_toNat_ne_zero {den : BitVec 16} (h : den ≠ 0) : (den.toNat : NUM) ≠ 0 :=
  Nat.cast_ne_zero.mpr fun zero => h (BitVec.eq_of_toNat_eq zero)

/-- R96: two's complement. -/
theorem toInt_eq_ite (w : BitVec 16) :
    w.toInt = if w.toNat < 32768 then (w.toNat : Int) else (w.toNat : Int) - 65536 := by
  rw [BitVec.toInt_eq_toNat_cond]
  split <;> split <;> omega

/-- Settles O2: a quotient times its divisor is its dividend. -/
theorem operandValues : Obligations.OperandValues :=
  ⟨fun _ den => div_mul_cancel₀ _ (den_toNat_ne_zero den),
    fun r den => (div_mul_cancel₀ _ (den_toNat_ne_zero den)).trans (congrArg Int.cast (toInt_eq_ite r.num))⟩

/-- Settles O7, by running the decoder on each word. -/
theorem knownWordsDecode : Obligations.KnownWordsDecode := by
  unfold Obligations.KnownWordsDecode
  decide +kernel

end Sys2Proof.Machine
end

section
/-! Firings of SL in a row: the byte that eight of them make (30_encoding.md R86; 41_slicer.md R141), and `DRAIN.SL`
(R101). -/

namespace Sys2Proof.Machine

theorem execAll_append_of_next {is : List Instr} {s t : State} (h : execAll is s = .next t) (js : List Instr) :
    execAll (is ++ js) s = execAll js t := by
  induction is generalizing s with
  | nil => cases h; rfl
  | cons i is ih =>
    cases first : exec i s with
    | next u =>
      rw [execAll_cons_of_next first] at h
      rw [List.cons_append, execAll_cons_of_next first, ih h]
    | fault f => simp only [execAll, first] at h; cases h
    | refused r => simp only [execAll, first] at h; cases h

/-! ### The shift register -/

theorem hardBit_toNat (v : NUM) : (hardBit v).toNat = if 0 ≤ v then 1 else 0 := by
  by_cases h : 0 ≤ v <;> simp [hardBit, h]

/-- R141: the shift register doubles and takes the new bit in. -/
theorem shiftBit_ofNat (n : Nat) (b : Bool) :
    shiftBit (BitVec.ofNat 8 n) b = BitVec.ofNat 8 (2 * n + b.toNat) := by
  have double : ∀ r : BitVec 8, shiftBit r b = 2 * r + BitVec.ofNat 8 b.toNat := by
    cases b <;> decide +kernel
  rw [double, BitVec.ofNat_add, BitVec.ofNat_mul]
  rfl

/-- R86: after eight bits nothing of the old shift register is left, and the earliest bit is bit 7. -/
theorem foldl_shiftBit_eight (r : BitVec 8) (b0 b1 b2 b3 b4 b5 b6 b7 : Bool) :
    [b0, b1, b2, b3, b4, b5, b6, b7].foldl shiftBit r = BitVec.ofNat 8 (b0.toNat * 128 + b1.toNat * 64 +
      b2.toNat * 32 + b3.toNat * 16 + b4.toNat * 8 + b5.toNat * 4 + b6.toNat * 2 + b7.toNat) := by
  obtain ⟨n, rfl⟩ : ∃ n, r = BitVec.ofNat 8 n := ⟨r.toNat, by simp⟩
  simp only [List.foldl_cons, List.foldl_nil, shiftBit_ofNat]
  apply BitVec.eq_of_toNat_eq
  simp only [BitVec.toNat_ofNat]
  omega

/-! ### Firings of SL -/

/-- The state after SL has shifted in the hard bits of `vs`, where it pushes no byte; `rest` stays in `CH_SYM`. -/
def State.shifted (s : State) (vs rest : List NUM) : State :=
  { s with
    chSym := rest
    slShreg := (vs.map hardBit).foldl shiftBit s.slShreg
    slBitcnt := s.slBitcnt + BitVec.ofNat 3 vs.length }

section

variable {s : State} {v : NUM} {rest : List NUM}

theorem State.shifted_nil (h : s.chSym = rest) : s.shifted [] rest = s := by
  subst h
  simp [State.shifted]

theorem State.shifted_cons (vs tail : List NUM) : (s.shifted [v] tail).shifted vs rest = s.shifted (v :: vs) rest := by
  simp [State.shifted, BitVec.add_assoc, Nat.add_comm vs.length, BitVec.ofNat_add]

theorem exec_slStep (chSym : s.chSym = v :: rest) (running : s.running .sl = true)
    (room : s.chByte.length < s.P.depthByte) : exec .slStep s = .next (s.afterSlStep v rest) :=
  (Effect.slStep chSym running room).exec_eq rfl

theorem State.afterSlStep_of_ne (h : s.slBitcnt ≠ 7) : s.afterSlStep v rest = s.shifted [v] rest := by
  simp only [State.afterSlStep, if_neg h]
  rfl

theorem State.afterSlStep_of_eq (h : s.slBitcnt = 7) : s.afterSlStep v rest =
    { s with
      chSym := rest, slShreg := shiftBit s.slShreg (hardBit v)
      chByte := s.chByte ++ [shiftBit s.slShreg (hardBit v)], slBitcnt := 0 } := by
  simp only [State.afterSlStep, if_pos h, push]

/-- R141: as long as the bit counter stays below 8, no byte is pushed. -/
theorem execAll_slStep_of_no_byte {vs : List NUM} (chSym : s.chSym = vs ++ rest) (running : s.running .sl = true)
    (room : s.chByte.length < s.P.depthByte) (count : s.slBitcnt.toNat + vs.length ≤ 7) :
    execAll (List.replicate vs.length .slStep) s = .next (s.shifted vs rest) := by
  induction vs generalizing s with
  | nil =>
    rw [List.nil_append] at chSym
    rw [State.shifted_nil chSym]
    rfl
  | cons v vs ih =>
    rw [List.length_cons] at count
    rw [List.cons_append] at chSym
    have ne : s.slBitcnt ≠ 7 := by bv_omega
    have count' : (s.slBitcnt + 1).toNat + vs.length ≤ 7 := by bv_omega
    have first := exec_slStep chSym running room
    rw [State.afterSlStep_of_ne ne] at first
    rw [List.length_cons, List.replicate_succ, execAll_cons_of_next first,
      ih (s := s.shifted [v] (vs ++ rest)) rfl running room count', State.shifted_cons]

end

/-- Settles O28: seven firings that push no byte, and the one that does. -/
theorem eightSymbolsMakeAByte : Obligations.EightSymbolsMakeAByte := by
  intro s v0 v1 v2 v3 v4 v5 v6 v7 rest running aligned chSym room b byte
  have seven := execAll_slStep_of_no_byte (vs := [v0, v1, v2, v3, v4, v5, v6]) (rest := v7 :: rest) chSym running room
    (by simp [aligned])
  have full : (s.shifted [v0, v1, v2, v3, v4, v5, v6] (v7 :: rest)).slBitcnt = 7 := by
    simp [State.shifted, aligned]
  have shreg : shiftBit (s.shifted [v0, v1, v2, v3, v4, v5, v6] (v7 :: rest)).slShreg (hardBit v7) = byte := by
    have eight := foldl_shiftBit_eight s.slShreg (hardBit v0) (hardBit v1) (hardBit v2) (hardBit v3) (hardBit v4)
      (hardBit v5) (hardBit v6) (hardBit v7)
    simp only [hardBit_toNat] at eight
    exact eight
  have eighth := exec_slStep (s := s.shifted [v0, v1, v2, v3, v4, v5, v6] (v7 :: rest)) rfl running room
  rw [State.afterSlStep_of_eq full, shreg] at eighth
  exact (execAll_append_of_next seven [.slStep]).trans (execAll_cons_of_next eighth [])

/-! ### `DRAIN.SL` (R101) -/

theorem enabled_slStep_iff {s : State} : enabled .slStep s = true ↔ ∃ t, exec .slStep s = .next t := by
  constructor
  · intro h
    simp only [enabled, Bool.and_eq_true, Bool.not_eq_true', List.isEmpty_eq_false_iff, hasRoom_iff] at h
    obtain ⟨⟨running, ne⟩, room⟩ := h
    obtain ⟨v, rest, chSym⟩ := List.exists_cons_of_ne_nil ne
    exact ⟨_, exec_slStep chSym running room⟩
  · rintro ⟨t, h⟩
    obtain ⟨v, rest, chSym, running, room, -⟩ := execSlStep_next h
    simp [enabled, chSym, running, hasRoom_iff, room]

theorem drainSteps_succ_of_next {s t : State} (h : exec .slStep s = .next t) (fuel : Nat) :
    drainSteps (fuel + 1) s = .slStep :: drainSteps fuel t := by
  have h : execSlStep s = .next t := h
  simp only [drainSteps, h]

theorem drainSteps_of_not_enabled {s : State} (h : enabled .slStep s = false) (fuel : Nat) :
    drainSteps fuel s = [] := by
  cases fuel with
  | zero => rfl
  | succ fuel =>
    cases outcome : execSlStep s with
    | next t => rw [enabled_slStep_iff.mpr ⟨t, outcome⟩] at h; cases h
    | fault f => simp only [drainSteps, outcome]
    | refused r => simp only [drainSteps, outcome]

theorem drainSteps_eq_replicate (fuel : Nat) (s : State) : ∃ n, drainSteps fuel s = List.replicate n .slStep := by
  induction fuel generalizing s with
  | zero => exact ⟨0, rfl⟩
  | succ fuel ih =>
    cases h : enabled .slStep s with
    | false => exact ⟨0, drainSteps_of_not_enabled h _⟩
    | true =>
      obtain ⟨t, step⟩ := enabled_slStep_iff.mp h
      obtain ⟨n, rest⟩ := ih t
      exact ⟨n + 1, by rw [drainSteps_succ_of_next step, rest, List.replicate_succ]⟩

/-- R101: with as much fuel as `CH_SYM` has symbols, the firings end only where no other is enabled. -/
theorem execAll_drainSteps {fuel : Nat} {s : State} (enough : s.chSym.length ≤ fuel) :
    ∃ t, execAll (drainSteps fuel s) s = .next t ∧ enabled .slStep t = false := by
  induction fuel generalizing s with
  | zero =>
    have empty := List.eq_nil_of_length_eq_zero (Nat.le_zero.mp enough)
    exact ⟨s, rfl, by simp [enabled, empty]⟩
  | succ fuel ih =>
    cases h : enabled .slStep s with
    | false => exact ⟨s, by rw [drainSteps_of_not_enabled h]; rfl, h⟩
    | true =>
      obtain ⟨t, step⟩ := enabled_slStep_iff.mp h
      obtain ⟨v, rest, chSym, -, -, rfl⟩ := execSlStep_next step
      rw [chSym, List.length_cons] at enough
      obtain ⟨t, run, stopped⟩ := ih (s := s.afterSlStep v rest) (Nat.le_of_succ_le_succ enough)
      exact ⟨t, by rw [drainSteps_succ_of_next step, execAll_cons_of_next step, run], stopped⟩

/-- Settles O53: the expansion gives `DRAIN.SL` as much fuel as `CH_SYM` has symbols. -/
theorem drainSlDrains : Obligations.DrainSlDrains :=
  fun s => ⟨drainSteps_eq_replicate _ s, execAll_drainSteps le_rfl⟩

end Sys2Proof.Machine
end

section
/-! `FRAME.PROCESS` (30_encoding.md R101; 90_conflicts.md C7): the back path from one end to the other. -/

namespace Sys2Proof.Machine

theorem Memory.bytes_ofBytes_of_length {bytes : List Byte} {n : Nat} (h : bytes.length = n) :
    (Memory.ofBytes 0 bytes).bytes n = some bytes :=
  h ▸ Memory.bytes_ofBytes bytes

/-- The state with the whole frame buffer written, and with its owner, its mode and its flags. -/
def State.withFb (s : State) (owner : FbState) (bytes : List Byte) (mode : Bool) (flags : List Bool) : State :=
  { s with fb := Memory.ofBytes 0 bytes, fbState := owner, fecMode := mode, fecInvalid := flags }

section

variable {s : State} {bytes : List Byte} {mode : Bool} {flags : List Bool}

theorem exec_frLoad (length : bytes.length = s.P.frameLenMax) (empty : s.fbState = .empty) :
    exec (.frLoad bytes) s = .next (s.withFb .loaded bytes false (List.replicate s.P.rsDepth false)) :=
  (Effect.frLoad length empty).exec_eq (beq_iff_eq.mpr length)

theorem exec_dsRun_withFb (length : bytes.length = s.P.frameLenMax) (running : s.running .ds = true) :
    exec .dsRun (s.withFb .loaded bytes mode flags) =
      .next (s.withFb .descrambled (descramble s.P bytes) mode flags) :=
  Effect.exec_eq (s := s.withFb .loaded bytes mode flags)
    (.dsRun running rfl (Memory.bytes_ofBytes_of_length length)) rfl

theorem exec_fecRun_withFb (length : bytes.length = s.P.frameLenMax) (running : s.running .fec = true) :
    exec .fecRun (s.withFb .descrambled bytes mode flags) =
      .next (s.withFb .corrected (fecBlocks s.P (frameMode s.P bytes) bytes).1 (frameMode s.P bytes)
        (fecBlocks s.P (frameMode s.P bytes) bytes).2) :=
  Effect.exec_eq (s := s.withFb .descrambled bytes mode flags)
    (.fecRun running rfl (Memory.bytes_ofBytes_of_length length)) rfl

theorem exec_frRead_withFb (length : bytes.length = s.P.frameLenMax) :
    exec .frRead (s.withFb .corrected bytes mode flags) =
      .next ((s.withFb .empty bytes mode flags).returning (.frame bytes mode flags)) :=
  Effect.exec_eq (s := s.withFb .corrected bytes mode flags) (.frRead rfl (Memory.bytes_ofBytes_of_length length)) rfl

end

/-- Settles O52: each of the four operations happens, because each stage writes the whole frame buffer. -/
theorem frameProcessDelivers : Obligations.FrameProcessDelivers := by
  intro s blk length ds fec empty
  have plainLength := (descramble_length s.P blk).trans length
  obtain ⟨kept, flags⟩ := fecBlocks_length s.P (frameMode s.P (descramble s.P blk)) (descramble s.P blk)
  have outLength := kept.trans plainLength
  have run := (execAll_cons_of_next (exec_frLoad length empty) [.dsRun, .fecRun, .frRead]).trans <|
    (execAll_cons_of_next (exec_dsRun_withFb length ds) [.fecRun, .frRead]).trans <|
    (execAll_cons_of_next (exec_fecRun_withFb plainLength fec) [.frRead]).trans <|
    execAll_cons_of_next (exec_frRead_withFb outLength) []
  exact ⟨_, _, run, rfl, outLength, fun a => (Memory.read_ofBytes_zero _ a).symm, flags, rfl⟩

end Sys2Proof.Machine
end

section
/-! Timing recovery (40_timing_recovery.md R111 to R122): what `TR.CFG` derives from its operands, what one timeslot
does, and what a firing of TR leaves behind. -/

namespace Sys2Proof.Machine

/-! ### Configuration (R111 to R115) -/

theorem one_le_trPhases (r o : NUM) : 1 ≤ trPhases r o := le_max_left _ _

/-- R111: the phase counts that reach the oversampling target are those from `TR_L` on. -/
theorem trPhases_le_iff {r o : NUM} {n : Nat} (h : 1 ≤ n) : trPhases r o ≤ n ↔ o * r ≤ (n : NUM) := by
  rw [trPhases, max_le_iff, and_iff_right h, Int.toNat_le, Rat.ceil_le_iff, Int.cast_natCast]

/-- Settles O16: `TR_L` is the least of the phase counts that reach the target. -/
theorem phasesAreFewest : Obligations.PhasesAreFewest := fun r o =>
  have one_le := one_le_trPhases r o
  ⟨one_le, (trPhases_le_iff one_le).mp le_rfl, fun _ h => (trPhases_le_iff h).mpr⟩

/-- R95: a `TR.CFG` whose denominators are not 0 is an operation. -/
theorem trCfg_wellFormed {r d w v o : Ratio} (P : Params) (hr : r.den ≠ 0) (hd : d.den ≠ 0) (hw : w.den ≠ 0)
    (hv : v.den ≠ 0) (ho : o.den ≠ 0) : (Instr.trCfg r d w v o).wellFormed P = true := by
  simp only [Instr.wellFormed, Ratio.wellFormed, Bool.and_eq_true, bne_iff_ne]
  exact ⟨⟨⟨⟨hr, hd⟩, hw⟩, hv⟩, ho⟩

/-- Settles O17: the effect of an accepted `TR.CFG`. -/
theorem trCfgAccepted : Obligations.TrCfgAccepted := by
  intro s r d w v o hr hd hw hv ho stopped rn ze bw mx os L rn_pos ze_nonneg bw_nonneg mx_nonneg os_pos low high
  have ok : trCfgOk rn ze bw mx os = true :=
    decide_eq_true ⟨rn_pos, ze_nonneg, bw_nonneg, mx_nonneg, os_pos, low, high⟩
  exact (Effect.trCfgAccepted stopped ok).exec_eq (trCfg_wellFormed s.P hr hd hw hv ho)

/-- Settles O18: the effect of a rejected `TR.CFG`. -/
theorem trCfgRejected : Obligations.TrCfgRejected := by
  intro s r d w v o hr hd hw hv ho stopped rn ze bw mx os L bad
  exact (Effect.trCfgRejected stopped (decide_eq_false bad)).exec_eq (trCfg_wellFormed s.P hr hd hw hv ho)

/-! ### The interpolant (R117) -/

theorem interpolant_cons (a x : NUM) (row dl : List NUM) :
    interpolant (a :: row) (x :: dl) = a * x + interpolant row dl := List.sum_cons

theorem interpolant_pair (a b x y : NUM) : interpolant [a, b] [x, y] = a * x + b * y := by
  simp [interpolant]

theorem interpolant_eq_sum {m : Nat} {row dl : List NUM} (hrow : row.length = m) (hdl : dl.length = m) :
    interpolant row dl = ∑ k ∈ Finset.range m, row.getD k 0 * dl.getD k 0 := by
  induction m generalizing row dl with
  | zero =>
    obtain rfl := List.eq_nil_of_length_eq_zero hrow
    rfl
  | succ m ih =>
    obtain ⟨a, row, rfl⟩ := List.exists_cons_of_length_eq_add_one hrow
    obtain ⟨x, dl, rfl⟩ := List.exists_cons_of_length_eq_add_one hdl
    rw [interpolant_cons, ih (Nat.succ.inj hrow) (Nat.succ.inj hdl), Finset.sum_range_succ', add_comm]
    rfl

/-- The cast in `linearTaps` stands on the whole list of timeslots; here it stands on each. -/
theorem linearTaps_eq_map (L : Nat) :
    linearTaps L = (List.range L).map fun p : Nat => [(p : NUM) / (L : NUM), 1 - (p : NUM) / (L : NUM)] := by
  simp [linearTaps, ← List.map_eq_flatMap, Function.comp_def]

/-- R114: the row of the linear interpolator for timeslot `p`. -/
theorem linearTaps_getD {L p : Nat} (h : p < L) :
    (linearTaps L).getD p [] = [(p : NUM) / (L : NUM), 1 - (p : NUM) / (L : NUM)] := by
  simp [linearTaps_eq_map, h]

/-- Settles O21: by the row of the linear interpolator, whose first tap is 0 in timeslot 0. -/
theorem interpolantIsStraightLine : Obligations.InterpolantIsStraightLine := by
  refine ⟨fun m row dl => interpolant_eq_sum, fun L p x0 x1 h => ?_, fun L x0 x1 h => ?_⟩
  · rw [linearTaps_getD h, interpolant_pair]
  · rw [linearTaps_getD h, interpolant_pair]
    simp

/-! ### One timeslot (R116, R120 to R122) -/

section

variable {cfg : TrConfig} {y : NUM} {t : TrLoop}

theorem timeslot_advance (fsm : t.fsm = .advance) (below : t.phase + t.freq < 1) :
    timeslot cfg y t = { t with phase := t.phase + t.freq, yPrev := y } := by
  simp only [timeslot, fsm, if_neg below.not_ge]

theorem timeslot_boundary (fsm : t.fsm = .advance) (reached : 1 ≤ t.phase + t.freq) :
    timeslot cfg y t = { t with
      phase := t.phase + t.freq - 1, yEarly := t.yPrev, yOntime := y, fsm := .strobe, yPrev := y } := by
  simp only [timeslot, fsm, if_pos reached]

theorem timeslot_strobe (fsm : t.fsm = .strobe) :
    timeslot cfg y t = { t with
      freq := clamp (t.freq + cfg.beta * timingError t.yEarly y) (cfg.freqNom - cfg.dev) (cfg.freqNom + cfg.dev)
      phase := t.phase + t.freq + cfg.alpha * timingError t.yEarly y
      err := timingError t.yEarly y, pushed := push t.pushed t.yOntime, fsm := .advance, yPrev := y } := by
  simp only [timeslot, fsm]

end

/-- Settles O20: one lemma per case. -/
theorem timeslotCases : Obligations.TimeslotCases := fun _ _ _ =>
  ⟨timeslot_advance, timeslot_boundary, timeslot_strobe⟩

/-- Settles O22: a boundary latches the interpolant and turns to `STROBE`, where the next timeslot pushes it. -/
theorem boundaryEmitsOnTimeSample : Obligations.BoundaryEmitsOnTimeSample := by
  refine fun cfg y z t fsm => ⟨fun reached => ?_, fun below => ?_⟩
  · rw [timeslot_boundary fsm reached, timeslot_strobe rfl]
    exact ⟨rfl, rfl, rfl⟩
  · rw [timeslot_advance fsm below]
    exact ⟨rfl, fsm⟩

/-! ### One firing (R116, R118, R119) -/

/-- Settles O19: the effect of `TR.STEP`. -/
theorem trStepResult : Obligations.TrStepResult :=
  fun _ _ _ _ _ running tr chIn room => (Effect.trStep tr chIn running room).exec_eq rfl

/-- Settles O23: the timeslots of a firing push no more symbols than its `require` line found places for. -/
theorem trStepPushBound : Obligations.TrStepPushBound := by
  intro s t cfg freq tr h
  obtain ⟨cfg', freq', x, rest, tr', -, -, room, rfl⟩ := execTrStep_next h
  obtain ⟨rfl, rfl⟩ := TrBank.configured.inj (tr.symm.trans tr')
  have pushed := timeslots_pushed_le cfg (shiftIn cfg.m x s.trDl) s freq
  refine ⟨⟨_, s.afterTrStep_chSym cfg freq x rest, ?_⟩, ?_⟩
  · unfold maxPush at pushed
    omega
  · rw [State.afterTrStep_chSym, List.length_append]
    omega

/-- R119: `TR_FREQ_NOM` and `TR_DEV` are the host's rate and deviation divided by `TR_L`, so that the clamp holds in the
host's units too. -/
theorem RateClamped.hostUnits {P : Params} {r d w v o freq : NUM} (h : RateClamped (trConfigOf P r d w v o) freq) :
    |freq * (trPhases r o : NUM) - r| ≤ v := by
  have L_pos : 0 < (trPhases r o : NUM) := Nat.cast_pos.mpr (one_le_trPhases r o)
  have lower : (r - v) / (trPhases r o : NUM) ≤ freq := (sub_div r v _).trans_le h.1
  have upper : freq ≤ (r + v) / (trPhases r o : NUM) := h.2.trans_eq (add_div r v _).symm
  rw [div_le_iff₀ L_pos] at lower
  rw [le_div_iff₀ L_pos] at upper
  exact abs_sub_le_iff.mpr ⟨by linarith, by linarith⟩

/-- R115, R119: the operations that write the registers of TR keep their invariant. -/
theorem Effect.keeps_trInv {s t : State} {i : Instr} (h : Effect s i t) (hs : s.TrInv)
    (writes : i = .trStep ∨ ∃ r d w v o, i = .trCfg r d w v o) : t.TrInv := by
  cases h with
  | trCfgAccepted stopped ok => exact State.configureTr_trInv ok
  | trCfgRejected => exact State.trInv_of_unconfigured rfl
  | @trStep cfg freq x rest tr => exact State.afterTrStep_trInv x rest tr hs
  | _ => simp at writes

/-- Settles O24: the clamp is part of the invariant of TR, which both operations keep. -/
theorem rateStaysClamped : Obligations.RateStaysClamped := by
  intro s t i hs writes h cfg freq tr
  obtain ⟨-, derived, rate, -⟩ :=
    (State.trInv_of_configured tr).mp ((exec_effect h).keeps_trInv hs writes)
  rw [derived] at rate
  have host := rate.hostUnits
  rw [derived]
  exact ⟨rate.1, rate.2, host⟩

end Sys2Proof.Machine
end

section
/-! The slicer (41_slicer.md): the result of one firing of SL (R141, R142), and how many symbols and bytes any schedule
moves (R143). -/

namespace Sys2Proof.Machine

/-! ### One firing (R141, R142) -/

/-- R141, R142: the shift register after a soft symbol, as a number. -/
theorem shiftBit_hardBit_toNat (r : BitVec 8) (v : NUM) :
    (shiftBit r (hardBit v)).toNat = (2 * r.toNat + if 0 ≤ v then 1 else 0) % 256 := by
  have shift := shiftBit_ofNat r.toNat (hardBit v)
  rw [BitVec.ofNat_toNat, BitVec.setWidth_eq, hardBit_toNat] at shift
  rw [shift, BitVec.toNat_ofNat]

/-- Settles O27: the effect of `SL.STEP`, and its `require` lines where it has a step. -/
theorem slStepResult : Obligations.SlStepResult := by
  refine ⟨rfl, fun s blocked t h => ?_, fun s v rest running chSym room => ?_⟩
  · obtain ⟨v, rest, chSym, running, room, -⟩ := execSlStep_next h
    obtain stopped | empty | full := blocked
    · exact Bool.false_ne_true (stopped.symm.trans running)
    · exact List.cons_ne_nil v rest (chSym.symm.trans empty)
    · exact Nat.not_succ_le_self _ (room.trans full)
  · have step := exec_slStep chSym running room
    refine ⟨shiftBit s.slShreg (hardBit v), shiftBit_hardBit_toNat _ v, fun last => ?_, fun partway => ?_⟩
    · rw [step, State.afterSlStep_of_eq last]
    · rw [step, State.afterSlStep_of_ne partway]
      rfl

/-! ### Any schedule (R143) -/

/-- The soft symbols whose bits are held: eight in each byte of `CH_BYTE`, and those of the byte being built. -/
def State.symbolsHeld (s : State) : Nat := 8 * s.chByte.length + s.slBitcnt.toNat

theorem State.AtReset.symbolsHeld_eq_zero {s : State} (h : s.AtReset) : s.symbolsHeld = 0 := by
  rw [State.symbolsHeld, h.chByte, h.slBitcnt]
  rfl

/-- R141: a firing adds one symbol, whether it completes a byte or not. -/
theorem State.afterSlStep_symbolsHeld (s : State) (v : NUM) (rest : List NUM) :
    (s.afterSlStep v rest).symbolsHeld = s.symbolsHeld + 1 := by
  by_cases last : s.slBitcnt = 7
  · rw [State.afterSlStep_of_eq last]
    simp only [State.symbolsHeld, last, List.length_append, Nat.mul_add]
    rfl
  · rw [State.afterSlStep_of_ne last]
    have next : (s.slBitcnt + 1).toNat = s.slBitcnt.toNat + 1 := by bv_omega
    exact congrArg (8 * s.chByte.length + ·) next

/-- R143: one operation keeps the balance between the symbols consumed, those held and those in the bytes popped. -/
theorem Effect.symbolsHeld_eq {s t : State} {i : Instr} (h : Effect s i t) (hr : i ≠ .reset) :
    t.symbolsHeld + 8 * [i].count .bytePop = s.symbolsHeld + [i].count .slStep := by
  cases h with
  | reset => exact absurd rfl hr
  | slStep => exact s.afterSlStep_symbolsHeld _ _
  | @bytePop b rest chByte =>
    show 8 * rest.length + s.slBitcnt.toNat + 8 = 8 * s.chByte.length + s.slBitcnt.toNat
    rw [chByte, List.length_cons]
    omega
  | _ => rfl

/-- The inversion of `execAll` on a schedule that is not empty. -/
theorem execAll_cons_next {i : Instr} {is : List Instr} {s t : State} (h : execAll (i :: is) s = .next t) :
    ∃ u, exec i s = .next u ∧ execAll is u = .next t := by
  rw [execAll] at h
  split at h
  next u first => exact ⟨u, first, h⟩
  next => cases h
  next => cases h

/-- R143 from any state: the balance over a schedule without `RESET`. -/
theorem execAll_symbolsHeld_eq {is : List Instr} {s t : State} (hr : Instr.reset ∉ is) (h : execAll is s = .next t) :
    t.symbolsHeld + 8 * is.count .bytePop = s.symbolsHeld + is.count .slStep := by
  induction is generalizing s with
  | nil => cases h; rfl
  | cons i is ih =>
    obtain ⟨hi, his⟩ := List.ne_and_not_mem_of_not_mem_cons hr
    obtain ⟨u, first, later⟩ := execAll_cons_next h
    have one := (exec_effect first).symbolsHeld_eq hi.symm
    have others := ih his later
    rw [← List.singleton_append, List.count_append, List.count_append]
    omega

/-- Settles O29: from reset nothing is held, and fewer than eight symbols are in the byte being built. -/
theorem slicerCounts : Obligations.SlicerCounts := by
  intro is s t reset hr h
  have balance := execAll_symbolsHeld_eq hr h
  rw [reset.symbolsHeld_eq_zero, State.symbolsHeld] at balance
  have partway : t.slBitcnt.toNat < 8 := t.slBitcnt.isLt
  constructor <;> omega

end Sys2Proof.Machine
end

section
/-! The descrambler (42_descrambler.md): the reversal of a byte (R151), what `DS.RUN` does to the frame (R152), the
properties of descrambling (R154), and that it undoes the transmitter's scrambling (R155). -/

namespace Sys2Proof.Machine

/-! ### The reversal of a byte (R151) -/

theorem one_shiftLeft_eq_twoPow (j : Nat) : (1 : Byte) <<< j = BitVec.twoPow 8 j := (BitVec.twoPow_eq 8 j).symm

theorem natCast_one_shiftLeft_eq_twoPow (j : Nat) : ((1 <<< j : Nat) : Byte) = BitVec.twoPow 8 j :=
  BitVec.eq_of_toNat_eq (by simp [BitVec.toNat_twoPow, Nat.one_shiftLeft])

/-- Setting, one after the other, the bits listed in `js` whose mirror in `b` is set. -/
theorem foldl_setMirrored_getLsbD (b r : Byte) (js : List Nat) {k : Nat} (hk : k < 8) :
    (js.foldl (fun r j => if b.getLsbD (7 - j) then r ||| ((1 : Byte) <<< j) else r) r).getLsbD k =
      (r.getLsbD k || (decide (k ∈ js) && b.getLsbD (7 - k))) := by
  induction js generalizing r with
  | nil => simp
  | cons j js ih =>
    rw [List.foldl_cons, ih]
    by_cases hjk : k = j
    · subst hjk
      cases hb : b.getLsbD (7 - k) <;> simp [hk]
    · rw [one_shiftLeft_eq_twoPow]
      cases b.getLsbD (7 - j) <;> simp [hjk, Ne.symm hjk]

theorem bitrev8_getLsbD (b : Byte) {k : Nat} (hk : k < 8) : (bitrev8 b).getLsbD k = b.getLsbD (7 - k) := by
  rw [bitrev8, foldl_setMirrored_getLsbD b 0 _ hk]
  simp [hk]

theorem bitrev8_bitrev8 (b : Byte) : bitrev8 (bitrev8 b) = b :=
  BitVec.eq_of_getLsbD_eq fun k hk => by
    rw [bitrev8_getLsbD _ hk, bitrev8_getLsbD _ (by omega), Nat.sub_sub_self (by omega)]

theorem bitrev8_xor (a b : Byte) : bitrev8 (a ^^^ b) = bitrev8 a ^^^ bitrev8 b :=
  BitVec.eq_of_getLsbD_eq fun k hk => by
    simp only [BitVec.getLsbD_xor, bitrev8_getLsbD _ hk]

theorem bitrev8_twoPow {j : Nat} (hj : j < 8) : bitrev8 (BitVec.twoPow 8 j) = BitVec.twoPow 8 (7 - j) :=
  BitVec.eq_of_getLsbD_eq fun k hk => by
    have mirrored : j = 7 - k ↔ 7 - j = k := by omega
    rw [bitrev8_getLsbD _ hk, BitVec.getLsbD_twoPow, BitVec.getLsbD_twoPow, decide_eq_true hj,
      decide_eq_true (show 7 - j < 8 by omega), decide_eq_decide.mpr mirrored]

theorem bitrev8_bijective : Function.Bijective bitrev8 :=
  Function.Involutive.bijective bitrev8_bitrev8

theorem mod_two_pow_eq_sum_testBit (n w : Nat) :
    n % 2 ^ w = ∑ j ∈ Finset.range w, (n.testBit j).toNat * 2 ^ j := by
  induction w with
  | zero => simp [Nat.mod_one]
  | succ w ih => rw [Nat.mod_pow_succ, ih, Finset.sum_range_succ, Nat.toNat_testBit, Nat.mul_comm]

/-- A word is the sum of its bits, each at its weight. -/
theorem toNat_eq_sum_getLsbD {w : Nat} (x : BitVec w) :
    x.toNat = ∑ j ∈ Finset.range w, (x.getLsbD j).toNat * 2 ^ j :=
  (Nat.mod_eq_of_lt x.isLt).symm.trans (mod_two_pow_eq_sum_testBit x.toNat w)

theorem bitrev8_toNat (b : Byte) :
    (bitrev8 b).toNat = ∑ j ∈ Finset.range 8, (b.getLsbD (7 - j)).toNat * 2 ^ j := by
  rw [toNat_eq_sum_getLsbD]
  exact Finset.sum_congr rfl fun j hj => by rw [bitrev8_getLsbD b (Finset.mem_range.mp hj)]

/-- R151: the sixteen bytes that read the same from both ends. -/
theorem bitrev8_eq_self_iff : ∀ b : Byte, bitrev8 b = b ↔ b ∈ ([0x00, 0x18, 0x24, 0x3C, 0x42, 0x5A, 0x66, 0x7E, 0x81,
    0x99, 0xA5, 0xBD, 0xC3, 0xDB, 0xE7, 0xFF] : List Byte) := by
  decide +kernel

/-- Settles O34: one lemma per claim, and the examples by evaluation. -/
theorem bitReversal : Obligations.BitReversal :=
  ⟨fun b => ⟨fun _ => bitrev8_getLsbD b, bitrev8_toNat b, bitrev8_bitrev8 b, bitrev8_eq_self_iff b⟩,
    bitrev8_bijective, by decide, by decide, by decide, by decide⟩

/-! ### One byte descrambled (R152, R154) -/

/-- The byte that R152 adds at position `i`, after the reversal. -/
def dsMask (P : Params) (i : Nat) : Byte := 0xFF ^^^ prnByte P i

section

variable (P : Params) (i : Nat) (b : Byte)

theorem descrambleByte_eq_xor_dsMask : descrambleByte P i b = bitrev8 b ^^^ dsMask P i := BitVec.xor_assoc _ _ _

theorem descrambleByte_descrambleByte :
    descrambleByte P i (descrambleByte P i b) = b ^^^ bitrev8 (dsMask P i) ^^^ dsMask P i := by
  simp only [descrambleByte_eq_xor_dsMask, bitrev8_xor, bitrev8_bitrev8]

theorem descrambleByte_twice_eq_self_iff :
    descrambleByte P i (descrambleByte P i b) = b ↔ bitrev8 (dsMask P i) = dsMask P i := by
  rw [descrambleByte_descrambleByte, BitVec.xor_assoc, xor_left_eq_self_iff, xor_eq_zero_iff]

theorem descrambleByte_flip {j : Nat} (hj : j < 8) :
    descrambleByte P i (b ^^^ (1 <<< j)) = descrambleByte P i b ^^^ (1 <<< (7 - j)) := by
  simp only [descrambleByte_eq_xor_dsMask, natCast_one_shiftLeft_eq_twoPow, bitrev8_xor, bitrev8_twoPow hj]
  ac_rfl

/-- R155: the transmitter's scrambling of one byte. -/
def scrambleByte : Byte := bitrev8 (b ^^^ 0xFF ^^^ prnByte P i)

theorem scrambleByte_eq_xor_dsMask : scrambleByte P i b = bitrev8 (b ^^^ dsMask P i) :=
  congrArg bitrev8 (BitVec.xor_assoc _ _ _)

theorem descrambleByte_scrambleByte : descrambleByte P i (scrambleByte P i b) = b := by
  rw [descrambleByte_eq_xor_dsMask, scrambleByte_eq_xor_dsMask, bitrev8_bitrev8, xor_cancel_right]

theorem scrambleByte_descrambleByte : scrambleByte P i (descrambleByte P i b) = b := by
  rw [scrambleByte_eq_xor_dsMask, descrambleByte_eq_xor_dsMask, xor_cancel_right, bitrev8_bitrev8]

end

/-! ### A block descrambled (R152, R154, R155) -/

theorem mapIdx_mapIdx_of_leftInverse {α : Type} {f g : Nat → α → α} (h : ∀ i, Function.LeftInverse (g i) (f i))
    (l : List α) : (l.mapIdx f).mapIdx g = l :=
  List.ext_getElem (by simp) fun i _ _ => by
    rw [List.getElem_mapIdx, List.getElem_mapIdx]
    exact h i _

section

variable (P : Params) (block : List Byte) (k : Nat)

theorem descramble_getElem? : (descramble P block)[k]? = block[k]?.map (descrambleByte P k) := List.getElem?_mapIdx

theorem scramble_eq_mapIdx : scramble P block = block.mapIdx (scrambleByte P) := rfl

theorem scramble_length : (scramble P block).length = block.length := List.length_mapIdx

theorem descramble_scramble : descramble P (scramble P block) = block :=
  mapIdx_mapIdx_of_leftInverse (descrambleByte_scrambleByte P) block

theorem scramble_descramble : scramble P (descramble P block) = block :=
  mapIdx_mapIdx_of_leftInverse (scrambleByte_descrambleByte P) block

theorem descramble_set_getElem?_of_ne {i k : Nat} (b : Byte) (h : k ≠ i) :
    (descramble P (block.set i b))[k]? = (descramble P block)[k]? := by
  rw [descramble_getElem?, descramble_getElem?, List.getElem?_set_ne h.symm]

end

/-- Settles O36: scrambling is the inverse on blocks, and the reversal distributes over the exclusive or. -/
theorem descramblerProperties : Obligations.DescramblerProperties := fun P =>
  ⟨fun _ _ same => Function.LeftInverse.injective (scramble_descramble P) same,
    fun y => ⟨scramble P y, scramble_length P y, descramble_scramble P y⟩,
    fun i b => ⟨descrambleByte_descrambleByte P i b, descrambleByte_twice_eq_self_iff P i b⟩,
    fun i b _ => descrambleByte_flip P i b,
    fun x _ _ b => descramble_set_getElem?_of_ne P x b⟩

/-! ### `DS.RUN` (R152, R155) -/

theorem State.FrameWritten.bytes {s : State} (h : s.FrameWritten) :
    s.fb.bytes s.P.frameLenMax = some (s.fb.map Prod.snd) :=
  Memory.bytes_eq_some.mpr ⟨h, rfl⟩

/-- Settles O33: the effect of `DS.RUN`, and its `require` line where it has a step. -/
theorem dsRunDescrambles : Obligations.DsRunDescrambles := by
  refine ⟨rfl, fun s blocked t h => ?_, fun s running loaded written => ?_⟩
  · obtain ⟨running, loaded, -⟩ := execDsRun_next h
    obtain stopped | other := blocked
    · exact Bool.false_ne_true (stopped.symm.trans running)
    · exact other loaded
  · have bytes := written.bytes
    have length := Memory.length_of_bytes bytes
    refine ⟨_, (Effect.dsRun running loaded bytes).exec_eq rfl, Memory.ofBytes_wf 0 _, fun a ha => ?_, fun a ha => ?_⟩
    · rw [← length] at ha
      have value := List.getElem?_eq_getElem ha
      refine ⟨_, (Memory.read_of_bytes bytes a).trans value, ?_⟩
      rw [Memory.read_ofBytes_zero, descramble_getElem?, value]
      rfl
    · rw [Memory.read_ofBytes_zero, List.getElem?_eq_none]
      rwa [descramble_length, length]

/-- The scrambling of a frame, given byte by byte. -/
theorem eq_scramble_of_getD {P : Params} {plain block : List Byte} (length : block.length = plain.length)
    (h : ∀ a < plain.length, block.getD a 0 = scrambleByte P a (plain.getD a 0)) : block = scramble P plain :=
  List.ext_getElem (length.trans (scramble_length P plain).symm) fun a ha ha' => by
    have inPlain := length ▸ ha
    have byte := h a inPlain
    rw [List.getD_eq_getElem _ _ ha, List.getD_eq_getElem _ _ inPlain] at byte
    simp only [scramble_eq_mapIdx, List.getElem_mapIdx, byte]

/-- Settles O35: `FR.LOAD` writes the scrambled frame, and descrambling undoes the scrambling. -/
theorem dsRunUndoesScrambling : Obligations.DsRunUndoesScrambling := by
  intro s plain blk plainLength length scrambled running empty
  have blk_eq : blk = scramble s.P plain :=
    eq_scramble_of_getD (length.trans plainLength.symm) (plainLength ▸ scrambled)
  have run := (execAll_cons_of_next (exec_frLoad length empty) [.dsRun]).trans <|
    execAll_cons_of_next (exec_dsRun_withFb length running) []
  refine ⟨_, run, rfl, fun a => (Memory.read_ofBytes_zero _ a).trans ?_⟩
  rw [blk_eq, descramble_scramble]

end Sys2Proof.Machine
end

section
/-! The symbol field (43_gf256.md section 1): the product and the powers of `α` of any field polynomial, and what a
primitive one adds to them: R162, R163, R164. -/

namespace Sys2Proof.Machine

/-! ### Bytes as sums of single bits -/

/-- What holds of 0 and of every single bit, and is kept by sums, holds of every byte. -/
theorem byte_gadd_induction {motive : Byte → Prop} (zero : motive 0)
    (bit : ∀ i < 8, motive (BitVec.twoPow 8 i)) (sum : ∀ a b, motive a → motive b → motive (gadd a b))
    (b : Byte) : motive b := by
  have low : ∀ k ≤ 8, motive ((b.setWidth k).setWidth 8) := by
    intro k
    induction k with
    | zero => exact fun _ => BitVec.eq_nil (b.setWidth 0) ▸ zero
    | succ k ih =>
      intro hk
      cases hb : b.getLsbD k with
      | false =>
        rw [BitVec.setWidth_setWidth_succ_eq_setWidth_setWidth_of_getLsbD_false hb]
        exact ih (by omega)
      | true =>
        have split : (b.setWidth (k + 1)).setWidth 8 = gadd ((b.setWidth k).setWidth 8) (BitVec.twoPow 8 k) := by
          apply BitVec.eq_of_getLsbD_eq
          intro i hi
          rcases Nat.lt_trichotomy i k with h | rfl | h
          · simp [gadd, hi, h, h.le, h.ne]
          · simpa [gadd, hi] using hb
          · simp [gadd, hi, h.not_ge, h.not_gt, h.ne']
        rw [split]
        exact sum _ _ (ih (by omega)) (bit k (by omega))
  simpa using low 8 le_rfl

theorem additive_zero {f : Byte → Byte} (hf : ∀ a b, f (gadd a b) = gadd (f a) (f b)) : f 0 = 0 := by
  have double := hf 0 0
  rwa [gadd_self, gadd_self] at double

/-- Two additive functions that agree on every single bit are equal. -/
theorem eq_of_additive {f g : Byte → Byte} (hf : ∀ a b, f (gadd a b) = gadd (f a) (f b))
    (hg : ∀ a b, g (gadd a b) = gadd (g a) (g b)) (bit : ∀ i < 8, f (BitVec.twoPow 8 i) = g (BitVec.twoPow 8 i))
    (b : Byte) : f b = g b := by
  induction b using byte_gadd_induction with
  | zero => rw [additive_zero hf, additive_zero hg]
  | bit i hi => exact bit i hi
  | sum a b ha hb => rw [hf, hg, ha, hb]

theorem gadd_zero (a : Byte) : gadd a 0 = a := BitVec.xor_zero

theorem zero_gadd (a : Byte) : gadd 0 a = a := BitVec.zero_xor

/-! ### The reduction (R162, second loop) and multiplication by `α` -/

theorem reduceBit_of_lt (poly : Nat) {i r : Nat} (h : r < 2 ^ i) : reduceBit poly i r = r := by
  simp [reduceBit, Nat.shiftRight_eq_div_pow, Nat.div_eq_of_lt h]

theorem reduceBy_of_lt (poly : Nat) {r : Nat} (h : r < 2 ^ 8) : reduceBy poly r = r := by
  have none : ∀ i ≥ 8, reduceBit poly i r = r := fun i hi =>
    reduceBit_of_lt poly (h.trans_le (Nat.pow_le_pow_right (by omega) hi))
  simp only [reduceBy, none, ge_iff_le, Nat.reduceLeDiff]

/-- One turn of the second loop commutes with a shift by one place. -/
theorem reduceBit_succ_shiftLeft (poly r : Nat) {i : Nat} (h : 8 ≤ i) :
    reduceBit poly (i + 1) (r <<< 1) = reduceBit poly i r <<< 1 := by
  have bit : (r <<< 1) >>> (i + 1) = r >>> i := by
    rw [Nat.add_comm, Nat.shiftRight_add, Nat.shiftLeft_shiftRight]
  have mask : poly <<< (i + 1 - 8) = (poly <<< (i - 8)) <<< 1 := by
    rw [← Nat.shiftLeft_add, Nat.sub_add_comm h]
  rw [reduceBit, reduceBit, bit, mask, Nat.shiftLeft_xor_distrib]
  congr 1
  simp only [Nat.shiftLeft_eq, Nat.mul_assoc]

/-- Multiplication by `α` is a shift and the last turn of the second loop. -/
theorem xtime_ofNat (poly : BitVec 9) (r : Nat) :
    xtime poly (BitVec.ofNat 8 r) = BitVec.ofNat 8 (reduceBit poly.toNat 8 (r <<< 1)) := by
  have bit : (r % 2 ^ 8) >>> 7 % 2 = (r <<< 1) >>> 8 % 2 := by
    simp only [Nat.shiftRight_eq_div_pow, Nat.shiftLeft_eq]
    omega
  have low : BitVec.ofNat 8 ((r % 2 ^ 8) <<< 1) = BitVec.ofNat 8 (r <<< 1) := by
    apply BitVec.eq_of_toNat_eq
    simp only [BitVec.toNat_ofNat, Nat.shiftLeft_eq]
    omega
  simp only [xtime, reduceBit, BitVec.toNat_ofNat, ofNat8_xor, bit, low, Nat.sub_self, Nat.shiftLeft_zero]

theorem ofNat_reduceBy_shiftLeft_one (poly : BitVec 9) {r : Nat} (h : r < 2 ^ 14) :
    BitVec.ofNat 8 (reduceBy poly.toNat (r <<< 1)) = xtime poly (BitVec.ofNat 8 (reduceBy poly.toNat r)) := by
  simp only [xtime_ofNat, reduceBy, reduceBit_succ_shiftLeft poly.toNat _ (Nat.le_refl 8),
    reduceBit_succ_shiftLeft, Nat.reduceLeDiff, reduceBit_of_lt poly.toNat h]

theorem ofNat_reduceBy_shiftLeft (poly : BitVec 9) (a : Byte) {i : Nat} (h : i < 8) :
    BitVec.ofNat 8 (reduceBy poly.toNat (a.toNat <<< i)) = (xtime poly)^[i] a := by
  induction i with
  | zero => simp [reduceBy_of_lt poly.toNat a.isLt]
  | succ i ih =>
    have weight : 2 ^ i ≤ 2 ^ 6 := Nat.pow_le_pow_right (by omega) (by omega)
    have bound : a.toNat <<< i < 2 ^ 14 :=
      calc a.toNat <<< i = a.toNat * 2 ^ i := Nat.shiftLeft_eq _ _
        _ < 2 ^ 8 * 2 ^ 6 := Nat.mul_lt_mul_of_lt_of_le a.isLt weight (by omega)
    rw [Nat.shiftLeft_add, ofNat_reduceBy_shiftLeft_one poly bound, ih (by omega), Function.iterate_succ_apply']

theorem xtime_gadd (poly : BitVec 9) (a b : Byte) : xtime poly (gadd a b) = gadd (xtime poly a) (xtime poly b) := by
  have eq : ∀ c : Byte, xtime poly c = BitVec.ofNat 8 (reduceBit poly.toNat 8 (c.toNat <<< 1)) := fun c => by
    simpa using xtime_ofNat poly c.toNat
  simp only [eq, gadd, BitVec.toNat_xor, Nat.shiftLeft_xor_distrib, reduceBit_xor, ofNat8_xor]

theorem xtime_one (poly : BitVec 9) : xtime poly 1 = 2 := by simp [xtime]

/-- R162, last sentence. -/
theorem xtime_eq_ite (poly : BitVec 9) (a : Byte) :
    xtime poly a = if a.getLsbD 7 then (a <<< 1) ^^^ poly.setWidth 8 else a <<< 1 := by
  have shift : BitVec.ofNat 8 (a.toNat <<< 1) = a <<< 1 := by
    apply BitVec.eq_of_toNat_eq
    simp
  have mask : BitVec.ofNat 8 poly.toNat = poly.setWidth 8 := by
    apply BitVec.eq_of_toNat_eq
    simp
  have bit : a.toNat >>> 7 % 2 = (a.getLsbD 7).toNat := by
    rw [BitVec.getLsbD, Nat.toNat_testBit, Nat.shiftRight_eq_div_pow]
  rw [xtime, ofNat8_xor, shift, bit]
  cases a.getLsbD 7 <;> simp [mask]

/-! ### The product (R162), for any field polynomial -/

section

variable (poly : BitVec 9) (a b : Byte)

theorem gmul_zero_right : gmul poly a 0 = 0 := by
  rw [← gadd_self 0, gmul_gadd_right, gadd_self, gadd_self]

theorem gmul_zero_left : gmul poly 0 a = 0 := by
  rw [← gadd_self 0, gmul_gadd_left, gadd_self, gadd_self]

theorem carryless_two_pow (n : Nat) {i : Nat} (h : i < 8) : carryless n (2 ^ i) = n <<< i := by
  simp only [carryless, shiftedIfBit_eq, Nat.testBit_two_pow]
  interval_cases i <;> simp

/-- Multiplying by a single bit is a run of multiplications by `α`. -/
theorem gmul_twoPow {i : Nat} (h : i < 8) : gmul poly a (BitVec.twoPow 8 i) = (xtime poly)^[i] a := by
  rw [gmul, BitVec.toNat_twoPow_of_lt h, carryless_two_pow _ h, ofNat_reduceBy_shiftLeft poly a h]

theorem gmul_one_right : gmul poly a 1 = a := gmul_twoPow poly a (i := 0) (by omega)

/-- The key to the laws of R162: multiplication by `α` commutes with the product, as both are additive and agree on
every single bit. -/
theorem gmul_xtime_left : gmul poly (xtime poly a) b = xtime poly (gmul poly a b) := by
  refine eq_of_additive (f := gmul poly (xtime poly a)) (g := fun b => xtime poly (gmul poly a b))
    (gmul_gadd_right poly _) (fun b c => ?_) (fun i hi => ?_) b
  · rw [gmul_gadd_right, xtime_gadd]
  · rw [gmul_twoPow poly _ hi, gmul_twoPow poly _ hi, ← Function.iterate_succ_apply, Function.iterate_succ_apply']

theorem gmul_one_left : gmul poly 1 a = a := by
  refine eq_of_additive (f := gmul poly 1) (g := id) (gmul_gadd_right poly _) (fun _ _ => rfl) (fun i hi => ?_) a
  have value : (1 : Byte).toNat <<< i < 2 ^ 8 := by
    simpa [Nat.shiftLeft_eq] using Nat.pow_lt_pow_right (a := 2) (by omega) hi
  rw [gmul_twoPow poly _ hi, ← ofNat_reduceBy_shiftLeft poly 1 hi, reduceBy_of_lt _ value]
  apply BitVec.eq_of_toNat_eq
  simp [Nat.shiftLeft_eq]

theorem gmul_two_left : gmul poly 2 a = xtime poly a := by
  rw [← xtime_one poly, gmul_xtime_left, gmul_one_left]

end

/-! ### The powers of `α` (R163) -/

section

variable (poly : BitVec 9)

theorem gexp_eq_iterate (e : Nat) : gexp poly e = (xtime poly)^[e] 1 := by
  induction e with
  | zero => rfl
  | succ e ih => rw [gexp, ih, Function.iterate_succ_apply']

theorem gmul_gexp_left (e : Nat) (b : Byte) : gmul poly (gexp poly e) b = (xtime poly)^[e] b := by
  induction e with
  | zero => exact gmul_one_left poly b
  | succ e ih => rw [gexp, gmul_xtime_left, ih, Function.iterate_succ_apply']

theorem gmul_gexp (e f : Nat) : gmul poly (gexp poly e) (gexp poly f) = gexp poly (e + f) := by
  rw [gmul_gexp_left, gexp_eq_iterate, gexp_eq_iterate, Function.iterate_add_apply]

theorem gmul_gexp_assoc (e : Nat) (b c : Byte) :
    gmul poly (gmul poly (gexp poly e) b) c = gmul poly (gexp poly e) (gmul poly b c) := by
  induction e with
  | zero => simp only [gexp, gmul_one_left]
  | succ e ih => simp only [gexp, gmul_xtime_left, ih]

/-- What R8's test finds: the first return to 1. -/
theorem firstReturn_spec {n : Nat} {v : Byte} (h : firstReturn poly n v = true) :
    (xtime poly)^[n] v = 1 ∧ ∀ k, 0 < k → k < n → (xtime poly)^[k] v ≠ 1 := by
  induction n, v using firstReturn.induct poly with
  | case1 v => exact absurd h Bool.false_ne_true
  | case2 v => exact ⟨by simpa [firstReturn] using h, fun k _ _ => by omega⟩
  | case3 n v ih =>
    simp only [firstReturn, Bool.and_eq_true, bne_iff_ne] at h
    obtain ⟨first, later⟩ := h
    obtain ⟨reached, before⟩ := ih later
    refine ⟨reached, fun k hk hn => ?_⟩
    obtain ⟨k, rfl⟩ := Nat.exists_eq_add_of_lt hk
    rcases Nat.eq_zero_or_pos k with rfl | pos
    · exact first
    · simpa using before k pos (by omega)

end

/-! ### A primitive field polynomial (R8, R163) -/

section

variable {poly : BitVec 9} (h : isPrimitive poly = true)

include h

/-- `α` has order 255. -/
theorem minimalPeriod_xtime_one : Function.minimalPeriod (xtime poly) 1 = 255 := by
  obtain ⟨reached, before⟩ := firstReturn_spec poly (Bool.and_eq_true_iff.mp h).2
  have periodic : Function.IsPeriodicPt (xtime poly) 255 1 := reached
  refine (periodic.minimalPeriod_le (by omega)).antisymm (Nat.le_of_not_lt fun less => ?_)
  exact before _ (periodic.minimalPeriod_pos (by omega)) less Function.iterate_minimalPeriod

theorem gexp_mod (e : Nat) : gexp poly (e % 255) = gexp poly e := by
  rw [gexp_eq_iterate, gexp_eq_iterate, ← minimalPeriod_xtime_one h, Function.iterate_mod_minimalPeriod_eq]

theorem gexp_eq_gexp_iff {e f : Nat} : gexp poly e = gexp poly f ↔ e ≡ f [MOD 255] := by
  have order := minimalPeriod_xtime_one h
  have below : ∀ n, n % 255 < Function.minimalPeriod (xtime poly) 1 := fun n => order ▸ Nat.mod_lt n (by omega)
  rw [← gexp_mod h e, ← gexp_mod h f, gexp_eq_iterate, gexp_eq_iterate,
    Function.iterate_eq_iterate_iff_of_lt_minimalPeriod (below e) (below f), Nat.ModEq]

theorem gexp_injOn : Set.InjOn (gexp poly) (Finset.range 255) := fun _ he _ hf same =>
  ((gexp_eq_gexp_iff h).mp same).eq_of_lt_of_lt (Finset.mem_range.mp he) (Finset.mem_range.mp hf)

theorem gexp_255 : gexp poly 255 = 1 := (gexp_mod h 255).symm

/-- No power of `α` is 0: each can be multiplied up to a power whose exponent is a multiple of 255, which is 1. -/
theorem gexp_ne_zero (e : Nat) : gexp poly e ≠ 0 := by
  intro zero
  have one : gmul poly (gexp poly e) (gexp poly (255 * e - e)) = 1 := by
    rw [gmul_gexp, ← gexp_mod h, show e + (255 * e - e) = 255 * e by omega, Nat.mul_mod_right]
    rfl
  rw [zero, gmul_zero_left] at one
  exact absurd one (by decide)

/-- Every non-zero byte is a power of `α`: the first 255 powers are as many as there are non-zero bytes. -/
theorem exists_gexp_eq {a : Byte} (ha : a ≠ 0) : ∃ e < 255, gexp poly e = a := by
  have card : ((Finset.univ : Finset Byte).erase 0).card ≤ (Finset.range 255).card := by
    simp [← FinEnum.card_eq_fintypeCard]
  have onto := Finset.surjOn_of_injOn_of_card_le (gexp poly)
    (fun e _ => by simpa using gexp_ne_zero h e) (gexp_injOn h) card
  obtain ⟨e, he, eq⟩ := onto (by simpa using ha)
  exact ⟨e, Finset.mem_range.mp he, eq⟩

/-! ### The laws of the product (R162) -/

theorem gmul_comm (a b : Byte) : gmul poly a b = gmul poly b a := by
  rcases eq_or_ne a 0 with rfl | ha
  · rw [gmul_zero_left, gmul_zero_right]
  rcases eq_or_ne b 0 with rfl | hb
  · rw [gmul_zero_left, gmul_zero_right]
  obtain ⟨e, -, rfl⟩ := exists_gexp_eq h ha
  obtain ⟨f, -, rfl⟩ := exists_gexp_eq h hb
  rw [gmul_gexp, gmul_gexp, Nat.add_comm]

theorem gmul_assoc (a b c : Byte) : gmul poly (gmul poly a b) c = gmul poly a (gmul poly b c) := by
  rcases eq_or_ne a 0 with rfl | ha
  · simp only [gmul_zero_left]
  · obtain ⟨e, -, rfl⟩ := exists_gexp_eq h ha
    exact gmul_gexp_assoc poly e b c

/-! ### Logarithms and inverses (R163, R164) -/

theorem gpow_natCast (e : Nat) : gpow poly (e : Int) = gexp poly e := by
  rw [← gexp_mod h e, gpow]
  congr 1

end

/-- The search finds the first power from `v` on that is `a`. -/
theorem glogFrom_eq_add {poly : BitVec 9} {a : Byte} {n k : Nat} {v : Byte} (e : Nat) (hk : k < n)
    (found : (xtime poly)^[k] v = a) (first : ∀ j < k, (xtime poly)^[j] v ≠ a) :
    glogFrom poly a n v e = e + k := by
  induction n generalizing k v e with
  | zero => omega
  | succ n ih =>
    cases k with
    | zero => exact if_pos found
    | succ k =>
      have later : ∀ j < k, (xtime poly)^[j] (xtime poly v) ≠ a := fun j hj => first (j + 1) (by omega)
      have notHere : v ≠ a := first 0 (by omega)
      rw [glogFrom, if_neg notHere, ih (v := xtime poly v) (e + 1) (by omega) found later]
      omega

section

variable {poly : BitVec 9} (h : isPrimitive poly = true)

include h

theorem glog_gexp {e : Nat} (he : e < 255) : glog poly (gexp poly e) = e := by
  have first : ∀ j < e, (xtime poly)^[j] 1 ≠ gexp poly e := fun j hj same =>
    hj.ne (gexp_injOn h (Finset.mem_range.mpr (hj.trans he)) (Finset.mem_range.mpr he)
      ((gexp_eq_iterate poly j).trans same))
  rw [glog, if_neg (gexp_ne_zero h e), glogFrom_eq_add 0 he (gexp_eq_iterate poly e).symm first, Nat.zero_add]

theorem glog_lt {a : Byte} (ha : a ≠ 0) : glog poly a < 255 := by
  obtain ⟨e, he, rfl⟩ := exists_gexp_eq h ha
  rwa [glog_gexp h he]

theorem gexp_glog {a : Byte} (ha : a ≠ 0) : gexp poly (glog poly a) = a := by
  obtain ⟨e, he, rfl⟩ := exists_gexp_eq h ha
  rw [glog_gexp h he]

theorem gmul_eq_gexp_add {a b : Byte} (ha : a ≠ 0) (hb : b ≠ 0) :
    gmul poly a b = gexp poly (glog poly a + glog poly b) := by
  rw [← gmul_gexp, gexp_glog h ha, gexp_glog h hb]

theorem gmul_ginv {a : Byte} (ha : a ≠ 0) : gmul poly a (ginv poly a) = 1 := by
  have below := glog_lt h ha
  calc gmul poly a (ginv poly a)
      = gmul poly (gexp poly (glog poly a)) (gexp poly (255 - glog poly a)) := by
        rw [ginv, if_neg ha, gexp_mod h, gexp_glog h ha]
    _ = 1 := by rw [gmul_gexp, Nat.add_sub_cancel' below.le, gexp_255 h]

theorem eq_ginv_of_gmul_eq_one {a b : Byte} (ha : a ≠ 0) (hb : gmul poly a b = 1) : b = ginv poly a :=
  calc b = gmul poly (gmul poly (ginv poly a) a) b := by rw [gmul_comm h _ a, gmul_ginv h ha, gmul_one_left]
    _ = ginv poly a := by rw [gmul_assoc h, hb, gmul_one_right]

end

/-- Settles O39: commutativity and associativity from the powers of `α`, the rest for any field polynomial. -/
theorem fieldProductLaws : Obligations.FieldProductLaws := fun p h a b c =>
  ⟨gmul_comm h a b, gmul_assoc h a b c, gmul_gadd_right p a b c, gmul_one_right p a, gmul_zero_right p a,
    (gmul_two_left p a).trans (xtime_eq_ite p a), (gmul_two_left p a).symm⟩

/-- Settles O40: every statement about non-zero bytes is one about the powers of `α`. -/
theorem logarithmsAndInverses : Obligations.LogarithmsAndInverses := by
  intro p h
  refine ⟨fun a ha => ⟨glog_lt h ha, ?_, fun e he power => ?_⟩, fun a b ha hb => ?_,
    fun a ha => ⟨gmul_ginv h ha, fun b => eq_ginv_of_gmul_eq_one h ha⟩⟩
  · rw [gpow_natCast h, gexp_glog h ha]
  · rw [← power, gpow_natCast h, glog_gexp h he]
  · rw [gpow_natCast h, gmul_eq_gexp_add h ha hb]

end Sys2Proof.Machine
end

section
/-! Polynomials over the symbol field (43_gf256.md section 2) and the code (section 3): the position locators (R169)
and the roots of the generator (R170). -/

namespace Sys2Proof.Machine

/-! ### The locators and the roots (R169) -/

theorem isPrimitive_of_wf {P : Params} (wf : P.Wf) : isPrimitive P.rsFieldPoly = true := by
  obtain ⟨-, -, -, -, -, -, -, -, primitive, -⟩ := wf
  exact primitive

theorem gcd_rsSkip_of_wf {P : Params} (wf : P.Wf) : Nat.gcd P.rsSkip 255 = 1 := by
  obtain ⟨-, -, -, -, -, -, -, -, -, coprime, -⟩ := wf
  exact coprime

section

variable {P : Params} (wf : P.Wf)

include wf

theorem locator_eq_gexp (d : Nat) : locator P d = gexp P.rsFieldPoly (P.rsSkip * d) :=
  gpow_natCast (isPrimitive_of_wf wf) _

theorem locator_ne_zero (d : Nat) : locator P d ≠ 0 :=
  locator_eq_gexp wf d ▸ gexp_ne_zero (isPrimitive_of_wf wf) _

/-- As `RS_SKIP` is prime to the order of `α`, a locator tells its index. -/
theorem locator_eq_locator_iff {d d' : Nat} : locator P d = locator P d' ↔ d ≡ d' [MOD 255] := by
  rw [locator_eq_gexp wf, locator_eq_gexp wf, gexp_eq_gexp_iff (isPrimitive_of_wf wf)]
  have coprime : Nat.gcd 255 P.rsSkip = 1 := (Nat.gcd_comm _ _).trans (gcd_rsSkip_of_wf wf)
  exact ⟨Nat.ModEq.cancel_left_of_coprime coprime, Nat.ModEq.mul_left _⟩

end

/-- Settles O41: indices below 255 that are congruent modulo 255 are equal. -/
theorem locatorsDiffer : Obligations.LocatorsDiffer := fun P d hd =>
  ⟨locator_ne_zero P.property d,
    fun _ hd' same => ((locator_eq_locator_iff P.property).mp same).eq_of_lt_of_lt hd hd'⟩

/-! ### Sums and products of polynomials (R168) -/

theorem padd_nil (p : List Byte) : padd p [] = p := by cases p <;> rfl

@[simp] theorem padd_length (p q : List Byte) : (padd p q).length = max p.length q.length := by
  induction p, q using padd.induct with
  | case1 q => simp [padd]
  | case2 p _ => simp [padd_nil]
  | case3 a p b q ih => simp [padd, ih]

theorem padd_getD (p q : List Byte) (i : Nat) : (padd p q).getD i 0 = gadd (p.getD i 0) (q.getD i 0) := by
  induction p, q using padd.induct generalizing i with
  | case1 q => exact (zero_gadd _).symm
  | case2 p _ => rw [padd_nil, List.getD_nil, gadd_zero]
  | case3 a p b q ih =>
    cases i with
    | zero => rfl
    | succ i => exact ih i

@[simp] theorem pscale_length (poly : BitVec 9) (k : Byte) (p : List Byte) : (pscale poly k p).length = p.length :=
  List.length_map _

theorem pscale_getD (poly : BitVec 9) (k : Byte) (p : List Byte) (i : Nat) :
    (pscale poly k p).getD i 0 = gmul poly k (p.getD i 0) := by
  have mapped := List.getD_map p 0 (n := i) (gmul poly k)
  rwa [gmul_zero_right] at mapped

theorem peval_nil (poly : BitVec 9) (v : Byte) : peval poly [] v = 0 := rfl

theorem peval_cons (poly : BitVec 9) (a : Byte) (p : List Byte) (v : Byte) :
    peval poly (a :: p) v = gadd a (gmul poly v (peval poly p v)) := rfl

theorem peval_padd (poly : BitVec 9) (p q : List Byte) (v : Byte) :
    peval poly (padd p q) v = gadd (peval poly p v) (peval poly q v) := by
  induction p, q using padd.induct with
  | case1 q => exact (zero_gadd _).symm
  | case2 p _ => rw [padd_nil, peval_nil, gadd_zero]
  | case3 a p b q ih =>
    rw [padd, peval_cons, peval_cons, peval_cons, ih, gmul_gadd_right]
    simp only [gadd]
    ac_rfl

section

variable {poly : BitVec 9} (h : isPrimitive poly = true)

include h

theorem peval_pscale (k : Byte) (p : List Byte) (v : Byte) :
    peval poly (pscale poly k p) v = gmul poly k (peval poly p v) := by
  induction p with
  | nil => exact (gmul_zero_right poly k).symm
  | cons a p ih =>
    rw [pscale, List.map_cons, ← pscale, peval_cons, peval_cons, ih, gmul_gadd_right, ← gmul_assoc h v,
      gmul_comm h v k, gmul_assoc h]

/-- The value of a product is the product of the values. -/
theorem peval_pmul (p q : List Byte) (v : Byte) :
    peval poly (pmul poly p q) v = gmul poly (peval poly p v) (peval poly q v) := by
  induction p with
  | nil => exact (gmul_zero_left poly _).symm
  | cons a p ih =>
    rw [pmul, peval_padd, peval_pscale h, peval_cons, peval_cons, ih, zero_gadd, gmul_gadd_left, gmul_assoc h]

end

/-! ### Monic polynomials -/

/-- A polynomial of degree `n` with leading coefficient 1, and no coefficients listed above it. -/
def IsMonic (p : List Byte) (n : Nat) : Prop := p.length = n + 1 ∧ p.getD n 0 = 1

theorem IsMonic.getLast? {p : List Byte} {n : Nat} (hp : IsMonic p n) : p.getLast? = some 1 := by
  obtain ⟨length, leading⟩ := hp
  have inside : n < p.length := by omega
  rw [List.getLast?_eq_getElem?, length, Nat.add_sub_cancel, List.getElem?_eq_getElem inside,
    ← List.getD_eq_getElem p 0 inside, leading]

/-- The linear factor `x + a` raises the degree by one and keeps the leading coefficient. -/
theorem IsMonic.pmul_linear (poly : BitVec 9) (a : Byte) {p : List Byte} {n : Nat} (hp : IsMonic p n) :
    IsMonic (pmul poly [a, 1] p) (n + 1) := by
  obtain ⟨length, leading⟩ := hp
  have constant : ([0] : List Byte).getD n 0 = 0 := List.getElem?_getD_singleton_default_eq 0 n
  have above : p.getD (n + 1) 0 = 0 := List.getD_eq_default _ _ (by omega)
  constructor
  · simp only [pmul, padd_length, pscale_length, List.length_cons, List.length_nil]
    omega
  · simp only [pmul, padd_getD, pscale_getD, above, List.getD_cons_succ, leading, constant, gmul_zero_right,
      gmul_one_left, zero_gadd, gadd_zero]

/-! ### The generator (R170) -/

/-- The product of the first `n` linear factors of the generator. -/
def generatorUpTo (P : Params) (n : Nat) : List Byte :=
  (List.range n).foldl (fun g r => pmul P.rsFieldPoly [root P r, 1] g) [1]

theorem generator_eq_generatorUpTo (P : Params) : generator P = generatorUpTo P (2 * P.rsT) := rfl

theorem generatorUpTo_succ (P : Params) (n : Nat) :
    generatorUpTo P (n + 1) = pmul P.rsFieldPoly [root P n, 1] (generatorUpTo P n) := by
  simp [generatorUpTo, List.range_succ]

theorem generatorUpTo_isMonic (P : Params) (n : Nat) : IsMonic (generatorUpTo P n) n := by
  induction n with
  | zero => exact ⟨rfl, rfl⟩
  | succ n ih => exact generatorUpTo_succ P n ▸ ih.pmul_linear _ _

/-- `x + a` is 0 at `a`, as every element is its own negative. -/
theorem peval_linear_self (poly : BitVec 9) (a : Byte) : peval poly [a, 1] a = 0 := by
  rw [peval_cons, peval_cons, peval_nil, gmul_zero_right, gadd_zero, gmul_one_right, gadd_self]

theorem peval_generatorUpTo_root {P : Params} (wf : P.Wf) {n r : Nat} (hr : r < n) :
    peval P.rsFieldPoly (generatorUpTo P n) (root P r) = 0 := by
  induction n with
  | zero => omega
  | succ n ih =>
    rw [generatorUpTo_succ, peval_pmul (isPrimitive_of_wf wf)]
    rcases Nat.lt_succ_iff_lt_or_eq.mp hr with before | rfl
    · rw [ih before, gmul_zero_right]
    · rw [peval_linear_self, gmul_zero_left]

/-- Settles O42: one linear factor of the generator for each root, and each factor is 0 at its root. -/
theorem generatorHasTheRoots : Obligations.GeneratorHasTheRoots := by
  intro P
  obtain ⟨length, leading⟩ := generatorUpTo_isMonic P.val (2 * P.val.rsT)
  rw [generator_eq_generatorUpTo]
  exact ⟨length, IsMonic.getLast? ⟨length, leading⟩, fun r => peval_generatorUpTo_root P.property⟩

end Sys2Proof.Machine
end

section
/-! The symbol field as a field of Mathlib's, and the model's polynomials as Mathlib's (43_gf256.md R160, R168): the
decoder is proved over any field whose elements the bytes name. -/

namespace Sys2Proof.Machine

open Polynomial

/-! ### The field -/

/-- A field `F` whose elements are named by the bytes, with the sum of R161 and the product of R162. -/
structure SymbolField (poly : BitVec 9) (F : Type) [Field F] where
  elem : Byte → F
  elem_injective : Function.Injective elem
  elem_gadd : ∀ a b, elem (gadd a b) = elem a + elem b
  elem_gmul : ∀ a b, elem (gmul poly a b) = elem a * elem b

/-- The laws of R161, R162 and R164 are those of a field. -/
@[reducible] noncomputable def fieldOfBytes {poly : BitVec 9} (h : isPrimitive poly = true) : Field Byte :=
  @Field.ofMinimalAxioms Byte ⟨gadd⟩ ⟨gmul poly⟩ ⟨id⟩ ⟨fun a => if a = 0 then 0 else ginv poly a⟩ ⟨0⟩ ⟨1⟩
    gadd_assoc zero_gadd gadd_self (gmul_assoc h) (gmul_comm h) (gmul_one_left poly)
    (fun a ha => (congrArg (gmul poly a) (if_neg ha)).trans (gmul_ginv h ha)) (if_pos rfl) (gmul_gadd_right poly)
    ⟨0, 1, by decide⟩

theorem exists_symbolField {poly : BitVec 9} (h : isPrimitive poly = true) :
    ∃ (F : Type) (_ : Field F), Nonempty (SymbolField poly F) :=
  ⟨Byte, fieldOfBytes h,
    ⟨@SymbolField.mk _ _ (fieldOfBytes h) id Function.injective_id (fun _ _ => rfl) fun _ _ => rfl⟩⟩

namespace SymbolField

section

variable {poly : BitVec 9} {F : Type} [Field F] (φ : SymbolField poly F)

theorem elem_zero : φ.elem 0 = 0 := by
  have double := φ.elem_gadd 0 0
  rwa [gadd_self, left_eq_add] at double

theorem elem_eq_zero_iff {a : Byte} : φ.elem a = 0 ↔ a = 0 := by
  rw [← φ.elem_zero, φ.elem_injective.eq_iff]

theorem elem_one : φ.elem 1 = 1 := by
  have square := φ.elem_gmul 1 1
  have nonzero : φ.elem 1 ≠ 0 := fun zero => absurd (φ.elem_eq_zero_iff.mp zero) (by decide)
  rwa [gmul_one_left, left_eq_mul₀ nonzero] at square

include φ in
/-- R161: every element is its own negative. -/
theorem charTwo : CharP F 2 := by
  refine CharTwo.of_one_ne_zero_of_two_eq_zero one_ne_zero ?_
  rw [← one_add_one_eq_two, ← φ.elem_one, ← φ.elem_gadd, gadd_self, φ.elem_zero]

theorem elem_gexp (e : Nat) : φ.elem (gexp poly e) = φ.elem 2 ^ e := by
  induction e with
  | zero => exact φ.elem_one.trans (pow_zero _).symm
  | succ e ih => rw [gexp, ← gmul_two_left, φ.elem_gmul, ih, pow_succ']

theorem elem_ginv (h : isPrimitive poly = true) {a : Byte} (ha : a ≠ 0) : φ.elem (ginv poly a) = (φ.elem a)⁻¹ :=
  eq_inv_of_mul_eq_one_right (by rw [← φ.elem_gmul, gmul_ginv h ha, φ.elem_one])

theorem elem_gpow (h : isPrimitive poly = true) (e : Int) : φ.elem (gpow poly e) = φ.elem 2 ^ e := by
  have cycle : φ.elem 2 ^ (255 : Int) = 1 := by
    rw [show (255 : Int) = (255 : Nat) from rfl, zpow_natCast, ← φ.elem_gexp, gexp_255 h, φ.elem_one]
  have nonzero : φ.elem 2 ≠ 0 := fun zero => absurd (φ.elem_eq_zero_iff.mp zero) (by decide)
  have rest : ((e % 255).toNat : Int) = e % 255 := Int.toNat_of_nonneg (Int.emod_nonneg e (by decide))
  calc φ.elem (gpow poly e) = φ.elem 2 ^ (e % 255) := by rw [gpow, φ.elem_gexp, ← zpow_natCast, rest]
    _ = φ.elem 2 ^ (e % 255 + 255 * (e / 255)) := by rw [zpow_add₀ nonzero, zpow_mul, cycle, one_zpow, mul_one]
    _ = φ.elem 2 ^ e := by rw [Int.emod_add_mul_ediv]

/-! ### Polynomials (R168) -/

/-- The polynomial with the coefficients of a list, lowest degree first. -/
noncomputable def toPoly (p : List Byte) : F[X] := p.foldr (fun a q => C (φ.elem a) + X * q) 0

@[simp] theorem toPoly_nil : φ.toPoly [] = 0 := rfl

@[simp] theorem toPoly_cons (a : Byte) (p : List Byte) : φ.toPoly (a :: p) = C (φ.elem a) + X * φ.toPoly p := rfl

theorem toPoly_coeff (p : List Byte) (d : Nat) : (φ.toPoly p).coeff d = φ.elem (p.getD d 0) := by
  induction p generalizing d with
  | nil => exact (coeff_zero d).trans φ.elem_zero.symm
  | cons a p ih =>
    cases d with
    | zero => simp
    | succ d => simp [ih]

theorem toPoly_natDegree_le {p : List Byte} {n : Nat} (h : p.length ≤ n + 1) : (φ.toPoly p).natDegree ≤ n := by
  refine natDegree_le_iff_coeff_eq_zero.mpr fun d hd => ?_
  rw [toPoly_coeff, List.getD_eq_default _ _ (by omega), elem_zero]

theorem eval_toPoly (p : List Byte) (v : Byte) : (φ.toPoly p).eval (φ.elem v) = φ.elem (peval poly p v) := by
  induction p with
  | nil => exact eval_zero.trans φ.elem_zero.symm
  | cons a p ih => simp [peval_cons, φ.elem_gadd, φ.elem_gmul, ih]

/-- The value of a word is a sum over its positions. -/
theorem elem_peval {p : List Byte} {n : Nat} (h : p.length = n + 1) (v : Byte) :
    φ.elem (peval poly p v) = ∑ d ∈ Finset.range (n + 1), φ.elem (p.getD d 0) * φ.elem v ^ d := by
  have degree := φ.toPoly_natDegree_le h.le
  simp only [← φ.eval_toPoly, eval_eq_sum_range' (Nat.lt_succ_of_le degree), toPoly_coeff]

theorem toPoly_padd (p q : List Byte) : φ.toPoly (padd p q) = φ.toPoly p + φ.toPoly q := by
  ext d
  simp only [coeff_add, toPoly_coeff, padd_getD, φ.elem_gadd]

theorem toPoly_pscale (k : Byte) (p : List Byte) : φ.toPoly (pscale poly k p) = C (φ.elem k) * φ.toPoly p := by
  ext d
  simp only [coeff_C_mul, toPoly_coeff, pscale_getD, φ.elem_gmul]

theorem toPoly_append (p q : List Byte) : φ.toPoly (p ++ q) = φ.toPoly p + X ^ p.length * φ.toPoly q := by
  induction p with
  | nil => simp
  | cons a p ih =>
    rw [List.cons_append, toPoly_cons, ih, toPoly_cons, List.length_cons]
    ring

theorem toPoly_replicate_zero (m : Nat) : φ.toPoly (List.replicate m 0) = 0 := by
  induction m with
  | zero => rfl
  | succ m ih => rw [List.replicate_succ, toPoly_cons, ih, elem_zero, map_zero, mul_zero, add_zero]

theorem toPoly_pshift (m : Nat) (p : List Byte) : φ.toPoly (pshift m p) = X ^ m * φ.toPoly p := by
  rw [pshift, toPoly_append, toPoly_replicate_zero, List.length_replicate, zero_add]

theorem toPoly_pmul (p q : List Byte) : φ.toPoly (pmul poly p q) = φ.toPoly p * φ.toPoly q := by
  induction p with
  | nil => simp [pmul]
  | cons a p ih =>
    rw [pmul, toPoly_padd, toPoly_pscale, toPoly_cons, ih, toPoly_cons, elem_zero, map_zero]
    ring

theorem pderiv_getD (p : List Byte) (d : Nat) : (pderiv p).getD d 0 = if d % 2 = 0 then p.getD (d + 1) 0 else 0 := by
  rw [pderiv, List.getD_eq_getElem?_getD, List.getElem?_map]
  rcases Nat.lt_or_ge d (p.length - 1) with inside | outside
  · rw [List.getElem?_range inside]
    rfl
  · rw [List.getElem?_eq_none (by simpa using outside), List.getD_eq_default p 0 (by omega), ite_self]
    rfl

/-- In the formal derivative the factor `d + 1` is 1 for even `d` and 0 for odd `d`. -/
theorem toPoly_pderiv (p : List Byte) : φ.toPoly (pderiv p) = derivative (φ.toPoly p) := by
  have two := φ.charTwo
  ext d
  have factor : (d : F) + 1 = if d % 2 = 0 then 1 else 0 := by
    rw [← Nat.cast_succ, CharTwo.natCast_eq_ite]
    simp only [Nat.even_add_one, Nat.even_iff, ite_not]
  rw [coeff_derivative, toPoly_coeff, toPoly_coeff, factor, pderiv_getD]
  split
  · exact (mul_one _).symm
  · rw [elem_zero, mul_zero]

theorem toPoly_eq_zero_iff (p : List Byte) : φ.toPoly p = 0 ↔ p.all (· == 0) = true := by
  induction p with
  | nil => simp
  | cons a p ih =>
    rw [List.all_cons, Bool.and_eq_true, beq_iff_eq]
    constructor
    · intro zero
      have first : φ.elem a = 0 := by simpa using congrArg (coeff · 0) zero
      rw [toPoly_cons, first, map_zero, zero_add] at zero
      exact ⟨φ.elem_eq_zero_iff.mp first, ih.mp ((mul_eq_zero.mp zero).resolve_left X_ne_zero)⟩
    · rintro ⟨first, later⟩
      rw [toPoly_cons, ih.mpr later, first, elem_zero, map_zero, mul_zero, add_zero]

theorem natDegree_toPoly (p : List Byte) : (φ.toPoly p).natDegree = pdegree p := by
  induction p with
  | nil => rfl
  | cons a p ih =>
    rw [toPoly_cons, pdegree]
    split
    · rename_i zero
      rw [(φ.toPoly_eq_zero_iff p).mpr zero, mul_zero, add_zero, natDegree_C]
    · rename_i nonzero
      have nonzero := mt (φ.toPoly_eq_zero_iff p).mp nonzero
      rw [natDegree_C_add, natDegree_X_mul nonzero, ih]

end

end SymbolField

end Sys2Proof.Machine
end

section
/-! The code (44_fec.md R184, R187): what the syndromes of a word say about its errors, the distance of two codewords
(R188), and the encoder (R193). -/

namespace Sys2Proof.Machine

open Polynomial

/-! ### Sums of powers -/

/-- If as many sums of powers of different elements vanish as there are elements, every weight is 0: Vandermonde. -/
theorem eq_zero_of_powerSums {F : Type} [Field F] {D : Finset Nat} {x y : Nat → F} (hx : Set.InjOn x D)
    (sums : ∀ k < D.card, ∑ d ∈ D, y d * x d ^ k = 0) {d : Nat} (hd : d ∈ D) : y d = 0 := by
  let e := D.equivFin.symm
  have different : Function.Injective fun i => x (e i) := fun i j same =>
    e.injective (Subtype.ext (hx (e i).2 (e j).2 same))
  have zero := Matrix.eq_zero_of_forall_pow_sum_mul_pow_eq_zero (v := fun i => y (e i)) different fun i => by
    rw [Equiv.sum_comp e fun d : D => y d * x d ^ (i : Nat), Finset.sum_coe_sort D fun d => y d * x d ^ (i : Nat)]
    exact sums i i.isLt
  simpa [e] using congrFun zero (D.equivFin ⟨d, hd⟩)

/-! ### Where two words differ -/

/-- The positions at which two words differ. -/
def errorSet (c c' : List Byte) : Finset Nat := (Finset.range c.length).filter fun d => c.getD d 0 ≠ c'.getD d 0

theorem mem_errorSet {c c' : List Byte} {d : Nat} : d ∈ errorSet c c' ↔ d < c.length ∧ c.getD d 0 ≠ c'.getD d 0 := by
  rw [errorSet, Finset.mem_filter, Finset.mem_range]

theorem symbolErrors_eq_card {c c' : List Byte} (h : c.length = c'.length) :
    symbolErrors c c' = (errorSet c c').card := by
  have pairs : List.zip c c' = (List.range c.length).map fun d => (c.getD d 0, c'.getD d 0) := by
    refine List.ext_getElem (by simp [h]) fun d hd _ => ?_
    simp only [List.length_zip, lt_min_iff] at hd
    simp [hd.1, hd.2]
  rw [symbolErrors, pairs, List.countP_map, errorSet, ← Nat.count_eq_card_filter_range, Nat.count]
  exact List.countP_congr fun d _ => by simp

theorem errorSet_subset {w c c' : List Byte} (h : w.length = c.length) :
    errorSet c c' ⊆ errorSet w c ∪ errorSet w c' := by
  intro d hd
  simp only [Finset.mem_union, mem_errorSet, h] at hd ⊢
  grind

theorem getD_eq_of_not_mem_errorSet {c c' : List Byte} (h : c.length = c'.length) {d : Nat} (hd : d ∉ errorSet c c') :
    c.getD d 0 = c'.getD d 0 := by
  rcases Nat.lt_or_ge d c.length with inside | outside
  · exact not_not.mp fun differ => hd (mem_errorSet.mpr ⟨inside, differ⟩)
  · rw [List.getD_eq_default _ _ outside, List.getD_eq_default _ _ (h ▸ outside)]

theorem eq_of_getD_eq {c c' : List Byte} (h : c.length = c'.length) (same : ∀ d, c.getD d 0 = c'.getD d 0) : c = c' :=
  List.ext_getElem h fun d hd hd' => by
    simpa only [List.getD_eq_getElem _ _ hd, List.getD_eq_getElem _ _ hd'] using same d

section

variable {P : Params} (wf : P.Wf)

include wf

theorem rsN_of_wf : P.rsN = 255 := by
  obtain ⟨length, -⟩ := wf
  exact length

theorem rsK_add_of_wf : P.rsK + 2 * P.rsT = P.rsN := by
  obtain ⟨-, symbols, -⟩ := wf
  exact symbols.symm

end

/-! ### Syndromes and errors -/

namespace SymbolField

section

variable {P : Params} {F : Type} [Field F] (φ : SymbolField P.rsFieldPoly F)

/-- The locator of a position, as a field element. -/
def x (d : Nat) : F := φ.elem (locator P d)

/-- The error of `c` against `c'` at a position. -/
def errorAt (c c' : List Byte) (d : Nat) : F := φ.elem (c.getD d 0) + φ.elem (c'.getD d 0)

/-- The weight of a position in the syndromes: its error times a power of its locator. -/
def weight (c c' : List Byte) (d : Nat) : F := φ.errorAt c c' d * φ.x d ^ P.rsFcr

theorem errorAt_eq_zero_iff {c c' : List Byte} {d : Nat} : φ.errorAt c c' d = 0 ↔ c.getD d 0 = c'.getD d 0 := by
  have two := φ.charTwo
  rw [errorAt, CharTwo.add_eq_zero, φ.elem_injective.eq_iff]

variable (wf : P.Wf)

include wf

theorem x_ne_zero (d : Nat) : φ.x d ≠ 0 := mt φ.elem_eq_zero_iff.mp (locator_ne_zero wf d)

theorem x_injOn : Set.InjOn φ.x (Finset.range 255) := fun _ hd _ hd' same =>
  ((locator_eq_locator_iff wf).mp (φ.elem_injective same)).eq_of_lt_of_lt (Finset.mem_range.mp hd)
    (Finset.mem_range.mp hd')

/-- A power of a root is a power of a locator. -/
theorem pow_elem_root (r d : Nat) : φ.elem (root P r) ^ d = φ.x d ^ (P.rsFcr + r) := by
  have primitive := isPrimitive_of_wf wf
  rw [x, root, locator, gpow_natCast primitive, gpow_natCast primitive, φ.elem_gexp, φ.elem_gexp, ← pow_mul, ← pow_mul]
  ring

theorem weight_eq_zero_iff {c c' : List Byte} {d : Nat} : φ.weight c c' d = 0 ↔ c.getD d 0 = c'.getD d 0 := by
  rw [weight, mul_eq_zero_iff_right (pow_ne_zero _ (φ.x_ne_zero wf d)), errorAt_eq_zero_iff]

/-- The syndromes of a word are sums of powers of the locators of its errors. -/
theorem elem_peval_root {c c' : List Byte} (length : c.length = P.rsN) (codeword : Codeword P c') {r : Nat}
    (hr : r < 2 * P.rsT) :
    φ.elem (peval P.rsFieldPoly c (root P r)) = ∑ d ∈ errorSet c c', φ.weight c c' d * φ.x d ^ r := by
  obtain ⟨length', zero⟩ := codeword
  have two := φ.charTwo
  have n : P.rsN = 254 + 1 := rsN_of_wf wf
  calc φ.elem (peval P.rsFieldPoly c (root P r))
      = φ.elem (peval P.rsFieldPoly c (root P r)) + φ.elem (peval P.rsFieldPoly c' (root P r)) := by
        rw [zero r hr, φ.elem_zero, add_zero]
    _ = ∑ d ∈ Finset.range c.length, φ.weight c c' d * φ.x d ^ r := by
        rw [φ.elem_peval (length.trans n), φ.elem_peval (length'.trans n), ← Finset.sum_add_distrib, length, n]
        refine Finset.sum_congr rfl fun d _ => ?_
        rw [φ.pow_elem_root wf, weight, errorAt]
        ring
    _ = ∑ d ∈ errorSet c c', φ.weight c c' d * φ.x d ^ r := by
        refine (Finset.sum_filter_of_ne fun d _ => mt fun same => ?_).symm
        rw [(φ.weight_eq_zero_iff wf).mpr same, zero_mul]

end

end SymbolField

theorem errorSet_subset_range {P : Params} (wf : P.Wf) {c : List Byte} (length : c.length = P.rsN) (c' : List Byte) :
    errorSet c c' ⊆ Finset.range 255 :=
  length.trans (rsN_of_wf wf) ▸ Finset.filter_subset _ _

/-! ### The distance of two codewords (R188) -/

section

variable {P : Params} (wf : P.Wf) {w c c' : List Byte}

include wf

theorem Codeword.lt_symbolErrors (hc : Codeword P c) (hc' : Codeword P c') (differ : c ≠ c') :
    2 * P.rsT < symbolErrors c c' := by
  obtain ⟨F, field, ⟨φ⟩⟩ := exists_symbolField (isPrimitive_of_wf wf)
  have length := hc.1.trans hc'.1.symm
  rw [symbolErrors_eq_card length]
  by_contra few
  refine differ (eq_of_getD_eq length fun d => ?_)
  by_contra other
  have hd := not_imp_comm.mp (getD_eq_of_not_mem_errorSet length) other
  have sums : ∀ k < (errorSet c c').card, ∑ d ∈ errorSet c c', φ.weight c c' d * φ.x d ^ k = 0 := fun k hk => by
    have inRange : k < 2 * P.rsT := by omega
    rw [← φ.elem_peval_root wf hc.1 hc' inRange, hc.2 k inRange, φ.elem_zero]
  have zero := eq_zero_of_powerSums ((φ.x_injOn wf).mono (errorSet_subset_range wf hc.1 c')) sums hd
  exact other ((φ.weight_eq_zero_iff wf).mp zero)

theorem Codeword.eq_of_near (hw : w.length = P.rsN) (hc : Codeword P c) (hc' : Codeword P c')
    (near : symbolErrors w c ≤ P.rsT) (near' : symbolErrors w c' ≤ P.rsT) : c = c' := by
  by_contra differ
  have far := hc.lt_symbolErrors wf hc' differ
  have triangle : (errorSet c c').card ≤ (errorSet w c).card + (errorSet w c').card :=
    (Finset.card_le_card (errorSet_subset (hw.trans hc.1.symm))).trans (Finset.card_union_le _ _)
  rw [symbolErrors_eq_card (hc.1.trans hc'.1.symm)] at far
  rw [symbolErrors_eq_card (hw.trans hc.1.symm)] at near
  rw [symbolErrors_eq_card (hw.trans hc'.1.symm)] at near'
  omega

end

/-- The syndromes of a word vanish exactly if it is a codeword. -/
theorem syndromes_all_zero_iff {P : Params} {c : List Byte} (length : c.length = P.rsN) :
    (syndromes P c).all (· == 0) = true ↔ Codeword P c := by
  simp [syndromes, Params.parPerCw, Codeword, length]

theorem rsDecode_codeword {P : Params} {c : List Byte} (hc : Codeword P c) : rsDecode P c = some c :=
  if_pos ((syndromes_all_zero_iff hc.1).mpr hc)

/-- Settles O43: fewer errors than syndromes cannot hide, by Vandermonde; the rest is the triangle inequality. -/
theorem codewordsFarApart : Obligations.CodewordsFarApart := fun P =>
  ⟨fun _ _ hc hc' differ => hc.lt_symbolErrors P.property hc' differ,
    fun _ _ _ hw hc hc' near near' => hc.eq_of_near P.property hw hc' near near',
    fun _ => rsDecode_codeword⟩

/-! ### The encoder (R193) -/

section

variable {P : Params} {g rem : List Byte} (hg : IsMonic g P.parPerCw) (pos : 0 < P.parPerCw)
  (hrem : rem.length = P.parPerCw)

include hg pos hrem

/-- In one step of the division the coefficient taken in is what stands above the new remainder. -/
theorem divideStep_append (a : Byte) :
    divideStep P g rem a ++ [a] =
      padd (0 :: rem) (pscale P.rsFieldPoly (gadd a (rem.getD (P.parPerCw - 1) 0)) g) := by
  obtain ⟨length, leading⟩ := hg
  rw [divideStep]
  set q := gadd a (rem.getD (P.parPerCw - 1) 0) with hq
  set full := padd (0 :: rem) (pscale P.rsFieldPoly q g) with hfull
  have fullLength : full.length = P.parPerCw + 1 := by simp [hfull, length, hrem]
  have top : full.getD P.parPerCw 0 = a := by
    have below : (0 :: rem).getD P.parPerCw 0 = rem.getD (P.parPerCw - 1) 0 := by
      obtain ⟨n, size⟩ := Nat.exists_eq_add_one.mpr pos
      rw [size]
      rfl
    rw [hfull, padd_getD, pscale_getD, leading, gmul_one_right, below, hq, gadd_comm a, ← gadd_assoc, gadd_self,
      zero_gadd]
  rw [List.getD_eq_getElem _ _ (by omega)] at top
  rw [← top, List.take_append_getElem, List.take_of_length_le (by omega)]

theorem divideStep_length (a : Byte) : (divideStep P g rem a).length = P.parPerCw := by
  have length := congrArg List.length (divideStep_append hg pos hrem a)
  simpa [hg.1, hrem] using length

end

theorem generator_isMonic (P : Params) : IsMonic (generator P) P.parPerCw := generatorUpTo_isMonic P _

theorem remainderByGenerator_nil (P : Params) : remainderByGenerator P [] = List.replicate P.parPerCw 0 := rfl

theorem remainderByGenerator_cons (P : Params) (a : Byte) (msg : List Byte) :
    remainderByGenerator P (a :: msg) = divideStep P (generator P) (remainderByGenerator P msg) a := by
  simp [remainderByGenerator]

section

variable {P : Params} (wf : P.Wf)

include wf

theorem parPerCw_pos : 0 < P.parPerCw := by
  obtain ⟨-, -, corrects, -⟩ := wf
  rw [Params.parPerCw]
  omega

theorem remainderByGenerator_length (msg : List Byte) : (remainderByGenerator P msg).length = P.parPerCw := by
  induction msg with
  | nil => exact List.length_replicate
  | cons a msg ih =>
    rw [remainderByGenerator_cons, divideStep_length (generator_isMonic P) (parPerCw_pos wf) ih]

/-- At a root of the generator the remainder has the value of the message moved up by `2·RS_T` places. -/
theorem eval_remainderByGenerator {F : Type} [Field F] (φ : SymbolField P.rsFieldPoly F) {v : F}
    (root : (φ.toPoly (generator P)).eval v = 0) (msg : List Byte) :
    (φ.toPoly (remainderByGenerator P msg)).eval v = v ^ P.parPerCw * (φ.toPoly msg).eval v := by
  have two := φ.charTwo
  induction msg with
  | nil => rw [remainderByGenerator_nil, φ.toPoly_replicate_zero, φ.toPoly_nil, eval_zero, mul_zero]
  | cons a msg ih =>
    have length := remainderByGenerator_length wf msg
    have monic := generator_isMonic P
    have step := congrArg (fun p => (φ.toPoly p).eval v) (divideStep_append monic (parPerCw_pos wf) length a)
    simp only [φ.toPoly_append, φ.toPoly_padd, φ.toPoly_pscale, φ.toPoly_cons, φ.toPoly_nil, φ.elem_zero,
      divideStep_length monic (parPerCw_pos wf) length, eval_add, eval_mul, eval_pow, eval_X, eval_C, mul_zero,
      add_zero, zero_add, root, ih, CharTwo.add_eq_iff_eq_add] at step
    rw [remainderByGenerator_cons, step, φ.toPoly_cons, eval_add, eval_mul, eval_X, eval_C]
    ring

theorem remainderByGenerator_codeword {msg : List Byte} (length : msg.length = P.rsK) :
    Codeword P (remainderByGenerator P msg ++ msg) := by
  obtain ⟨F, field, ⟨φ⟩⟩ := exists_symbolField (isPrimitive_of_wf wf)
  have two := φ.charTwo
  have parity := remainderByGenerator_length wf msg
  refine ⟨?_, fun r hr => ?_⟩
  · rw [List.length_append, parity, length, Params.parPerCw, Nat.add_comm, rsK_add_of_wf wf]
  · have isRoot : (φ.toPoly (generator P)).eval (φ.elem (root P r)) = 0 := by
      rw [φ.eval_toPoly, generator_eq_generatorUpTo, peval_generatorUpTo_root wf hr, φ.elem_zero]
    rw [← φ.elem_eq_zero_iff, ← φ.eval_toPoly, φ.toPoly_append, eval_add, eval_remainderByGenerator wf φ isRoot, parity,
      eval_mul, eval_pow, eval_X, CharTwo.add_self_eq_zero]

end

/-- Settles O46: at each root the remainder has the value of the message part, so that their sum vanishes. -/
theorem encoderGivesCodewords : Obligations.EncoderGivesCodewords := fun P _ =>
  remainderByGenerator_codeword P.property

end Sys2Proof.Machine
end

section
/-! Berlekamp–Massey, Chien and Forney over any field of characteristic 2 (44_fec.md R192): what the loop keeps, why it
ends with the locator polynomial of the errors, and what that polynomial and the evaluator give. -/

namespace Sys2Proof.Machine

open Polynomial

section

variable {F : Type} [Field F]

/-! ### What the loop of Berlekamp–Massey keeps -/

/-- `lam` is a connection polynomial of length `len` for the first `n` syndromes: every coefficient of `S·lam` from
`len` on and below `n` vanishes. -/
structure Connection (S : F[X]) (n : Nat) (lam : F[X]) (len : Nat) : Prop where
  constant : lam.coeff 0 = 1
  degree : lam.natDegree ≤ len
  zeros : ∀ k, len ≤ k → k < n → (S * lam).coeff k = 0

/-- `old` can correct a connection polynomial of length `len` at the syndrome `n`: the product `S·old` is `b ≠ 0` there
and vanishes on the window before. (Length 0 is that of the start, where the first discrepancy raises the length beyond
`n` and the value there does not matter.) -/
structure Correction (S : F[X]) (n : Nat) (old : F[X]) (len : Nat) (b : F) : Prop where
  constant : old.coeff 0 = 0
  degree : old.natDegree ≤ n + 1 - len
  zeros : ∀ k, n + 1 - len ≤ k → k < n → (S * old).coeff k = 0
  last : 0 < len → (S * old).coeff n = b
  nonzero : b ≠ 0

theorem Connection.init (S : F[X]) : Connection S 0 1 0 :=
  ⟨coeff_one_zero, natDegree_one.le, fun _ _ below => absurd below (Nat.not_lt_zero _)⟩

theorem Correction.init (S : F[X]) : Correction S 0 (X : F[X]) 0 1 :=
  ⟨coeff_X_zero, natDegree_X_le, fun _ _ below => absurd below (Nat.not_lt_zero _),
    fun positive => absurd positive (lt_irrefl 0), one_ne_zero⟩

theorem coeff_mul_X_mul (S p : F[X]) (k : Nat) : (S * (X * p)).coeff (k + 1) = (S * p).coeff k := by
  rw [mul_left_comm, coeff_X_mul]

/-- Where a polynomial vanishes on a window as long as the degree of another, one term of their product stays. -/
theorem coeff_mul_of_window {p q : F[X]} {n l : Nat} (degree : p.natDegree ≤ l)
    (zeros : ∀ k, n - l ≤ k → k < n → q.coeff k = 0) : (q * p).coeff n = q.coeff n * p.coeff 0 := by
  rw [coeff_mul]
  refine Finset.sum_eq_single (n, 0) (fun ij hij other => ?_) fun absent => absurd (by simp) absent
  obtain ⟨i, j⟩ := ij
  have sum : i + j = n := Finset.HasAntidiagonal.mem_antidiagonal.mp hij
  rcases Nat.lt_or_ge l j with high | low
  · rw [coeff_eq_zero_of_natDegree_lt (degree.trans_lt high), mul_zero]
  · have positive : j ≠ 0 := fun zero => other (by rw [← sum, zero, Nat.add_zero])
    rw [zeros i (by omega) (by omega), zero_mul]

section

variable {S lam old : F[X]} {n len : Nat} {b : F}

/-- No discrepancy: the connection polynomial stays. -/
theorem Connection.extend (h : Connection S n lam len) (agrees : (S * lam).coeff n = 0) :
    Connection S (n + 1) lam len :=
  ⟨h.constant, h.degree, fun k low high => (Nat.lt_succ_iff_lt_or_eq.mp high).elim (h.zeros k low) (· ▸ agrees)⟩

theorem Correction.shift (h : Correction S n old len b) (len_le : len ≤ n) : Correction S (n + 1) (X * old) len b where
  constant := coeff_X_mul_zero old
  degree := natDegree_mul_le.trans <| by
    have := h.degree
    rw [natDegree_X]
    omega
  zeros k low high := by
    obtain ⟨k, rfl⟩ := Nat.exists_eq_add_one.mpr (show 0 < k by omega)
    rw [coeff_mul_X_mul]
    exact h.zeros k (by omega) (by omega)
  last positive := (coeff_mul_X_mul S old n).trans (h.last positive)
  nonzero := h.nonzero

/-- A connection polynomial with a discrepancy can correct the later ones. -/
theorem Connection.toCorrection (h : Connection S n lam len) (len_le : len ≤ n) (differs : (S * lam).coeff n ≠ 0) :
    Correction S (n + 1) (X * lam) (n + 1 - len) ((S * lam).coeff n) where
  constant := coeff_X_mul_zero lam
  degree := natDegree_mul_le.trans <| by
    have := h.degree
    rw [natDegree_X]
    omega
  zeros k low high := by
    obtain ⟨k, rfl⟩ := Nat.exists_eq_add_one.mpr (show 0 < k by omega)
    rw [coeff_mul_X_mul]
    exact h.zeros k (by omega) (by omega)
  last _ := coeff_mul_X_mul S lam n
  nonzero := differs

/-- The correction of a discrepancy, and the length it needs. -/
theorem Connection.correct [CharP F 2] (h : Connection S n lam len) (ho : Correction S n old len b) :
    Connection S (n + 1) (lam + C ((S * lam).coeff n * b⁻¹) * old) (max len (n + 1 - len)) where
  constant := by rw [coeff_add, coeff_C_mul, h.constant, ho.constant, mul_zero, add_zero]
  degree := (natDegree_add_le _ _).trans (max_le_max h.degree ((natDegree_C_mul_le _ _).trans ho.degree))
  zeros k low high := by
    rw [mul_add, mul_left_comm, coeff_add, coeff_C_mul]
    rcases Nat.lt_succ_iff_lt_or_eq.mp high with before | rfl
    · rw [h.zeros k (by omega) before, ho.zeros k (by omega) before, mul_zero, add_zero]
    · rw [ho.last (by omega), inv_mul_cancel_right₀ ho.nonzero, CharTwo.add_self_eq_zero]

/-- Massey's bound: after a discrepancy, every connection polynomial for more syndromes is as long as the corrected one:
both ways to read the coefficient `n` of `S·lam·sigma` would give the discrepancy and 0. -/
theorem Connection.length_le {sigma : F[X]} {m l : Nat} (h : Connection S n lam len) (hs : Connection S m sigma l)
    (more : n < m) (differs : (S * lam).coeff n ≠ 0) : n + 1 - len ≤ l := by
  by_contra short
  have bySigma := coeff_mul_of_window hs.degree fun k low high => h.zeros k (by omega) high
  have byLam := coeff_mul_of_window h.degree fun k low high => hs.zeros k (by omega) (high.trans more)
  rw [hs.constant, mul_one] at bySigma
  rw [hs.zeros n (by omega) more, zero_mul, mul_right_comm] at byLam
  exact differs (bySigma.symm.trans byLam)

end

/-! ### The locator polynomial of the errors -/

/-- The polynomial with constant coefficient 1 whose zeros are the inverses of the locators. -/
noncomputable def locatorPoly (x : Nat → F) (D : Finset Nat) : F[X] := ∏ d ∈ D, (1 - C (x d) * X)

section

variable {x y : Nat → F} {D : Finset Nat} (nonzero : ∀ d, x d ≠ 0)

theorem locatorPoly_coeff_zero : (locatorPoly x D).coeff 0 = 1 := by
  simp [locatorPoly, coeff_zero_eq_eval_zero, eval_prod]

theorem eval_inv_factor (d e : Nat) : (1 - C (x e) * X).eval (x d)⁻¹ = 1 - x e * (x d)⁻¹ := by simp

include nonzero

theorem eval_inv_locatorPoly_eq_zero_iff (d : Nat) : (locatorPoly x D).eval (x d)⁻¹ = 0 ↔ ∃ e ∈ D, x e = x d := by
  rw [locatorPoly, eval_prod, Finset.prod_eq_zero_iff]
  simp only [eval_inv_factor, sub_eq_zero, eq_comm (a := (1 : F)), mul_inv_eq_one₀ (nonzero d)]

theorem locatorPoly_natDegree : (locatorPoly x D).natDegree = D.card := by
  have linear : ∀ d, (1 - C (x d) * X).natDegree = 1 := fun d => by
    rw [natDegree_sub_eq_right_of_natDegree_lt] <;> simp [nonzero d]
  have factors : ∀ d ∈ D, (1 - C (x d) * X) ≠ 0 := fun d _ zero => by simpa [zero] using linear d
  rw [locatorPoly, natDegree_prod _ _ factors, Finset.sum_congr rfl fun d _ => linear d, Finset.sum_const, smul_eq_mul,
    mul_one]

/-- The product with a series of power sums, read off by values of the other factor. -/
theorem coeff_mul_powerSums {S p : F[X]} {n k : Nat} (sums : ∀ k < n, S.coeff k = ∑ d ∈ D, y d * x d ^ k)
    (degree : p.natDegree ≤ k) (below : k < n) : (S * p).coeff k = ∑ d ∈ D, y d * x d ^ k * p.eval (x d)⁻¹ := by
  calc (S * p).coeff k = ∑ j ∈ Finset.range (k + 1), p.coeff j * S.coeff (k - j) := by
        rw [mul_comm, coeff_mul, Finset.Nat.sum_antidiagonal_eq_sum_range_succ fun i j => p.coeff i * S.coeff j]
    _ = ∑ j ∈ Finset.range (k + 1), ∑ d ∈ D, y d * x d ^ k * (p.coeff j * (x d)⁻¹ ^ j) := by
        refine Finset.sum_congr rfl fun j hj => ?_
        have low : j ≤ k := Nat.lt_succ_iff.mp (Finset.mem_range.mp hj)
        rw [sums _ (by omega), Finset.mul_sum]
        refine Finset.sum_congr rfl fun d _ => ?_
        rw [pow_sub₀ _ (nonzero d) low, inv_pow]
        ring
    _ = ∑ d ∈ D, y d * x d ^ k * p.eval (x d)⁻¹ := by
        rw [Finset.sum_comm]
        refine Finset.sum_congr rfl fun d _ => ?_
        rw [eval_eq_sum_range' (Nat.lt_succ_of_le degree), Finset.mul_sum]

theorem locatorPoly_connection {S : F[X]} {n : Nat} (sums : ∀ k < n, S.coeff k = ∑ d ∈ D, y d * x d ^ k) :
    Connection S n (locatorPoly x D) D.card where
  constant := locatorPoly_coeff_zero
  degree := (locatorPoly_natDegree nonzero).le
  zeros k low high := by
    rw [coeff_mul_powerSums nonzero sums ((locatorPoly_natDegree nonzero).trans_le low) high]
    refine Finset.sum_eq_zero fun d hd => ?_
    rw [(eval_inv_locatorPoly_eq_zero_iff nonzero d).mpr ⟨d, hd, rfl⟩, mul_zero]

/-- With at most half as many errors as syndromes, a connection polynomial no longer than the number of errors is the
locator polynomial: it vanishes at the inverse of each locator, and is 1 at 0. -/
theorem Connection.eq_locatorPoly {S lam : F[X]} {n len : Nat} (h : Connection S n lam len)
    (sums : ∀ k < n, S.coeff k = ∑ d ∈ D, y d * x d ^ k) (different : Set.InjOn x D) (weights : ∀ d ∈ D, y d ≠ 0)
    (short : len ≤ D.card) (few : 2 * D.card ≤ n) : lam = locatorPoly x D := by
  have roots : ∀ d ∈ D, lam.eval (x d)⁻¹ = 0 := fun d hd => by
    have zero := eq_zero_of_powerSums (y := fun d => y d * x d ^ len * lam.eval (x d)⁻¹) different (fun k hk => ?_) hd
    · exact (mul_eq_zero.mp zero).resolve_left (mul_ne_zero (weights d hd) (pow_ne_zero _ (nonzero d)))
    · have degree := h.degree
      rw [← h.zeros (len + k) (by omega) (by omega), coeff_mul_powerSums nonzero sums (by omega) (by omega)]
      refine Finset.sum_congr rfl fun d _ => ?_
      ring
  classical
  have inverses : (insert 0 (D.image fun d => (x d)⁻¹)).card = D.card + 1 := by
    rw [Finset.card_insert_of_notMem (by simp [nonzero]),
      Finset.card_image_of_injOn fun d hd e he same => different hd he (inv_injective same)]
  refine eq_of_degree_sub_lt_of_eval_finset_eq (insert 0 (D.image fun d => (x d)⁻¹)) ?_ fun v hv => ?_
  · have degree := (natDegree_sub_le lam (locatorPoly x D)).trans
      (max_le (h.degree.trans short) (locatorPoly_natDegree nonzero).le)
    rw [inverses]
    exact degree_le_natDegree.trans_lt (by exact_mod_cast Nat.lt_succ_of_le degree)
  · rcases Finset.mem_insert.mp hv with rfl | image
    · rw [← coeff_zero_eq_eval_zero, ← coeff_zero_eq_eval_zero, h.constant, locatorPoly_coeff_zero]
    · obtain ⟨d, hd, rfl⟩ := Finset.mem_image.mp image
      rw [roots d hd, (eval_inv_locatorPoly_eq_zero_iff nonzero d).mpr ⟨d, hd, rfl⟩]

/-! ### Forney's formula -/

theorem eval_inv_locatorPoly_erase {d : Nat} (different : Set.InjOn x D) (hd : d ∈ D) :
    (locatorPoly x (D.erase d)).eval (x d)⁻¹ ≠ 0 := fun zero => by
  obtain ⟨e, he, same⟩ := (eval_inv_locatorPoly_eq_zero_iff nonzero d).mp zero
  exact Finset.ne_of_mem_erase he (different (Finset.mem_of_mem_erase he) hd same)

omit nonzero in
theorem locatorPoly_eq_mul_erase {d : Nat} (hd : d ∈ D) :
    locatorPoly x D = (1 - C (x d) * X) * locatorPoly x (D.erase d) := (Finset.mul_prod_erase _ _ hd).symm

theorem eval_inv_derivative_locatorPoly {d : Nat} (hd : d ∈ D) :
    (derivative (locatorPoly x D)).eval (x d)⁻¹ = -(x d * (locatorPoly x (D.erase d)).eval (x d)⁻¹) := by
  have cancel := mul_inv_cancel₀ (nonzero d)
  simp [locatorPoly_eq_mul_erase hd, derivative_mul, cancel]

/-- The evaluator polynomial of the errors. -/
noncomputable def evaluatorPoly (x y : Nat → F) (D : Finset Nat) : F[X] := ∑ d ∈ D, C (y d) * locatorPoly x (D.erase d)

theorem eval_inv_evaluatorPoly {d : Nat} (hd : d ∈ D) :
    (evaluatorPoly x y D).eval (x d)⁻¹ = y d * (locatorPoly x (D.erase d)).eval (x d)⁻¹ := by
  rw [evaluatorPoly, eval_finsetSum, Finset.sum_eq_single d _ fun absent => absurd hd absent, eval_mul, eval_C]
  intro e _ other
  rw [eval_mul, (eval_inv_locatorPoly_eq_zero_iff nonzero d).mpr ⟨d, Finset.mem_erase.mpr ⟨other.symm, hd⟩, rfl⟩,
    mul_zero]

theorem evaluatorPoly_coeff_of_le {k : Nat} (high : D.card ≤ k) : (evaluatorPoly x y D).coeff k = 0 := by
  rw [evaluatorPoly, finsetSum_coeff]
  refine Finset.sum_eq_zero fun d hd => ?_
  rw [coeff_C_mul, coeff_eq_zero_of_natDegree_lt, mul_zero]
  rw [locatorPoly_natDegree nonzero, Finset.card_erase_of_mem hd]
  have positive := Finset.card_pos.mpr ⟨d, hd⟩
  omega

omit nonzero in
/-- Below the number of syndromes, the coefficients of `S` times the locator polynomial are those of the evaluator: each
error contributes a geometric series, which its own factor of the locator polynomial closes. -/
theorem coeff_mul_locatorPoly {S : F[X]} {n k : Nat} (degree : S.natDegree < n)
    (sums : ∀ k < n, S.coeff k = ∑ d ∈ D, y d * x d ^ k) (below : k < n) :
    (S * locatorPoly x D).coeff k = (evaluatorPoly x y D).coeff k := by
  have series : S = ∑ d ∈ D, C (y d) * ∑ i ∈ Finset.range n, (C (x d) * X) ^ i := by
    rw [S.as_sum_range_C_mul_X_pow' degree]
    simp only [Finset.mul_sum]
    rw [Finset.sum_comm]
    refine Finset.sum_congr rfl fun i hi => ?_
    rw [sums i (Finset.mem_range.mp hi), map_sum, Finset.sum_mul]
    refine Finset.sum_congr rfl fun d _ => ?_
    simp only [map_mul, map_pow, mul_pow, mul_assoc]
  have closed : S * locatorPoly x D =
      evaluatorPoly x y D - X ^ n * ∑ d ∈ D, C (y d * x d ^ n) * locatorPoly x (D.erase d) := by
    rw [series, evaluatorPoly, Finset.sum_mul, Finset.mul_sum, ← Finset.sum_sub_distrib]
    refine Finset.sum_congr rfl fun d hd => ?_
    have geometric := mul_neg_geom_sum (C (x d) * X) n
    rw [locatorPoly_eq_mul_erase hd]
    rw [mul_assoc, ← mul_assoc (∑ i ∈ Finset.range n, (C (x d) * X) ^ i), mul_comm (∑ i ∈ Finset.range n, _), geometric,
      map_mul, map_pow]
    ring
  rw [closed, coeff_sub, coeff_X_pow_mul', if_neg (by omega), sub_zero]

end

end

end Sys2Proof.Machine
end

section
/-! The decoder of one codeword (44_fec.md R187) computes what the theory of R192 says: each part of the procedure in
terms of polynomials over the symbol field, and from them the two halves of R187. -/

namespace Sys2Proof.Machine

open Polynomial

/-! ### Berlekamp–Massey -/

theorem bmStep_of_zero {P : Params} {S : List Byte} {t : Bm} {n : Nat} (h : discrepancy P S t.lam t.len n = 0) :
    bmStep P S t n = { t with m := t.m + 1 } := if_pos h

theorem bmStep_of_le {P : Params} {S : List Byte} {t : Bm} {n : Nat} (h : discrepancy P S t.lam t.len n ≠ 0)
    (short : 2 * t.len ≤ n) :
    bmStep P S t n =
      { lam := bmCorrect P t (discrepancy P S t.lam t.len n), bold := t.lam, len := n + 1 - t.len, m := 1,
        b := discrepancy P S t.lam t.len n } := by
  rw [bmStep, if_neg h, if_pos short]

theorem bmStep_of_lt {P : Params} {S : List Byte} {t : Bm} {n : Nat} (h : discrepancy P S t.lam t.len n ≠ 0)
    (long : n < 2 * t.len) :
    bmStep P S t n = { t with lam := bmCorrect P t (discrepancy P S t.lam t.len n), m := t.m + 1 } := by
  rw [bmStep, if_neg h, if_neg (Nat.not_le.mpr long)]

/-- The state of Berlekamp–Massey after the first `n` iterations. -/
def bmUpTo (P : Params) (S : List Byte) (n : Nat) : Bm :=
  (List.range n).foldl (bmStep P S) { lam := [1], bold := [1], len := 0, m := 1, b := 1 }

theorem berlekampMassey_eq_bmUpTo (P : Params) (S : List Byte) : berlekampMassey P S = bmUpTo P S P.parPerCw := rfl

theorem bmUpTo_succ (P : Params) (S : List Byte) (n : Nat) : bmUpTo P S (n + 1) = bmStep P S (bmUpTo P S n) n := by
  simp [bmUpTo, List.range_succ]

namespace SymbolField

section

variable {P : Params} {F : Type} [Field F] (φ : SymbolField P.rsFieldPoly F)

theorem elem_foldl_gadd (f : Nat → Byte) (a : Byte) (n : Nat) :
    φ.elem ((List.range n).foldl (fun acc i => gadd acc (f i)) a) = φ.elem a + ∑ i ∈ Finset.range n, φ.elem (f i) := by
  induction n with
  | zero => simp
  | succ n ih =>
    rw [List.range_succ, List.foldl_append, List.foldl_cons, List.foldl_nil, φ.elem_gadd, ih, Finset.sum_range_succ,
      add_assoc]

/-- The discrepancy is the next coefficient of the product of the syndromes and the connection polynomial. -/
theorem elem_discrepancy {S lam : List Byte} {len n : Nat} (h : Connection (φ.toPoly S) n (φ.toPoly lam) len)
    (len_le : len ≤ n) : φ.elem (discrepancy P S lam len n) = (φ.toPoly S * φ.toPoly lam).coeff n := by
  have terms : (φ.toPoly S * φ.toPoly lam).coeff n =
      ∑ i ∈ Finset.range (len + 1), (φ.toPoly lam).coeff i * (φ.toPoly S).coeff (n - i) := by
    rw [mul_comm, coeff_mul,
      Finset.Nat.sum_antidiagonal_eq_sum_range_succ fun i j => (φ.toPoly lam).coeff i * (φ.toPoly S).coeff j]
    refine (Finset.sum_subset (Finset.range_mono (by omega)) fun i _ high => ?_).symm
    rw [coeff_eq_zero_of_natDegree_lt (h.degree.trans_lt (by simpa [Nat.lt_succ_iff] using high)), zero_mul]
  rw [terms, Finset.sum_range_succ', h.constant, one_mul, discrepancy, φ.elem_foldl_gadd, add_comm]
  simp only [φ.elem_gmul, φ.toPoly_coeff, Nat.sub_zero]

theorem toPoly_bmCorrect (h : isPrimitive P.rsFieldPoly = true) {t : Bm} (hb : t.b ≠ 0) (delta : Byte) :
    φ.toPoly (bmCorrect P t delta) =
      φ.toPoly t.lam + C (φ.elem delta * (φ.elem t.b)⁻¹) * (X ^ t.m * φ.toPoly t.bold) := by
  rw [bmCorrect, φ.toPoly_padd, φ.toPoly_pshift, φ.toPoly_pscale, φ.elem_gmul, φ.elem_ginv h hb]
  ring

/-- What Berlekamp–Massey keeps, before it takes in the syndrome `n`. -/
structure BmInv (S : List Byte) (n : Nat) (t : Bm) : Prop where
  len_le : t.len ≤ n
  connection : Connection (φ.toPoly S) n (φ.toPoly t.lam) t.len
  correction : Correction (φ.toPoly S) n (X ^ t.m * φ.toPoly t.bold) t.len (φ.elem t.b)

variable {φ} {S : List Byte} {n : Nat} {t : Bm}

theorem BmInv.elem_discrepancy (h : φ.BmInv S n t) :
    φ.elem (discrepancy P S t.lam t.len n) = (φ.toPoly S * φ.toPoly t.lam).coeff n :=
  φ.elem_discrepancy h.connection h.len_le

theorem BmInv.step (h : φ.BmInv S n t) (primitive : isPrimitive P.rsFieldPoly = true) :
    φ.BmInv S (n + 1) (bmStep P S t n) := by
  have two := φ.charTwo
  have len_le := h.len_le
  have value := h.elem_discrepancy
  have shifted := h.correction.shift len_le
  rw [← mul_assoc, ← pow_succ'] at shifted
  by_cases zero : discrepancy P S t.lam t.len n = 0
  · rw [bmStep_of_zero zero]
    rw [zero, φ.elem_zero] at value
    exact ⟨len_le.trans (Nat.le_succ n), h.connection.extend value.symm, shifted⟩
  · have corrected := h.connection.correct h.correction
    rw [← value, ← φ.toPoly_bmCorrect primitive (mt φ.elem_eq_zero_iff.mpr h.correction.nonzero)] at corrected
    rcases Nat.lt_or_ge n (2 * t.len) with long | short
    · rw [bmStep_of_lt zero long]
      rw [max_eq_left (by omega)] at corrected
      exact ⟨len_le.trans (Nat.le_succ n), corrected, shifted⟩
    · rw [bmStep_of_le zero short]
      rw [max_eq_right (by omega)] at corrected
      have differs := value ▸ mt φ.elem_eq_zero_iff.mp zero
      have spare := h.connection.toCorrection len_le differs
      rw [← pow_one X, ← value] at spare
      exact ⟨Nat.sub_le _ _, corrected, spare⟩

/-- The length never exceeds that of a connection polynomial for all syndromes. -/
theorem BmInv.step_len_le (h : φ.BmInv S n t) {sigma : F[X]} {N l : Nat} (hs : Connection (φ.toPoly S) N sigma l)
    (below : n < N) (len_le : t.len ≤ l) : (bmStep P S t n).len ≤ l := by
  by_cases zero : discrepancy P S t.lam t.len n = 0
  · rwa [bmStep_of_zero zero]
  · rcases Nat.lt_or_ge n (2 * t.len) with long | short
    · rwa [bmStep_of_lt zero long]
    · rw [bmStep_of_le zero short]
      exact h.connection.length_le hs below (h.elem_discrepancy ▸ mt φ.elem_eq_zero_iff.mp zero)

variable (φ) in
theorem bmUpTo_spec (primitive : isPrimitive P.rsFieldPoly = true) (S : List Byte) {sigma : F[X]} {N l : Nat}
    (hs : Connection (φ.toPoly S) N sigma l) {n : Nat} (hn : n ≤ N) :
    φ.BmInv S n (bmUpTo P S n) ∧ (bmUpTo P S n).len ≤ l := by
  induction n with
  | zero =>
    have one : φ.toPoly [1] = 1 := by rw [toPoly_cons, toPoly_nil, φ.elem_one, map_one, mul_zero, add_zero]
    have start := Correction.init (φ.toPoly S)
    rw [← φ.elem_one, ← mul_one X, ← pow_one X, ← one] at start
    exact ⟨⟨le_rfl, one ▸ Connection.init _, start⟩, Nat.zero_le l⟩
  | succ n ih =>
    obtain ⟨inv, len_le⟩ := ih (by omega)
    rw [bmUpTo_succ]
    exact ⟨inv.step primitive, inv.step_len_le hs (by omega) len_le⟩

end

/-! ### What a word with at most `RS_T` errors gives -/

/-- The locator polynomial of the errors of a word. -/
noncomputable def errorPoly {P : Params} {F : Type} [Field F] (φ : SymbolField P.rsFieldPoly F) (c c' : List Byte) :
    F[X] := locatorPoly φ.x (errorSet c c')

section

variable {P : Params} (wf : P.Wf) {F : Type} [Field F] (φ : SymbolField P.rsFieldPoly F) {c c' : List Byte}
  (length : c.length = P.rsN) (codeword : Codeword P c') (near : symbolErrors c c' ≤ P.rsT)

theorem natDegree_toPoly_syndromes_lt (pos : 0 < P.parPerCw) : (φ.toPoly (syndromes P c)).natDegree < P.parPerCw :=
  Nat.lt_of_le_pred pos (φ.toPoly_natDegree_le (by simp [syndromes, Nat.sub_add_cancel pos]))

include length codeword near in
theorem card_errorSet_le : (errorSet c c').card ≤ P.rsT :=
  symbolErrors_eq_card (length.trans codeword.1.symm) ▸ near

include wf

theorem elem_ginv_locator (d : Nat) : φ.elem (ginv P.rsFieldPoly (locator P d)) = (φ.x d)⁻¹ :=
  φ.elem_ginv (isPrimitive_of_wf wf) (locator_ne_zero wf d)

include length

theorem x_injOn_errorSet : Set.InjOn φ.x (errorSet c c') := (φ.x_injOn wf).mono (errorSet_subset_range wf length c')

theorem eval_inv_errorPoly_eq_zero_iff {d : Nat} (hd : d < P.rsN) :
    (φ.errorPoly c c').eval (φ.x d)⁻¹ = 0 ↔ d ∈ errorSet c c' := by
  rw [errorPoly, eval_inv_locatorPoly_eq_zero_iff (φ.x_ne_zero wf)]
  constructor
  · rintro ⟨e, he, same⟩
    have inRange : d ∈ Finset.range 255 := Finset.mem_range.mpr (rsN_of_wf wf ▸ hd)
    exact φ.x_injOn wf (errorSet_subset_range wf length c' he) inRange same ▸ he
  · exact fun member => ⟨d, member, rfl⟩

/-- Chien's search finds the positions in error. -/
theorem mem_errorPositions_iff {lam : List Byte} (hlam : φ.toPoly lam = φ.errorPoly c c') {d : Nat} :
    d ∈ errorPositions P lam ↔ d ∈ errorSet c c' := by
  rw [errorPositions, List.mem_filter, List.mem_range, beq_iff_eq, ← φ.elem_eq_zero_iff, ← φ.eval_toPoly,
    φ.elem_ginv_locator wf, hlam]
  constructor
  · exact fun ⟨below, zero⟩ => (φ.eval_inv_errorPoly_eq_zero_iff wf length below).mp zero
  · intro member
    have below : d < P.rsN := length ▸ (mem_errorSet.mp member).1
    exact ⟨below, (φ.eval_inv_errorPoly_eq_zero_iff wf length below).mpr member⟩

/-- Forney's formula gives the error at each position in error. -/
theorem errorValue_eq {omega dlam : List Byte}
    (homega : φ.toPoly omega = evaluatorPoly φ.x (φ.weight c c') (errorSet c c'))
    (hdlam : φ.toPoly dlam = derivative (φ.errorPoly c c')) {d : Nat} (hd : d ∈ errorSet c c') :
    errorValue P omega dlam d = some (gadd (c.getD d 0) (c'.getD d 0)) := by
  have two := φ.charTwo
  have primitive := isPrimitive_of_wf wf
  have nonzero := φ.x_ne_zero wf
  have others := eval_inv_locatorPoly_erase nonzero (φ.x_injOn_errorSet wf length) hd
  have inverse := φ.elem_ginv_locator wf d
  have den : φ.elem (peval P.rsFieldPoly dlam (ginv P.rsFieldPoly (locator P d))) =
      φ.x d * (locatorPoly φ.x ((errorSet c c').erase d)).eval (φ.x d)⁻¹ := by
    rw [← φ.eval_toPoly, inverse, hdlam, errorPoly, eval_inv_derivative_locatorPoly nonzero hd, CharTwo.neg_eq]
  have den_ne : peval P.rsFieldPoly dlam (ginv P.rsFieldPoly (locator P d)) ≠ 0 :=
    mt φ.elem_eq_zero_iff.mpr (den ▸ mul_ne_zero (nonzero d) others)
  have num : φ.elem (peval P.rsFieldPoly omega (ginv P.rsFieldPoly (locator P d))) =
      φ.weight c c' d * (locatorPoly φ.x ((errorSet c c').erase d)).eval (φ.x d)⁻¹ := by
    rw [← φ.eval_toPoly, inverse, homega, eval_inv_evaluatorPoly nonzero hd]
  have power : φ.elem (gpow P.rsFieldPoly ((P.rsSkip * d : Nat) * (1 - (P.rsFcr : Int)))) =
      φ.x d / φ.x d ^ P.rsFcr := by
    have base : φ.elem (gpow P.rsFieldPoly (P.rsSkip * d : Nat)) = φ.x d := rfl
    rw [φ.elem_gpow primitive, zpow_mul, ← φ.elem_gpow primitive, base, zpow_sub₀ (nonzero d), zpow_one, zpow_natCast]
  rw [errorValue, if_neg den_ne]
  refine congrArg some (φ.elem_injective ?_)
  rw [φ.elem_gmul, φ.elem_gmul, φ.elem_ginv primitive den_ne, den, num, power, φ.elem_gadd, ← errorAt, weight,
    mul_inv, mul_mul_mul_comm, mul_inv_cancel₀ others, mul_one]
  have := nonzero d
  field_simp

include codeword

theorem toPoly_syndromes_coeff : ∀ k < P.parPerCw,
    (φ.toPoly (syndromes P c)).coeff k = ∑ d ∈ errorSet c c', φ.weight c c' d * φ.x d ^ k := fun k hk => by
  rw [φ.toPoly_coeff, List.getD_eq_getElem _ _ (by simpa [syndromes] using hk)]
  simp only [syndromes, List.getElem_map, List.getElem_range]
  exact φ.elem_peval_root wf length codeword hk

/-- The evaluator of the procedure is that of the errors. -/
theorem toPoly_errorEvaluator (few : (errorSet c c').card ≤ P.rsT) {lam : List Byte}
    (hlam : φ.toPoly lam = φ.errorPoly c c') :
    φ.toPoly (errorEvaluator P (syndromes P c) lam) = evaluatorPoly φ.x (φ.weight c c') (errorSet c c') := by
  ext k
  rw [φ.toPoly_coeff, errorEvaluator, List.getD_eq_getElem?_getD, List.getElem?_take]
  split
  · rename_i below
    rw [← List.getD_eq_getElem?_getD, ← φ.toPoly_coeff, φ.toPoly_pmul, hlam, errorPoly,
      coeff_mul_locatorPoly (φ.natDegree_toPoly_syndromes_lt (parPerCw_pos wf))
        (φ.toPoly_syndromes_coeff wf length codeword) below]
  · rename_i above
    rw [Params.parPerCw] at above
    exact φ.elem_zero.trans (evaluatorPoly_coeff_of_le (φ.x_ne_zero wf) (by omega)).symm

include near

/-- Berlekamp–Massey finds the locator polynomial of at most `RS_T` errors, and their number. -/
theorem berlekampMassey_spec :
    φ.toPoly (berlekampMassey P (syndromes P c)).lam = φ.errorPoly c c' ∧
      (berlekampMassey P (syndromes P c)).len = (errorSet c c').card := by
  have sums := φ.toPoly_syndromes_coeff wf length codeword
  have nonzero := φ.x_ne_zero wf
  have few := card_errorSet_le length codeword near
  obtain ⟨inv, len_le⟩ := φ.bmUpTo_spec (isPrimitive_of_wf wf) _ (locatorPoly_connection nonzero sums) le_rfl
  rw [← berlekampMassey_eq_bmUpTo] at inv len_le
  have weights : ∀ d ∈ errorSet c c', φ.weight c c' d ≠ 0 := fun d hd =>
    mt (φ.weight_eq_zero_iff wf).mp (mem_errorSet.mp hd).2
  have found := inv.connection.eq_locatorPoly nonzero sums (φ.x_injOn_errorSet wf length) weights len_le
    (by rw [Params.parPerCw]; omega)
  have degree := inv.connection.degree
  rw [found, locatorPoly_natDegree nonzero] at degree
  exact ⟨found, len_le.antisymm degree⟩

end

end SymbolField

/-! ### The corrected word -/

theorem errorPositions_nodup (P : Params) (lam : List Byte) : (errorPositions P lam).Nodup := List.nodup_range.filter _

theorem getD_set_of_ne (c : List Byte) (a : Byte) {d e : Nat} (h : d ≠ e) : (c.set e a).getD d 0 = c.getD d 0 := by
  simp only [List.getD_eq_getElem?_getD, List.getElem?_set_ne h.symm]

/-- The procedure corrects the positions listed and no other. -/
theorem correctAt_spec {P : Params} {omega dlam : List Byte} {E : List Nat} {c c' : List Byte}
    (h : correctAt P omega dlam E c = some c') :
    c'.length = c.length ∧ ∀ d, d ∉ E → c.getD d 0 = c'.getD d 0 := by
  induction E generalizing c with
  | nil =>
    cases h
    exact ⟨rfl, fun _ _ => rfl⟩
  | cons e E ih =>
    rw [correctAt] at h
    split at h
    · obtain ⟨length, kept⟩ := ih h
      refine ⟨length.trans (List.length_set ..), fun d hd => ?_⟩
      obtain ⟨other, later⟩ := List.ne_and_not_mem_of_not_mem_cons hd
      rw [← kept d later, getD_set_of_ne c _ other]
    · cases h

/-- With the right value at each position listed, and no other position in error, the procedure gives the right word. -/
theorem correctAt_eq_some {P : Params} {omega dlam : List Byte} {E : List Nat} {c c' : List Byte}
    (length : c.length = c'.length) (nodup : E.Nodup) (inside : ∀ d ∈ E, d < c.length)
    (values : ∀ d ∈ E, errorValue P omega dlam d = some (gadd (c.getD d 0) (c'.getD d 0)))
    (others : ∀ d, d ∉ E → c.getD d 0 = c'.getD d 0) : correctAt P omega dlam E c = some c' := by
  induction E generalizing c with
  | nil => exact congrArg some (eq_of_getD_eq length fun d => others d List.not_mem_nil)
  | cons e E ih =>
    obtain ⟨fresh, nodup⟩ := List.nodup_cons.mp nodup
    have here : (c.set e (c'.getD e 0)).getD e 0 = c'.getD e 0 := by
      rw [List.getD_eq_getElem _ _ (by simpa using inside e List.mem_cons_self), List.getElem_set_self]
    rw [correctAt, values e List.mem_cons_self]
    simp only [← gadd_assoc, gadd_self, zero_gadd]
    refine ih (by simpa using length) nodup (fun d hd => ?_) (fun d hd => ?_) fun d hd => ?_
    · simpa using inside d (List.mem_cons_of_mem e hd)
    · rw [getD_set_of_ne c _ (ne_of_mem_of_not_mem hd fresh)]
      exact values d (List.mem_cons_of_mem e hd)
    · rcases eq_or_ne d e with rfl | other
      · exact here
      · rw [getD_set_of_ne c _ other]
        exact others d (List.not_mem_cons_of_ne_of_not_mem other hd)

/-! ### The two halves of R187 -/

/-- The decoder answers a word only where its syndromes vanish, and it has changed at most `RS_T` positions. -/
theorem rsDecode_eq_some {P : Params} {c c' : List Byte} (h : rsDecode P c = some c') :
    c'.length = c.length ∧ (syndromes P c').all (· == 0) = true ∧
      ∃ E : List Nat, E.length ≤ P.rsT ∧ ∀ d, d ∉ E → c.getD d 0 = c'.getD d 0 := by
  rw [rsDecode] at h
  split at h
  · obtain rfl := Option.some.inj h
    exact ⟨rfl, ‹_›, [], Nat.zero_le _, fun _ _ => rfl⟩
  · dsimp only at h
    split at h
    · cases h
    · split at h
      · cases h
      · split at h
        · split at h
          · obtain rfl := Option.some.inj h
            rename_i notFailed count _ corrected zero
            obtain ⟨length, kept⟩ := correctAt_spec corrected
            exact ⟨length, zero, _, by omega, kept⟩
          · cases h
        · cases h

/-- The answer where there are errors and each part of the procedure succeeds. -/
theorem rsDecode_of_correctAt {P : Params} {c c' lam : List Byte} (length : c.length = P.rsN) (errors : ¬ Codeword P c)
    (found : (berlekampMassey P (syndromes P c)).lam = lam)
    (degree : (berlekampMassey P (syndromes P c)).len = pdegree lam)
    (few : pdegree lam ≤ P.rsT) (count : (errorPositions P lam).length = pdegree lam)
    (corrected : correctAt P (errorEvaluator P (syndromes P c) lam) (pderiv lam) (errorPositions P lam) c = some c')
    (codeword : Codeword P c') : rsDecode P c = some c' := by
  rw [rsDecode, if_neg (mt (syndromes_all_zero_iff length).mp errors)]
  simp only [found, degree, count, corrected, (syndromes_all_zero_iff codeword.1).mpr codeword, ne_eq, not_true,
    Nat.not_lt.mpr few, or_false, if_false, if_true]

section

variable {P : Params} (wf : P.Wf) {c c' : List Byte} (length : c.length = P.rsN)

include length

theorem rsDecode_sound (h : rsDecode P c = some c') : Codeword P c' ∧ symbolErrors c c' ≤ P.rsT := by
  obtain ⟨length', zero, E, few, kept⟩ := rsDecode_eq_some h
  refine ⟨(syndromes_all_zero_iff (length'.trans length)).mp zero, ?_⟩
  have positions : errorSet c c' ⊆ E.toFinset := fun d hd => by
    rw [List.mem_toFinset]
    exact not_not.mp (mt (kept d) (mem_errorSet.mp hd).2)
  rw [symbolErrors_eq_card length'.symm]
  exact (Finset.card_le_card positions).trans (E.toFinset_card_le.trans few)

include wf

theorem rsDecode_of_near (codeword : Codeword P c') (near : symbolErrors c c' ≤ P.rsT) : rsDecode P c = some c' := by
  obtain ⟨F, field, ⟨φ⟩⟩ := exists_symbolField (isPrimitive_of_wf wf)
  by_cases received : Codeword P c
  · have itself : symbolErrors c c ≤ P.rsT := by
      rw [symbolErrors_eq_card rfl, errorSet]
      simp
    rw [rsDecode_codeword received, received.eq_of_near wf length codeword itself near]
  · obtain ⟨found, len⟩ := φ.berlekampMassey_spec wf length codeword near
    have few := SymbolField.card_errorSet_le length codeword near
    generalize hlam : (berlekampMassey P (syndromes P c)).lam = lam at found
    have degree : pdegree lam = (errorSet c c').card := by
      rw [← φ.natDegree_toPoly, found, SymbolField.errorPoly, locatorPoly_natDegree (φ.x_ne_zero wf)]
    have positions : ∀ d, d ∈ errorPositions P lam ↔ d ∈ errorSet c c' := fun d =>
      φ.mem_errorPositions_iff wf length found
    have count : (errorPositions P lam).length = (errorSet c c').card := by
      rw [← List.toFinset_card_of_nodup (errorPositions_nodup P lam)]
      exact congrArg Finset.card (Finset.ext fun d => List.mem_toFinset.trans (positions d))
    refine rsDecode_of_correctAt length received hlam (len.trans degree.symm) (degree.trans_le few)
      (count.trans degree.symm) ?_ codeword
    refine correctAt_eq_some (length.trans codeword.1.symm) (errorPositions_nodup P lam)
      (fun d hd => (mem_errorSet.mp ((positions d).mp hd)).1) (fun d hd => ?_) fun d hd => ?_
    · refine φ.errorValue_eq wf length (φ.toPoly_errorEvaluator wf length codeword few found) ?_ ((positions d).mp hd)
      rw [φ.toPoly_pderiv, found]
    · exact getD_eq_of_not_mem_errorSet (length.trans codeword.1.symm) (mt (positions d).mpr hd)

theorem rsDecode_eq_some_iff : rsDecode P c = some c' ↔ Codeword P c' ∧ symbolErrors c c' ≤ P.rsT :=
  ⟨rsDecode_sound length, fun ⟨codeword, near⟩ => rsDecode_of_near wf length codeword near⟩

end

/-- Settles O44: the decoder checks its answer, and has changed no more positions than it found in error. -/
theorem decoderIsSound : Obligations.DecoderIsSound := fun _ _ _ => rsDecode_sound

/-- Settles O45: at most `RS_T` errors give Berlekamp–Massey their locator polynomial, whose zeros are their positions
and which gives Forney's formula their values; where there is no near codeword the sound half leaves failure only. -/
theorem decoderFindsNearestCodeword : Obligations.DecoderFindsNearestCodeword := fun P _ length =>
  ⟨fun _ => rsDecode_of_near P.property length, fun none =>
    Option.eq_none_iff_forall_ne_some.mpr fun c' answer => none ⟨c', rsDecode_sound length answer⟩⟩

end Sys2Proof.Machine
end

section
/-! Where the symbols of a block stand in the frame, and which coefficient of its word each of them is (44_fec.md R182
to R185). -/

namespace Sys2Proof.Machine

/-! ### The sizes of the mode (R182, R183) -/

section

variable {P : Params} (wf : P.Wf) (ext : Bool)

include wf

theorem rsDepth_pos : 0 < P.rsDepth := by
  obtain ⟨-, -, -, depth, -⟩ := wf
  exact depth

/-- The protected region ends where the parity begins. -/
theorem rsDepth_mul_msgLen : P.rsDepth * msgLen P ext = parOff P ext := by
  obtain ⟨-, -, -, -, standard, extended, -⟩ := wf
  cases ext with
  | false => exact Nat.mul_div_cancel' standard
  | true => exact Nat.mul_div_cancel' extended

theorem msgLen_le_rsK : msgLen P ext ≤ P.rsK := by
  obtain ⟨-, -, -, -, -, -, standard, extended, -⟩ := wf
  cases ext with
  | false => exact standard
  | true => exact extended

omit wf in
theorem parOff_add_parLen_le : parOff P ext + P.parLen ≤ P.frameLenMax := by
  cases ext with
  | false =>
    have offset : parOff P false = 1 + P.dataLen := rfl
    rw [offset, Params.frameLenMax, Params.frameLenExt]
    omega
  | true => exact le_rfl

theorem messageIndex_lt {i j : Nat} (hj : j < P.rsDepth) (hi : i < msgLen P ext) : P.rsDepth * i + j < parOff P ext :=
  calc P.rsDepth * i + j < P.rsDepth * (i + 1) := by rw [Nat.mul_succ]; omega
    _ ≤ P.rsDepth * msgLen P ext := Nat.mul_le_mul_left _ hi
    _ = parOff P ext := rsDepth_mul_msgLen wf ext

omit wf in
theorem parityIndex_lt {i j : Nat} (hj : j < P.rsDepth) (hi : i < P.parPerCw) :
    parOff P ext + P.parPerCw * j + i < P.frameLenMax :=
  calc parOff P ext + P.parPerCw * j + i < parOff P ext + P.parPerCw * (j + 1) := by rw [Nat.mul_succ]; omega
    _ ≤ parOff P ext + P.parLen := Nat.add_le_add_left (Nat.mul_le_mul_left _ hj) _
    _ ≤ P.frameLenMax := parOff_add_parLen_le ext

end

/-! ### Gathering (R185) -/

section

variable {P : Params} {ext : Bool} {frame : List Byte} {i j : Nat}

theorem gatherMessage_length (wf : P.Wf) : (gatherMessage P ext frame j).length = P.rsK := by
  simp [gatherMessage, msgLen_le_rsK wf ext]

theorem gatherParity_length : (gatherParity P ext frame j).length = P.parPerCw := by simp [gatherParity]

theorem gatherMessage_getElem?_of_lt (hi : i < msgLen P ext) :
    (gatherMessage P ext frame j)[i]? = some (frame.getD (P.rsDepth * i + j) 0) := by
  rw [gatherMessage, List.getElem?_append_left (by simpa using hi)]
  simp [hi]

theorem gatherMessage_getElem?_of_le (low : msgLen P ext ≤ i) (hi : i < P.rsK) :
    (gatherMessage P ext frame j)[i]? = some 0 := by
  rw [gatherMessage, List.getElem?_append_right (by simpa using low), List.getElem?_replicate, if_pos]
  rw [List.length_map, List.length_range]
  omega

theorem gatherParity_getElem? (hi : i < P.parPerCw) :
    (gatherParity P ext frame j)[i]? = some (frame.getD (parOff P ext + P.parPerCw * j + i) 0) := by
  simp [gatherParity, hi]

/-- A block is gathered from its own message symbols and from the bytes from the parity on. -/
theorem gatherBlock_congr {frame' : List Byte}
    (message : ∀ i < msgLen P ext, frame[P.rsDepth * i + j]? = frame'[P.rsDepth * i + j]?)
    (parity : ∀ a, parOff P ext ≤ a → frame[a]? = frame'[a]?) :
    gatherBlock P ext frame j = gatherBlock P ext frame' j := by
  have sameMessage : gatherMessage P ext frame j = gatherMessage P ext frame' j := by
    refine congrArg (· ++ _) (List.map_congr_left fun i hi => ?_)
    rw [List.getD_eq_getElem?_getD, List.getD_eq_getElem?_getD, message i (List.mem_range.mp hi)]
  have sameParity : gatherParity P ext frame j = gatherParity P ext frame' j := by
    refine List.map_congr_left fun i _ => ?_
    rw [List.getD_eq_getElem?_getD, List.getD_eq_getElem?_getD, parity _ (by omega)]
  rw [gatherBlock, gatherBlock, sameMessage, sameParity]

end

/-! ### The coefficients of a block (R184) -/

section

variable {P : Params} {par msg w : List Byte} {i : Nat}

theorem coefficients_ascending (order : P.cwOrder = .ascending) : coefficients P par msg = par ++ msg := by
  simp [coefficients, order]

theorem coefficients_descending (order : P.cwOrder = .descending) :
    coefficients P par msg = par.reverse ++ msg.reverse := by
  simp [coefficients, order]

theorem messageOf_ascending (order : P.cwOrder = .ascending) : messageOf P w = w.drop P.parPerCw := by
  simp [messageOf, order]

theorem messageOf_descending (order : P.cwOrder = .descending) : messageOf P w = (w.drop P.parPerCw).reverse := by
  simp [messageOf, order]

theorem coefficients_length : (coefficients P par msg).length = par.length + msg.length := by
  cases order : P.cwOrder with
  | ascending => simp [coefficients_ascending order]
  | descending => simp [coefficients_descending order]

/-- The message symbols of a word are those it was made of. -/
theorem messageOf_coefficients (length : par.length = P.parPerCw) : messageOf P (coefficients P par msg) = msg := by
  cases order : P.cwOrder with
  | ascending => rw [messageOf_ascending order, coefficients_ascending order, List.drop_left' length]
  | descending =>
    rw [messageOf_descending order, coefficients_descending order, List.drop_left' (List.length_reverse.trans length),
      List.reverse_reverse]

theorem messageOf_length (wf : P.Wf) (length : w.length = P.rsN) : (messageOf P w).length = P.rsK := by
  have sizes := rsK_add_of_wf wf
  cases order : P.cwOrder with
  | ascending =>
    rw [messageOf_ascending order, List.length_drop, Params.parPerCw]
    omega
  | descending =>
    rw [messageOf_descending order, List.length_reverse, List.length_drop, Params.parPerCw]
    omega

theorem coefficients_parity_ascending (order : P.cwOrder = .ascending) (hi : i < par.length) :
    (coefficients P par msg)[i]? = par[i]? := by
  rw [coefficients_ascending order, List.getElem?_append_left hi]

theorem coefficients_message_ascending (order : P.cwOrder = .ascending) :
    (coefficients P par msg)[par.length + i]? = msg[i]? := by
  rw [coefficients_ascending order, List.getElem?_append_right (Nat.le_add_right _ _), Nat.add_sub_cancel_left]

theorem coefficients_parity_descending (order : P.cwOrder = .descending) (hi : i < par.length) :
    (coefficients P par msg)[par.length - 1 - i]? = par[i]? := by
  rw [coefficients_descending order, List.getElem?_append_left (by rw [List.length_reverse]; omega),
    List.getElem?_reverse (by omega)]
  congr 1
  omega

theorem coefficients_message_descending (order : P.cwOrder = .descending) (hi : i < msg.length) :
    (coefficients P par msg)[par.length + msg.length - 1 - i]? = msg[i]? := by
  rw [coefficients_descending order, List.getElem?_append_right (by rw [List.length_reverse]; omega),
    List.length_reverse, List.getElem?_reverse (by omega)]
  congr 1
  omega

theorem messageOf_getElem?_ascending (order : P.cwOrder = .ascending) : (messageOf P w)[i]? = w[P.parPerCw + i]? := by
  rw [messageOf_ascending order, List.getElem?_drop]

theorem messageOf_getElem?_descending (order : P.cwOrder = .descending) (hi : P.parPerCw + i < w.length) :
    (messageOf P w)[i]? = w[w.length - 1 - i]? := by
  rw [messageOf_descending order, List.getElem?_reverse (by rw [List.length_drop]; omega), List.getElem?_drop,
    List.length_drop]
  congr 1
  omega

end

theorem gatherBlock_length {P : Params} (wf : P.Wf) {ext : Bool} {frame : List Byte} {j : Nat} :
    (gatherBlock P ext frame j).length = P.rsN := by
  rw [gatherBlock, coefficients_length, gatherParity_length, gatherMessage_length wf, ← rsK_add_of_wf wf, Nat.add_comm]
  rfl

theorem getElem?_eq_some_getD {frame : List Byte} {a : Nat} (h : a < frame.length) :
    frame[a]? = some (frame.getD a 0) := by
  rw [List.getD_eq_getElem _ _ h, List.getElem?_eq_getElem h]

/-- Settles O47: the lemmas about gathering and about the order of the coefficients, for a frame of the full length. -/
theorem decoderIndicesInRange : Obligations.DecoderIndicesInRange := by
  intro P ext
  have wf := P.property
  have sizes := rsK_add_of_wf wf
  refine ⟨rfl, rsDepth_mul_msgLen wf ext, msgLen_le_rsK wf ext, fun j hj => ⟨fun i hi => ?_, fun i hi => ⟨?_, ?_⟩⟩,
    fun frame length j hj => ?_,
    fun w length => ⟨messageOf_length wf length, fun order i hi => ?_, fun order i hi => ?_⟩⟩
  · exact messageIndex_lt wf ext hj hi
  · omega
  · exact parityIndex_lt ext hj hi
  · have parLength : (gatherParity P.val ext frame j).length = 2 * P.val.rsT := gatherParity_length
    have msgLength : (gatherMessage P.val ext frame j).length = P.val.rsK := gatherMessage_length wf
    have region := parOff_add_parLen_le (P := P.val) ext
    refine ⟨msgLength, fun i hi => ?_, fun i => gatherMessage_getElem?_of_le, parLength, fun i hi => ?_,
      gatherBlock_length wf, fun order => ⟨fun i hi => ?_, fun i hi => ?_⟩,
      fun order => ⟨fun i hi => ?_, fun i hi => ?_⟩⟩
    · have inside := messageIndex_lt wf ext hj hi
      rw [gatherMessage_getElem?_of_lt hi, getElem?_eq_some_getD (by omega)]
    · rw [gatherParity_getElem? hi, getElem?_eq_some_getD (length ▸ parityIndex_lt ext hj hi)]
      rfl
    · exact coefficients_parity_ascending order (parLength ▸ hi)
    · rw [← parLength]
      exact coefficients_message_ascending order
    · rw [← parLength] at hi ⊢
      exact coefficients_parity_descending order hi
    · have word := coefficients_message_descending (par := gatherParity P.val ext frame j) order (msgLength ▸ hi)
      rwa [parLength, msgLength, Nat.add_comm, sizes] at word
  · exact messageOf_getElem?_ascending order
  · rw [messageOf_getElem?_descending order (by rw [length, Params.parPerCw]; omega), length]

end Sys2Proof.Machine
end

section
/-! The blocks of a frame, one after the other (44_fec.md R186, R190, R191, R195), and `FEC.RUN`. -/

namespace Sys2Proof.Machine

/-! ### One block decoded (R187, R189) -/

theorem drop_all_zero_iff (p : List Byte) (n : Nat) :
    (p.drop n).all (· == 0) = true ↔ ∀ i, n ≤ i → i < p.length → p.getD i 0 = 0 := by
  rw [List.all_eq_true, List.forall_mem_iff_forall_getElem]
  constructor
  · intro zero i low high
    have value := zero (i - n) (by rw [List.length_drop]; omega)
    rw [List.getElem_drop, beq_iff_eq] at value
    rw [List.getD_eq_getElem _ _ high, ← value]
    congr 1
    omega
  · intro zero i hi
    rw [List.length_drop] at hi
    rw [List.getElem_drop, beq_iff_eq, ← List.getD_eq_getElem p 0]
    exact zero (n + i) (by omega) (by omega)

section

variable {P : Params} (wf : P.Wf) {ext : Bool} {frame msg : List Byte} {j : Nat}

include wf

theorem Corrects.length (h : Corrects P ext frame j msg) : msg.length = P.rsK := by
  obtain ⟨c, codeword, -, rfl, -⟩ := h
  exact messageOf_length wf codeword.1

/-- The decoder of a block finds what R187 and R189 ask for. -/
theorem decodeBlock_eq_some_iff : decodeBlock P ext frame j = some msg ↔ Corrects P ext frame j msg := by
  have padding : ∀ c, Codeword P c → (((messageOf P c).drop (msgLen P ext)).all (· == 0) = true ↔
      ∀ i, msgLen P ext ≤ i → i < P.rsK → (messageOf P c).getD i 0 = 0) := fun c codeword => by
    rw [drop_all_zero_iff, messageOf_length wf codeword.1]
  constructor
  · intro h
    rw [decodeBlock] at h
    split at h
    · rename_i c answer
      obtain ⟨codeword, near⟩ := rsDecode_sound (gatherBlock_length wf) answer
      split at h
      · obtain rfl := Option.some.inj h
        exact ⟨c, codeword, near, rfl, (padding c codeword).mp ‹_›⟩
      · cases h
    · cases h
  · rintro ⟨c, codeword, near, rfl, zero⟩
    rw [decodeBlock, rsDecode_of_near wf (gatherBlock_length wf) codeword near]
    exact if_pos ((padding c codeword).mpr zero)

theorem decodeBlock_isNone_iff : (decodeBlock P ext frame j).isNone = true ↔ ¬ ∃ msg, Corrects P ext frame j msg := by
  simp only [← decodeBlock_eq_some_iff wf, Option.isNone_iff_eq_none, Option.eq_none_iff_forall_ne_some, not_exists,
    ne_eq]

end

/-! ### The write-back (R190) -/

/-- The address of a message symbol tells the symbol and the block. -/
theorem eq_mul_add_iff {D i j a : Nat} (hj : j < D) : D * i + j = a ↔ a / D = i ∧ a % D = j := by
  constructor
  · rintro rfl
    rw [Nat.mul_add_div (by omega), Nat.div_eq_of_lt hj, Nat.mul_add_mod, Nat.mod_eq_of_lt hj]
    exact ⟨rfl, rfl⟩
  · rintro ⟨rfl, rfl⟩
    exact Nat.div_add_mod a D

theorem foldl_set_getElem? (D : Nat) {j : Nat} (hj : j < D) (msg frame : List Byte) (n a : Nat) :
    ((List.range n).foldl (fun f i => f.set (D * i + j) (msg.getD i 0)) frame)[a]? =
      if a / D < n ∧ a % D = j then frame[a]?.map fun _ => msg.getD (a / D) 0 else frame[a]? := by
  induction n with
  | zero => simp
  | succ n ih =>
    rw [List.range_succ, List.foldl_append, List.foldl_cons, List.foldl_nil, List.getElem?_set', ih]
    simp only [eq_mul_add_iff hj]
    grind

/-- The write-back of a block changes the block's own message symbols. -/
theorem writeBack_getElem? {P : Params} {ext : Bool} {j : Nat} (hj : j < P.rsDepth) (msg frame : List Byte) (a : Nat) :
    (writeBack P ext j msg frame)[a]? =
      if a / P.rsDepth < msgLen P ext ∧ a % P.rsDepth = j then frame[a]?.map fun _ => msg.getD (a / P.rsDepth) 0
      else frame[a]? :=
  foldl_set_getElem? P.rsDepth hj msg frame _ a

/-! ### The loop over the blocks (R186, R195) -/

/-- The byte at an address once the first `n` blocks have been processed: the decoder's, if it belongs to one of them
that can be corrected when decoded alone in the frame as received, and else the byte received. -/
def decodedByte (P : Params) (ext : Bool) (frame : List Byte) (n a : Nat) : Option Byte :=
  if a / P.rsDepth < msgLen P ext ∧ a % P.rsDepth < n then
    (decodeBlock P ext frame (a % P.rsDepth)).elim frame[a]? fun msg => msg[a / P.rsDepth]?
  else frame[a]?

/-- The frame and the flags after the first `n` blocks. -/
def fecBlocksUpTo (P : Params) (ext : Bool) (frame : List Byte) (n : Nat) : List Byte × List Bool :=
  (List.range n).foldl (fecBlock P ext) (frame, [])

theorem fecBlocks_eq_fecBlocksUpTo (P : Params) (ext : Bool) (frame : List Byte) :
    fecBlocks P ext frame = fecBlocksUpTo P ext frame P.rsDepth := rfl

theorem fecBlocksUpTo_succ (P : Params) (ext : Bool) (frame : List Byte) (n : Nat) :
    fecBlocksUpTo P ext frame (n + 1) = fecBlock P ext (fecBlocksUpTo P ext frame n) n := by
  simp [fecBlocksUpTo, List.range_succ]

section

variable {P : Params} (wf : P.Wf) (ext : Bool) {frame : List Byte} (length : frame.length = P.frameLenMax)

include wf

theorem div_rsDepth_lt_msgLen_iff (a : Nat) : a / P.rsDepth < msgLen P ext ↔ a < parOff P ext := by
  rw [Nat.div_lt_iff_lt_mul (rsDepth_pos wf), Nat.mul_comm, rsDepth_mul_msgLen wf]

theorem decodedByte_of_le (frame : List Byte) (n : Nat) {a : Nat} (h : parOff P ext ≤ a) :
    decodedByte P ext frame n a = frame[a]? := by
  rw [decodedByte, if_neg]
  rw [div_rsDepth_lt_msgLen_iff wf]
  omega

omit wf in
theorem decodedByte_of_mod_le (frame : List Byte) {n a : Nat} (h : n ≤ a % P.rsDepth) :
    decodedByte P ext frame n a = frame[a]? := by
  rw [decodedByte, if_neg]
  omega

include length

/-- Processing one more block, where the earlier ones have left the bytes of the others as received. -/
theorem fecBlock_spec {n : Nat} (hn : n < P.rsDepth) {t : List Byte × List Bool}
    (bytes : ∀ a, t.1[a]? = decodedByte P ext frame n a) :
    (fecBlock P ext t n).2 = t.2 ++ [(decodeBlock P ext frame n).isNone] ∧
      ∀ a, (fecBlock P ext t n).1[a]? = decodedByte P ext frame (n + 1) a := by
  have alone : decodeBlock P ext t.1 n = decodeBlock P ext frame n := by
    have gathered : gatherBlock P ext t.1 n = gatherBlock P ext frame n := by
      refine gatherBlock_congr (fun i _ => ?_) fun a ha => (bytes a).trans (decodedByte_of_le wf ext frame n ha)
      have own : (P.rsDepth * i + n) % P.rsDepth = n := ((eq_mul_add_iff hn).mp rfl).2
      exact (bytes _).trans (decodedByte_of_mod_le ext frame own.ge)
    rw [decodeBlock, decodeBlock, gathered]
  have step : ∀ a, decodedByte P ext frame (n + 1) a =
      if a / P.rsDepth < msgLen P ext ∧ a % P.rsDepth = n then
        (decodeBlock P ext frame n).elim frame[a]? fun msg => msg[a / P.rsDepth]?
      else decodedByte P ext frame n a := fun a => by
    simp only [decodedByte]
    grind
  rw [fecBlock, alone]
  cases outcome : decodeBlock P ext frame n with
  | none =>
    refine ⟨rfl, fun a => ?_⟩
    rw [step, bytes, outcome]
    split
    · rename_i own
      exact decodedByte_of_mod_le ext frame own.2.ge
    · rfl
  | some msg =>
    refine ⟨rfl, fun a => ?_⟩
    rw [step, writeBack_getElem? hn, bytes, outcome]
    split
    · rename_i own
      have inFrame : a < frame.length := by
        have inRegion := (div_rsDepth_lt_msgLen_iff wf ext a).mp own.1
        have region := parOff_add_parLen_le (P := P) ext
        omega
      have inMessage : a / P.rsDepth < msg.length := by
        rw [((decodeBlock_eq_some_iff wf).mp outcome).length wf]
        exact own.1.trans_le (msgLen_le_rsK wf ext)
      rw [decodedByte_of_mod_le ext frame own.2.ge, List.getElem?_eq_getElem inFrame, Option.map_some, Option.elim_some,
        getElem?_eq_some_getD inMessage]
    · rfl

theorem fecBlocksUpTo_spec {n : Nat} (hn : n ≤ P.rsDepth) :
    (fecBlocksUpTo P ext frame n).2 = (List.range n).map (fun j => (decodeBlock P ext frame j).isNone) ∧
      ∀ a, (fecBlocksUpTo P ext frame n).1[a]? = decodedByte P ext frame n a := by
  induction n with
  | zero => exact ⟨rfl, fun a => (decodedByte_of_mod_le ext frame (Nat.zero_le _)).symm⟩
  | succ n ih =>
    obtain ⟨flags, bytes⟩ := ih (by omega)
    obtain ⟨flag, later⟩ := fecBlock_spec wf ext length hn bytes
    rw [fecBlocksUpTo_succ, flag, flags, List.range_succ, List.map_append]
    exact ⟨rfl, later⟩

/-- R195: one flag for each block, that of the block decoded alone in the frame as received. -/
theorem fecBlocks_flags :
    (fecBlocks P ext frame).2 = (List.range P.rsDepth).map fun j => (decodeBlock P ext frame j).isNone :=
  (fecBlocksUpTo_spec wf ext length le_rfl).1

theorem fecBlocks_flag {j : Nat} (hj : j < P.rsDepth) :
    (fecBlocks P ext frame).2[j]? = some (decodeBlock P ext frame j).isNone := by
  rw [fecBlocks_flags wf ext length, List.getElem?_map, List.getElem?_range hj, Option.map_some]

/-- R190, R191: the message symbols of a block, that of the block decoded alone in the frame as received. -/
theorem fecBlocks_message {i j : Nat} (hj : j < P.rsDepth) (hi : i < msgLen P ext) :
    (fecBlocks P ext frame).1[P.rsDepth * i + j]? =
      (decodeBlock P ext frame j).elim frame[P.rsDepth * i + j]? fun msg => msg[i]? := by
  obtain ⟨symbol, block⟩ := (eq_mul_add_iff hj).mp (rfl : P.rsDepth * i + j = _)
  rw [fecBlocks_eq_fecBlocksUpTo, (fecBlocksUpTo_spec wf ext length le_rfl).2, decodedByte, symbol, block,
    if_pos ⟨hi, hj⟩]

/-- No byte from the parity on is written. -/
theorem fecBlocks_getElem?_of_le {a : Nat} (h : parOff P ext ≤ a) : (fecBlocks P ext frame).1[a]? = frame[a]? := by
  rw [fecBlocks_eq_fecBlocksUpTo, (fecBlocksUpTo_spec wf ext length le_rfl).2, decodedByte_of_le wf ext frame _ h]

end

/-- Settles O49: what the loop does to a block is what the block decoded alone gives. -/
theorem blocksAreIndependent : Obligations.BlocksAreIndependent := by
  intro P ext frame length j hj
  refine ⟨fecBlocks_flag P.property ext length hj, fun i hi => ?_⟩
  rw [fecBlocks_message P.property ext length hj hi]
  cases decodeBlock P.val ext frame j <;> rfl

/-! ### `FEC.RUN` (R186) -/

/-- The descrambled frame in the buffer, and what `FEC.RUN` makes of it. -/
theorem exec_fecRun {s : State} {frame : List Byte} (running : s.running .fec = true)
    (descrambled : s.fbState = .descrambled) (bytes : s.fb.bytes s.P.frameLenMax = some frame) :
    exec .fecRun s = .next { s with
      fb := Memory.ofBytes 0 (fecBlocks s.P (frameMode s.P frame) frame).1
      fecMode := frameMode s.P frame
      fecInvalid := (fecBlocks s.P (frameMode s.P frame) frame).2
      fbState := .corrected } :=
  (Effect.fecRun running descrambled bytes).exec_eq rfl

/-- Settles O50: each block has the outcome of the block decoded alone, and the decoder of a block finds what R187 and
R189 ask for. -/
theorem fecRunDecodesEveryBlock : Obligations.FecRunDecodesEveryBlock := by
  intro s t frame bytes h
  obtain ⟨-, -, frame', bytes', rfl⟩ := execFecRun_next h
  obtain rfl := Memory.bytes_unique bytes bytes'
  have wf : s.P.Wf := s.params.property
  have length := Memory.length_of_bytes bytes
  refine ⟨fun a ha => ?_, fun j hj => ?_⟩
  · rw [Memory.read_ofBytes_zero, Memory.read_of_bytes bytes]
    exact fecBlocks_getElem?_of_le wf _ length ha
  · have flag := fecBlocks_flag wf (frameMode s.P frame) length hj
    have message := fun i => fecBlocks_message wf (frameMode s.P frame) length (i := i) hj
    simp only [Memory.read_ofBytes_zero, Memory.read_of_bytes bytes, flag, Option.some.injEq]
    refine ⟨decodeBlock_isNone_iff wf, fun msg corrects => ?_, fun none => ?_⟩
    · have outcome := (decodeBlock_eq_some_iff wf).mpr corrects
      rw [outcome] at message ⊢
      exact ⟨rfl, message⟩
    · have outcome := Option.isNone_iff_eq_none.mp ((decodeBlock_isNone_iff wf).mpr none)
      rw [outcome] at message
      exact message

/-- A block whose plain form is a codeword zero in the padding, as gathering makes it, is corrected to it. -/
theorem decodeBlock_of_near {P : Params} (wf : P.Wf) {ext : Bool} {plain frame : List Byte} {j : Nat}
    (codeword : Codeword P (gatherBlock P ext plain j))
    (near : symbolErrors (gatherBlock P ext frame j) (gatherBlock P ext plain j) ≤ P.rsT) :
    decodeBlock P ext frame j = some (gatherMessage P ext plain j) := by
  refine (decodeBlock_eq_some_iff wf).mpr ⟨_, codeword, near, (messageOf_coefficients gatherParity_length).symm,
    fun i low high => ?_⟩
  rw [List.getD_eq_getElem?_getD, gatherMessage_getElem?_of_le low high]
  rfl

/-- Settles O51: every block is corrected to its plain form, and the blocks make up the protected region. -/
theorem fecRunRestoresPlainFrame : Obligations.FecRunRestoresPlainFrame := by
  intro s plain frame running descrambled bytes plainLength mode blocks
  have wf : s.P.Wf := s.params.property
  have length := Memory.length_of_bytes bytes
  have run := exec_fecRun running descrambled bytes
  rw [mode] at run
  generalize frameMode s.P plain = ext at blocks run
  have outcome : ∀ j < s.P.rsDepth, decodeBlock s.P ext frame j = some (gatherMessage s.P ext plain j) := fun j hj =>
    decodeBlock_of_near wf (blocks j hj).1 (blocks j hj).2
  refine ⟨_, run, ?_, rfl, fun a ha => ?_, fun a ha => ?_⟩
  · refine (fecBlocks_flags wf ext length).trans (List.eq_replicate_iff.mpr ⟨by simp, fun flag hflag => ?_⟩)
    obtain ⟨j, hj, rfl⟩ := List.mem_map.mp hflag
    rw [outcome j (List.mem_range.mp hj), Option.isNone_some]
  · have symbol := (div_rsDepth_lt_msgLen_iff wf ext a).mpr ha
    have block := Nat.mod_lt a (rsDepth_pos wf)
    have restored := fecBlocks_message wf ext length block symbol
    have region := parOff_add_parLen_le (P := s.P) ext
    rw [outcome _ block, Option.elim_some, gatherMessage_getElem?_of_lt symbol, Nat.div_add_mod] at restored
    rw [Memory.read_ofBytes_zero, restored, getElem?_eq_some_getD (by omega)]
  · rw [Memory.read_ofBytes_zero, Memory.read_of_bytes bytes]
    exact fecBlocks_getElem?_of_le wf ext length ha

theorem frameLenMax_pos (P : Params) : 0 < P.frameLenMax := by
  rw [Params.frameLenMax, Params.frameLenExt]
  omega

/-- Settles O48: the loop over the blocks keeps the length of the frame and gives one flag for each block. -/
theorem fecRunCompletes : Obligations.FecRunCompletes := by
  intro s running descrambled written
  have wf : s.P.Wf := s.params.property
  have bytes := written.bytes
  generalize s.fb.map Prod.snd = frame at bytes
  have length := Memory.length_of_bytes bytes
  obtain ⟨kept, flags⟩ := fecBlocks_length s.P (frameMode s.P frame) frame
  have first := getElem?_eq_some_getD (length ▸ frameLenMax_pos s.P : 0 < frame.length)
  refine ⟨_, _, frame.getD 0 0, (Memory.read_of_bytes bytes 0).trans first, exec_fecRun running descrambled bytes,
    Memory.ofBytes_wf 0 _, flags, fun a ha => ?_, fun a ha => ?_⟩
  · rw [Memory.read_ofBytes_zero, List.getElem?_eq_getElem (by omega)]
    exact ⟨_, rfl⟩
  · have after : parOff s.P (frameMode s.P frame) ≤ a := rsDepth_mul_msgLen wf (frameMode s.P frame) ▸ ha
    rw [Memory.read_ofBytes_zero, Memory.read_of_bytes bytes, fecBlocks_getElem?_of_le wf _ length after]

end Sys2Proof.Machine
end

section
/-! The `require` lines of every operation (45_control.md R211), and the operations of sections 2 to 4: the run bits,
the host's ends of the front path and of the back path. -/

namespace Sys2Proof.Machine

/-! ### Where an operation has a step (R211) -/

section

variable {s : State} {i : Instr}

theorem State.trReady_eq_true_iff : s.trReady = true ↔
    ∃ cfg freq, s.tr = .configured cfg freq ∧ s.chSym.length + maxPush cfg.l ≤ s.P.depthSym := by
  unfold State.trReady
  cases s.tr <;> simp [hasRoom_iff]

theorem enabled_trStep_iff : enabled .trStep s = true ↔
    s.running .tr = true ∧ (∃ cfg freq, s.tr = .configured cfg freq ∧
      s.chSym.length + maxPush cfg.l ≤ s.P.depthSym) ∧ ∃ x rest, s.chIn = x :: rest := by
  simp only [enabled, Bool.and_eq_true, Bool.not_eq_true', List.isEmpty_eq_false_iff, List.ne_nil_iff_exists_cons,
    State.trReady_eq_true_iff, and_assoc]

/-- Where the `require` lines of an operation hold, it has an effect. -/
theorem exists_effect_of_enabled (wf : i.wellFormed s.P = true) (written : s.fbState ≠ .empty → s.FrameWritten)
    (h : enabled i s = true) : ∃ t, Effect s i t := by
  cases i with
  | reset => exact ⟨_, .reset⟩
  | stageStart st => exact ⟨_, .stageStart st⟩
  | stageStop st => exact ⟨_, .stageStop st⟩
  | stRead => exact ⟨_, .stRead⟩
  | trCfg r d w v o =>
    have stopped : s.running .tr = false := by simpa [enabled] using h
    cases ok : trCfgOk (ratioValue r) (ratioValue d) (ratioValue w) (ratioValue v) (ratioValue o) with
    | true => exact ⟨_, .trCfgAccepted stopped ok⟩
    | false => exact ⟨_, .trCfgRejected stopped ok⟩
  | inSample v => exact ⟨_, .inSample v ((hasRoom_iff _ _ _).mp h)⟩
  | trStep =>
    obtain ⟨running, ⟨cfg, freq, tr, room⟩, x, rest, chIn⟩ := enabled_trStep_iff.mp h
    exact ⟨_, .trStep tr chIn running room⟩
  | symPush v =>
    simp only [enabled, Bool.and_eq_true, Bool.not_eq_true', hasRoom_iff] at h
    obtain ⟨stopped, room⟩ := h
    exact ⟨_, .symPush v stopped room⟩
  | slStep =>
    obtain ⟨t, step⟩ := enabled_slStep_iff.mp h
    exact ⟨t, exec_effect step⟩
  | bytePop =>
    have ne : s.chByte ≠ [] := by simpa [enabled] using h
    obtain ⟨b, rest, chByte⟩ := List.exists_cons_of_ne_nil ne
    exact ⟨_, .bytePop chByte⟩
  | frLoad blk => exact ⟨_, .frLoad (beq_iff_eq.mp wf) (beq_iff_eq.mp h)⟩
  | dsRun =>
    obtain ⟨running, loaded⟩ := Bool.and_eq_true_iff.mp h
    have loaded : s.fbState = .loaded := beq_iff_eq.mp loaded
    exact ⟨_, .dsRun running loaded (written (by simp [loaded])).bytes⟩
  | fecRun =>
    obtain ⟨running, descrambled⟩ := Bool.and_eq_true_iff.mp h
    have descrambled : s.fbState = .descrambled := beq_iff_eq.mp descrambled
    exact ⟨_, .fecRun running descrambled (written (by simp [descrambled])).bytes⟩
  | frRead =>
    have corrected : s.fbState = .corrected := beq_iff_eq.mp h
    exact ⟨_, .frRead corrected (written (by simp [corrected])).bytes⟩

theorem require_of_eq_false {m : String} {c : Bool} (h : c = false) (k : Out) :
    require m c k = .refused (.notEnabled m) :=
  h ▸ require_false m k

theorem execTrStep_of_not_enabled (h : enabled .trStep s = false) :
    execTrStep s = .refused (.notEnabled "TR.STEP") := by
  unfold execTrStep
  split
  next cfg freq x rest tr chIn =>
    refine require_of_eq_false ?_ _
    simpa [enabled, State.trReady, tr, chIn] using h
  next => rfl

theorem execSlStep_of_not_enabled (h : enabled .slStep s = false) :
    execSlStep s = .refused (.notEnabled "SL.STEP") := by
  unfold execSlStep
  split
  next v rest chSym =>
    refine require_of_eq_false ?_ _
    simpa [enabled, chSym] using h
  next => rfl

theorem execBytePop_of_not_enabled (h : enabled .bytePop s = false) :
    execBytePop s = .refused (.notEnabled "BYTE.POP") := by
  have empty : s.chByte = [] := by simpa [enabled] using h
  rw [execBytePop, empty]

/-- Where a `require` line of an operation fails, the operation is refused by its mnemonic. -/
theorem exec_of_not_enabled (wf : i.wellFormed s.P = true) (h : enabled i s = false) :
    exec i s = .refused (.notEnabled (mnemonic i)) := by
  cases i with
  | reset => cases h
  | stageStart st => cases h
  | stageStop st => cases h
  | stRead => cases h
  | trCfg r d w v o => exact (execTrCfg_of_wellFormed wf s).trans (require_of_eq_false h _)
  | inSample v => exact (withSRatio_of_ne (bne_iff_ne.mp wf) (inSampleNum · s)).trans (require_of_eq_false h _)
  | trStep => exact execTrStep_of_not_enabled h
  | symPush v => exact (withSRatio_of_ne (bne_iff_ne.mp wf) (symPushNum · s)).trans (require_of_eq_false h _)
  | slStep => exact execSlStep_of_not_enabled h
  | bytePop => exact execBytePop_of_not_enabled h
  | frLoad blk => exact (if_pos (beq_iff_eq.mp wf)).trans (require_of_eq_false h _)
  | dsRun => exact require_of_eq_false h _
  | fecRun => exact require_of_eq_false h _
  | frRead => exact require_of_eq_false h _

end

/-- Settles O10: an enabled operation has an effect, and any other is refused at its `require` line. -/
theorem enabledExactly : Obligations.EnabledExactly := by
  intro s i wf written
  refine ⟨fun h => ?_, exec_of_not_enabled wf⟩
  obtain ⟨t, effect⟩ := exists_effect_of_enabled wf written h
  exact ⟨t, effect.exec_eq wf⟩

/-! ### The run bits (R213, R214) -/

theorem exists_stageBit_eq {k : Nat} (hk : k < 4) : ∃ st, stageBit st = k := by
  interval_cases k
  · exact ⟨.tr, rfl⟩
  · exact ⟨.sl, rfl⟩
  · exact ⟨.ds, rfl⟩
  · exact ⟨.fec, rfl⟩

theorem stageBit_eq_iff {st st' : Stage} : stageBit st' = stageBit st ↔ st = st' :=
  ⟨fun same => stageBit_injective same.symm, fun same => same ▸ rfl⟩

theorem setRun_getLsbD (ctrl : BitVec 4) (st : Stage) {k : Nat} (hk : k < 4) :
    (setRun ctrl st).getLsbD k = (decide (k = stageBit st) || ctrl.getLsbD k) := by
  obtain ⟨st', rfl⟩ := exists_stageBit_eq hk
  rw [setRun_bit, decide_eq_decide.mpr stageBit_eq_iff]

theorem clearRun_getLsbD (ctrl : BitVec 4) (st : Stage) {k : Nat} (hk : k < 4) :
    (clearRun ctrl st).getLsbD k = (!decide (k = stageBit st) && ctrl.getLsbD k) := by
  obtain ⟨st', rfl⟩ := exists_stageBit_eq hk
  rw [clearRun_bit, decide_eq_decide.mpr stageBit_eq_iff]

/-- R97: a stage is encoded as the number of its run bit. -/
theorem encodeStage_eq (st : Stage) : encodeStage st = BitVec.ofNat 8 (stageBit st) := by
  cases st <;> rfl

/-- Settles O13: the run bits after `STAGE.START`. -/
theorem stageStartSetsRunBit : Obligations.StageStartSetsRunBit := by
  intro s st n
  have bit : n = stageBit st := by cases st <;> rfl
  rw [bit]
  exact ⟨congrArg (fun b => [0x01, b]) (encodeStage_eq st), setRun s.ctrl st, rfl,
    fun _ => setRun_getLsbD s.ctrl st⟩

/-- Settles O14: the run bits after `STAGE.STOP`. -/
theorem stageStopClearsRunBit : Obligations.StageStopClearsRunBit := by
  intro s st n
  have bit : n = stageBit st := by cases st <;> rfl
  rw [bit]
  exact ⟨congrArg (fun b => [0x02, b]) (encodeStage_eq st), clearRun s.ctrl st, rfl,
    fun _ => clearRun_getLsbD s.ctrl st⟩

/-! ### The host's ends of the front path (R217 to R219) -/

theorem encodeSRatio_eq (v : SRatio) : encodeSRatio v =
    [BitVec.ofNat 8 (v.num.toNat / 256), BitVec.ofNat 8 (v.num.toNat % 256),
      BitVec.ofNat 8 (v.den.toNat / 256), BitVec.ofNat 8 (v.den.toNat % 256)] := by
  rw [encodeSRatio, encodeWord16_eq, encodeWord16_eq]
  rfl

/-- Settles O25: the effect of `IN.SAMPLE`, and its `require` line where it has a step. -/
theorem inSampleAppends : Obligations.InSampleAppends := by
  intro s v den
  refine ⟨congrArg (0x11 :: ·) (encodeSRatio_eq v), fun room => ?_, fun full t h => ?_⟩
  · exact (Effect.inSample v room).exec_eq (bne_iff_ne.mpr den)
  · obtain ⟨-, room, -⟩ := execInSample_next h
    exact Nat.not_succ_le_self _ (room.trans full)

/-- Settles O26: the effect of `SYM.PUSH`, and its `require` line where it has a step. -/
theorem symPushAppends : Obligations.SymPushAppends := by
  intro s v den
  refine ⟨congrArg (0x20 :: ·) (encodeSRatio_eq v), fun stopped room => ?_, fun blocked t h => ?_⟩
  · exact (Effect.symPush v stopped room).exec_eq (bne_iff_ne.mpr den)
  · obtain ⟨-, stopped, room, -⟩ := execSymPush_next h
    obtain running | full := blocked
    · exact Bool.false_ne_true (stopped.symm.trans running)
    · exact Nat.not_succ_le_self _ (room.trans full)

/-- Settles O30: the effect of `BYTE.POP`, and its `require` line where it has a step. -/
theorem bytePopReturnsOldest : Obligations.BytePopReturnsOldest := by
  refine ⟨rfl, fun s empty t h => ?_, fun s b rest chByte => (Effect.bytePop chByte).exec_eq rfl⟩
  obtain ⟨b, rest, chByte, -⟩ := execBytePop_next h
  exact List.cons_ne_nil b rest (chByte.symm.trans empty)

/-! ### The host's ends of the back path (R220, R221) -/

/-- Settles O32: the effect of `FR.LOAD`, and its `require` line where it has a step. -/
theorem frLoadWritesBlock : Obligations.FrLoadWritesBlock := by
  intro s blk length
  refine ⟨rfl, fun empty => ?_, fun occupied t h => ?_⟩
  · exact ⟨_, _, exec_frLoad length empty, Memory.ofBytes_wf 0 blk, Memory.read_ofBytes_zero blk,
      List.length_replicate, fun _ => List.eq_of_mem_replicate⟩
  · obtain ⟨-, empty, -⟩ := execFrLoad_next h
    exact occupied empty

/-- Settles O37: the effect of `FR.READ`, and its `require` line where it has a step. -/
theorem frReadReturnsFrame : Obligations.FrReadReturnsFrame := by
  refine ⟨rfl, fun s other t h => ?_, fun s corrected written => ?_⟩
  · obtain ⟨corrected, -⟩ := execFrRead_next h
    exact other corrected
  · have bytes := written.bytes
    exact ⟨_, Memory.length_of_bytes bytes, fun a => (Memory.read_of_bytes bytes a).symm,
      (Effect.frRead corrected bytes).exec_eq rfl⟩

end Sys2Proof.Machine
end

section
/-! No step faults (60_exceptions.md R240, R245): the decoder gives only well-formed operations, and where the frame
buffer is written as R44 says, a well-formed operation happens or is refused. -/

namespace Sys2Proof.Machine

/-- R91: the next operation of a trace has operands that are values. -/
theorem wellFormed_of_nextOp {P : Params} {bs rest : List Byte} {i : Instr} (h : nextOp P bs = .op i rest) :
    i.wellFormed P = true := by
  cases bs with
  | nil => cases h
  | cons b bs =>
    cases first : decodeFirst P (b :: bs) with
    | none => simp only [nextOp, first, reduceCtorEq] at h
    | some e =>
      obtain ⟨j, rest'⟩ := e
      rw [nextOp_of_decodeFirst first] at h
      split at h
      · obtain ⟨rfl, -⟩ := Next.op.inj h
        exact (decodeFirst_eq_some_iff.mp first).1
      · cases h

/-- R240, R211: a written frame buffer leaves an operation two outcomes, to happen or to be refused. -/
theorem exec_ne_fault {s : State} {i : Instr} (wf : i.wellFormed s.P = true)
    (written : s.fbState ≠ .empty → s.FrameWritten) (f : Fault) : exec i s ≠ .fault f := by
  intro fault
  obtain ⟨happens, refused⟩ := enabledExactly s i wf written
  cases he : enabled i s with
  | true =>
    obtain ⟨t, next⟩ := happens he
    cases next.symm.trans fault
  | false => cases (refused he).symm.trans fault

/-- Settles O57, by what the trace says happens next. -/
theorem noStepFaults : Obligations.NoStepFaults := by
  intro s f hs fault
  unfold step at fault
  split at fault
  next => cases fault
  next => cases fault
  next i rest hop =>
    have wf : i.wellFormed (s.withTrace rest).P = true := wellFormed_of_nextOp hop
    exact exec_ne_fault wf (hs.withTrace rest).fb_written f fault

end Sys2Proof.Machine
end

section
/-! Power-on and `RESET` (70_reset_and_hazards.md R260). -/

namespace Sys2Proof.Machine

/-- R260: what `RESET` does, in every state. -/
theorem exec_reset (s : State) :
    exec .reset s = .next { State.powerOn s.params with trace := s.trace, results := s.results } := rfl

/-- R7: the record of parameters of `State.reset`. -/
@[simp] theorem State.reset_P : State.reset.P = Params.rs41 := State.powerOn_P Config.parameters

/-- Settles O11: the rule of `RESET`, and the facts about the power-on state of every record at the chosen one. -/
theorem powerOnState : Obligations.PowerOnState :=
  ⟨exec_reset, State.powerOn_atReset Config.parameters, State.reset_P, State.powerOn_trace Config.parameters,
    State.powerOn_results Config.parameters⟩

end Sys2Proof.Machine
end
